-- ==== Sys2Proof/Word.lean ====
section
/-! DEFINITION. The widths of the TTE: the byte, the 32-bit register word and the byte string. -/

namespace Sys2Proof

/-- A byte is 8 bits (R11). -/
abbrev Byte := BitVec 8

/-- Every register of the register window is 32 bits wide (R13). -/
abbrev Word := BitVec 32

/-- A byte string, first byte first (R11). -/
abbrev Bytes := List Byte

end Sys2Proof
end

