-- ==== Sys2Proof/Config.lean ====
section
/-! DEFINITION. What an implementation fixes (R9), and the free values: the constants with no body from which
every value that the spec leaves open ("any value", "a draw") is taken. -/

namespace Sys2Proof

/-- The two hash algorithms of unit HASH (R103, R211). -/
inductive HashAlg where
  | sha256
  | sha1
  deriving DecidableEq, Repr, Inhabited

/-- The two bit orders of the leading-zero count (R244). -/
inductive LzbOrder where
  | lsbFirst
  | msbFirst
  deriving DecidableEq, Repr, Inhabited

/-- The direction that the `M` field selects (R103): client to server, or server to client. -/
inductive Dir where
  | c2s
  | s2c
  deriving DecidableEq, Repr, Inhabited

/-- The error codes of `STATUS.ERR` (R331). Codes 12 to 255 are never produced, so there is no constructor for
them. -/
inductive ErrCode where
  /-- 0: normal completion. -/
  | ok
  /-- 1: unassigned opcode, or a nonzero reserved bit or unused field. -/
  | illegal
  /-- 2: a buffer region out of range, or COMPRESS output longer than its capacity. -/
  | range
  /-- 3: an operand value outside its range. -/
  | arg
  /-- 4: the tag of a frame does not verify. -/
  | auth
  /-- 5: DERIVE in the unkeyed phase. -/
  | notKeyed
  /-- 6: an unsupported compression level. -/
  | level
  /-- 7: a claimed decompressed size that is not below the maximum. -/
  | size
  /-- 8: a malformed codec block, or a frame shorter than tag plus header. -/
  | format
  /-- 9: RQ_SET on a present id or an id below the window. -/
  | duplicate
  /-- 10: RQ_SET on an id at or beyond the window's end. -/
  | overfull
  /-- 11: input and output regions of the codec overlap. -/
  | overlap
  deriving DecidableEq, Repr, Inhabited

/-- The parameters of R9. A machine state carries the parameters of the TTE it is a state of, so that a statement
about every state is a statement about every legal choice of them. -/
structure Config where
  bufSize : Nat
  rqCapacity : Nat
  rqCount : Nat
  auxHash : HashAlg
  lzbOrder : LzbOrder
  dummyKey : Vector Byte 16
  dummyNonce : Vector Byte 16
  fixedSignature : Vector Byte 8
  regBase : Nat
  bufBase : Nat
  deriving DecidableEq, Repr, Inhabited

/-- The size of the register window in bytes (R61). -/
def regWindowSize : Nat := 4096

/-- The size of the buffer window rounded up to a power of two (R62), for a buffer of at least 2 bytes. -/
def Config.bufWindowSize (c : Config) : Nat := 2 ^ (Nat.log2 (c.bufSize - 1) + 1)

/-- The legal values of R9 and R10, and the placing of the two windows in R62: each is aligned to its size rounded
up to a power of two, and they do not overlap. -/
abbrev Config.legal (c : Config) : Prop :=
  4096 ≤ c.bufSize ∧ c.bufSize ≤ 2 ^ 24 ∧
  c.rqCapacity ∈ (List.range 16).map (2 ^ ·) ∧
  1 ≤ c.rqCount ∧ c.rqCount ≤ 15 ∧
  c.regBase % regWindowSize = 0 ∧ c.bufBase % c.bufWindowSize = 0 ∧
  (c.regBase + regWindowSize ≤ c.bufBase ∨ c.bufBase + c.bufWindowSize ≤ c.regBase)

/-- A configuration that meets `Config.legal`. No statement is about it: it only shows that there is one. -/
def Config.someLegal : Config where
  bufSize := 4096
  rqCapacity := 1
  rqCount := 1
  auxHash := .sha256
  lzbOrder := .lsbFirst
  dummyKey := Vector.replicate 16 0
  dummyNonce := Vector.replicate 16 0
  fixedSignature := Vector.replicate 8 0
  regBase := 0
  bufBase := 4096

/-- The parameters of the machine, before the check that they are legal: a free value. DESIGN CHOICE, log entry 1
(safe). -/
opaque Config.chosen : Config

/-- The parameters of the machine that `State.reset` starts: any legal ones. Nothing can be proved of them but that
they are legal. DESIGN CHOICE, log entry 1 (safe). -/
def Config.params : Config := if Config.chosen.legal then Config.chosen else Config.someLegal

/-- The byte that an address of `BUF` holds after the `k`-th power-on: "every `BUF` byte holds an unspecified value;
a model treats each as a draw" (R77). DESIGN CHOICE, log entry 2 (safe). -/
opaque Config.powerOnByte : Nat → Nat → Byte

/-- The byte that the `k`-th draw gives an address of a region that "holds any value" (R332, R362, R70). DESIGN
CHOICE, log entry 3 (safe). -/
opaque Config.freeByte : Nat → Nat → Byte

/-- The word that the `k`-th draw gives result register `i`: a read of `RES[i]` while busy (R30), and the results of
a command whose regions the host wrote while it ran (R70). DESIGN CHOICE, log entry 3 (safe). -/
opaque Config.freeWord : Nat → Nat → Word

/-- The error code of the `k`-th draw (R70): any of the twelve that R331 says are produced. DESIGN CHOICE, log
entry 4 (unsafe). -/
opaque Config.freeErr : Nat → ErrCode

/-- Whether a CRYPTO_INIT whose regions the host wrote while it ran changed the crypto state (R70). DESIGN CHOICE,
log entry 5 (safe). -/
opaque Config.freeBool : Nat → Bool

end Sys2Proof
end

