-- ==== Sys2Proof/Machine/Bytes.lean ====
section
/-! DEFINITION. Byte strings and their byte orders (R11, R64). -/

namespace Sys2Proof.Machine

/-- `BE_n(v)`: the `n`-byte big-endian string of `v` (R11). -/
def beBytes : Nat → Nat → Bytes
  | 0, _ => []
  | n + 1, v => BitVec.ofNat 8 (v / 256 ^ n) :: beBytes n v

/-- `LE_n(v)`: the `n`-byte little-endian string of `v` (R11). -/
def leBytes : Nat → Nat → Bytes
  | 0, _ => []
  | n + 1, v => BitVec.ofNat 8 v :: leBytes n (v / 256)

/-- `uBE(s)` (R11). -/
def uBE (s : Bytes) : Nat := s.foldl (fun v b => v * 256 + b.toNat) 0

/-- `uLE(s)` (R11). -/
def uLE (s : Bytes) : Nat := s.foldr (fun b v => b.toNat + 256 * v) 0

/-- `a xor b` on byte strings, bytewise; the result is as long as the shorter (R11). -/
def xorBytes (a b : Bytes) : Bytes := List.zipWith (· ^^^ ·) a b

/-- `n` zero bytes. -/
def zeroBytes (n : Nat) : Bytes := List.replicate n 0

/-- `s[i]`, where the string has a byte `i` (R11). -/
def byteAt (s : Bytes) (i : Nat) : Byte := s.getD i 0

/-- `s[i..j)` (R11). -/
def slice (s : Bytes) (i j : Nat) : Bytes := (s.drop i).take (j - i)

/-- The first `n` bytes of a string as a vector, for the byte strings of fixed length that the state holds. -/
def fixedBytes (n : Nat) (s : Bytes) : Vector Byte n := Vector.ofFn fun i => byteAt s i.val

end Sys2Proof.Machine
end

