-- ==== Sys2Proof/Machine/Aes.lean ====
section
/-! DEFINITION. AES-128 (R260 to R266) and EAX with an 8-byte tag (R270 to R275). -/

namespace Sys2Proof.Machine

/-- The S-box of R262: row `r` holds `Sbox[16 r]` to `Sbox[16 r + 15]`, first entry leftmost. -/
def sboxRows : List Nat := [
  0x637c777bf26b6fc53001672bfed7ab76, 0xca82c97dfa5947f0add4a2af9ca472c0,
  0xb7fd9326363ff7cc34a5e5f171d83115, 0x04c723c31896059a071280e2eb27b275,
  0x09832c1a1b6e5aa0523bd6b329e32f84, 0x53d100ed20fcb15b6acbbe394a4c58cf,
  0xd0efaafb434d338545f9027f503c9fa8, 0x51a3408f929d38f5bcb6da2110fff3d2,
  0xcd0c13ec5f974417c4a77e3d645d1973, 0x60814fdc222a908846eeb814de5e0bdb,
  0xe0323a0a4906245cc2d3ac629195e479, 0xe7c8376d8dd54ea96c56f4ea657aae08,
  0xba78252e1ca6b4c6e8dd741f4bbd8b8a, 0x703eb5664803f60e613557b986c11d9e,
  0xe1f8981169d98e949b1e87e9ce5528df, 0x8ca1890dbfe6426841992d0fb054bb16]

/-- `Sbox[x]` (R262). -/
def sbox (x : Byte) : Byte :=
  BitVec.ofNat 8 (sboxRows.getD (x.toNat / 16) 0 >>> (8 * (15 - x.toNat % 16)))

/-- `xtime`: doubling in GF(2^8) modulo 0x11B (R263). -/
def xtime (b : Byte) : Byte := (b <<< 1) ^^^ (if b.getLsbD 7 then 0x1B#8 else 0#8)

/-- `3·b` (R263). -/
def mul3 (b : Byte) : Byte := xtime b ^^^ b

/-- `SubBytes` (R264). A state is its 16 bytes in the order of R261: `s[r][c]` is byte `r + 4 c`. -/
def subBytes (s : Bytes) : Bytes := s.map sbox

/-- `ShiftRows`: `s'[r][c] = s[r][(c + r) mod 4]` (R264). -/
def shiftRows (s : Bytes) : Bytes :=
  (List.range 16).map fun j => byteAt s (j % 4 + 4 * ((j / 4 + j % 4) % 4))

/-- `MixColumns` on the column whose bytes are `a0` to `a3` (R264). -/
def mixColumn (a0 a1 a2 a3 : Byte) : Bytes :=
  [xtime a0 ^^^ mul3 a1 ^^^ a2 ^^^ a3, a0 ^^^ xtime a1 ^^^ mul3 a2 ^^^ a3,
   a0 ^^^ a1 ^^^ xtime a2 ^^^ mul3 a3, mul3 a0 ^^^ a1 ^^^ a2 ^^^ xtime a3]

/-- `MixColumns` (R264). -/
def mixColumns (s : Bytes) : Bytes :=
  (List.range 4).flatMap fun c =>
    mixColumn (byteAt s (4 * c)) (byteAt s (4 * c + 1)) (byteAt s (4 * c + 2)) (byteAt s (4 * c + 3))

/-- `Rcon[1..10]` (R265). -/
def rcon : List Byte := [0x01, 0x02, 0x04, 0x08, 0x10, 0x20, 0x40, 0x80, 0x1b, 0x36]

/-- `RotWord` (R265). -/
def rotWord (t : Bytes) : Bytes := slice t 1 4 ++ slice t 0 1

/-- The key-schedule word `w[j]` from the words before it, newest first (R265). -/
def keyWord (j : Nat) (ws : List Bytes) : Bytes :=
  let t := ws.getD 0 []
  let t' := if j % 4 = 0 then xorBytes (subBytes (rotWord t)) (rcon.getD (j / 4 - 1) 0 :: zeroBytes 3) else t
  xorBytes (ws.getD 3 []) t'

/-- `n` more words of the key schedule from word `j` on, newest first (R265). -/
def expandFrom : Nat → Nat → List Bytes → List Bytes
  | 0, _, ws => ws
  | n + 1, j, ws => expandFrom n (j + 1) (keyWord j ws :: ws)

/-- The key schedule `w[0..43]`, as one byte string (R265). -/
def keySchedule (k : Bytes) : Bytes :=
  (expandFrom 40 4 [slice k 12 16, slice k 8 12, slice k 4 8, slice k 0 4]).reverse.flatten

/-- `AddRoundKey(i)`: byte `r + 4 c` meets byte `r` of word `4 i + c` (R264). -/
def addRoundKey (ks : Bytes) (i : Nat) (s : Bytes) : Bytes := xorBytes s (slice ks (16 * i) (16 * i + 16))

/-- The rounds 1 to 9 (R266). -/
def aesRounds (ks : Bytes) (s : Bytes) : Bytes :=
  (List.range' 1 9).foldl (fun s i => addRoundKey ks i (mixColumns (shiftRows (subBytes s)))) s

/-- `AES128(K, X)` (R266). -/
def aes128 (k x : Bytes) : Bytes :=
  let ks := keySchedule k
  addRoundKey ks 10 (shiftRows (subBytes (aesRounds ks (addRoundKey ks 0 x))))

/-- `dbl` in GF(2^128) (R270). -/
def dbl (l : Bytes) : Bytes :=
  let v : BitVec 128 := BitVec.ofNat 128 (uBE l)
  beBytes 16 ((v <<< 1) ^^^ (if v.getLsbD 127 then 0x87#128 else 0#128)).toNat

/-- The chaining of CMAC over the first `n` blocks of a message (R271). -/
def cmacChain (k : Bytes) : Nat → Bytes → Bytes → Bytes
  | 0, _, x => x
  | n + 1, m, x => cmacChain k n (m.drop 16) (aes128 k (xorBytes x (m.take 16)))

/-- The masked last block of CMAC, `r` being the bytes of the message past the first `n - 1` blocks (R271): a whole
block meets `K1`, a shorter one is padded with `80` and zeros and meets `K2`. -/
def cmacLast (k r : Bytes) : Bytes :=
  let k1 := dbl (aes128 k (zeroBytes 16))
  if r.length = 16 then xorBytes r k1 else xorBytes (r ++ 0x80#8 :: zeroBytes (15 - r.length)) (dbl k1)

/-- `CMAC(K, M)` (R271): `n` blocks, at least one. -/
def cmac (k m : Bytes) : Bytes :=
  let before := (m.length + 15) / 16 - 1
  aes128 k (xorBytes (cmacChain k before m (zeroBytes 16)) (cmacLast k (m.drop (16 * before))))

/-- `OMAC^t(K, M)` (R272). -/
def omac (t : Byte) (k m : Bytes) : Bytes := cmac k (zeroBytes 15 ++ t :: m)

/-- The keystream of CTR mode, `n` blocks from the counter `v` on (R273). -/
def ctrStream (k : Bytes) : Nat → Nat → Bytes
  | 0, _ => []
  | n + 1, v => aes128 k (beBytes 16 v) ++ ctrStream k n ((v + 1) % 2 ^ 128)

/-- `CTR(K, N, M)` (R273). -/
def ctr (k nonce m : Bytes) : Bytes := xorBytes m (ctrStream k ((m.length + 15) / 16) (uBE nonce))

/-- The first 8 bytes of `N' XOR C' XOR H'`, the tag of R274 and R275. -/
def eaxTag (k nonce hdr c : Bytes) : Bytes :=
  (xorBytes (xorBytes (omac 0 k nonce) (omac 2 k c)) (omac 1 k hdr)).take 8

/-- `EAX_Enc`: the ciphertext and the tag (R274). -/
def eaxEnc (k nonce hdr p : Bytes) : Bytes × Bytes :=
  let c := ctr k (omac 0 k nonce) p
  (c, eaxTag k nonce hdr c)

/-- `EAX_Dec`: the plaintext, or `none` where the tag fails (R275). -/
def eaxDec (k nonce hdr c t : Bytes) : Option Bytes :=
  if eaxTag k nonce hdr c = t then some (ctr k (omac 0 k nonce) c) else none

end Sys2Proof.Machine
end

