-- ==== Sys2Proof/Syntax.lean ====
section
/-! DEFINITION. The commands of Table 30-1 (R106): one constructor for each row of spec/opcode_table.json, with the
fields of the command word that the row uses. Every other operand of a command is an `ARG` register (R105). -/

namespace Sys2Proof

/-- A command of the TTE. `queue` and `ptype` are the two readings of `SEL` (R102), `alg` and `dir` those of `M`
(R103), `target` and `level` those of `LEVEL` (R104). -/
inductive Instr where
  | nop
  | hash (alg : HashAlg)
  | powLevel
  | powSearch (target : Nat)
  | compress (level : Nat)
  | decompress
  | lzCsize
  | lzDsize
  | rqInit (queue : Nat)
  | rqSet (queue : Nat)
  | rqDequeue (queue : Nat)
  | rqIsSet (queue : Nat)
  | rqGen (queue : Nat)
  | rqStatus (queue : Nat)
  | seqNext (ptype : Nat)
  | seqRead (ptype : Nat)
  | seqSet (ptype : Nat)
  | seqDiff
  | seqResolve
  | cryptoInit
  | cryptoReset
  | deriveKey (ptype : Nat) (dir : Dir)
  | encrypt (dir : Dir)
  | decrypt (dir : Dir)
  deriving DecidableEq, Repr

end Sys2Proof
end

