-- ==== Sys2Proof/WellFormed.lean ====
section
/-! DEFINITION. Which commands a command word can hold: each field fits the bits R100 gives it. A field value that
fits but is outside its operand's range (a ptype of 9, a queue at or past RQ_COUNT) is well formed, and its command
raises `ARG` (R102). -/

namespace Sys2Proof

/-- `SEL` is 4 bits wide (R100). -/
def selFits (v : Nat) : Bool := decide (v < 16)

/-- `LEVEL` is 8 bits wide (R100). -/
def levelFits (v : Nat) : Bool := decide (v < 256)

/-- Every field of the command fits its bits in the command word (R100). -/
def Instr.wellFormed : Instr → Bool
  | .nop => true
  | .hash _ => true
  | .powLevel => true
  | .powSearch target => levelFits target
  | .compress level => levelFits level
  | .decompress => true
  | .lzCsize => true
  | .lzDsize => true
  | .rqInit queue => selFits queue
  | .rqSet queue => selFits queue
  | .rqDequeue queue => selFits queue
  | .rqIsSet queue => selFits queue
  | .rqGen queue => selFits queue
  | .rqStatus queue => selFits queue
  | .seqNext ptype => selFits ptype
  | .seqRead ptype => selFits ptype
  | .seqSet ptype => selFits ptype
  | .seqDiff => true
  | .seqResolve => true
  | .cryptoInit => true
  | .cryptoReset => true
  | .deriveKey ptype _ => selFits ptype
  | .encrypt _ => true
  | .decrypt _ => true

end Sys2Proof
end

