-- ==== Sys2Proof/Decode.lean ====
section
/-! DEFINITION. The decoder of R108, total on every 32-bit word, and the encoder of R100 after it. -/

namespace Sys2Proof

/-- `CMD.OP`, bits 7:0 of the command word (R100). -/
def fieldOp (w : Word) : Nat := (w.extractLsb' 0 8).toNat

/-- `CMD.SEL`, bits 11:8 (R100). -/
def fieldSel (w : Word) : Nat := (w.extractLsb' 8 4).toNat

/-- `CMD.M`, bit 12 (R100). -/
def fieldM (w : Word) : Bool := w.getLsbD 12

/-- `CMD.LEVEL`, bits 23:16 (R100). -/
def fieldLevel (w : Word) : Nat := (w.extractLsb' 16 8).toNat

/-- The direction that a mode bit selects (R103). -/
def dirOfBit (m : Bool) : Dir := if m then .s2c else .c2s

/-- The hash algorithm that a mode bit selects (R103). -/
def algOfBit (m : Bool) : HashAlg := if m then .sha1 else .sha256

/-- The mode bit of a direction (R103). -/
def bitOfDir : Dir → Bool
  | .c2s => false
  | .s2c => true

/-- The mode bit of a hash algorithm (R103). -/
def bitOfAlg : HashAlg → Bool
  | .sha256 => false
  | .sha1 => true

/-- The opcode map, Table 30-1 (R106), read with the fields of the word; `none` for an unassigned opcode (R107). -/
def rowOf (op sel : Nat) (m : Bool) (level : Nat) : Option Instr :=
  match op with
  | 0x00 => some .nop
  | 0x01 => some (.hash (algOfBit m))
  | 0x02 => some .powLevel
  | 0x03 => some (.powSearch level)
  | 0x10 => some (.compress level)
  | 0x11 => some .decompress
  | 0x12 => some .lzCsize
  | 0x13 => some .lzDsize
  | 0x20 => some (.rqInit sel)
  | 0x21 => some (.rqSet sel)
  | 0x22 => some (.rqDequeue sel)
  | 0x23 => some (.rqIsSet sel)
  | 0x24 => some (.rqGen sel)
  | 0x25 => some (.rqStatus sel)
  | 0x30 => some (.seqNext sel)
  | 0x31 => some (.seqRead sel)
  | 0x32 => some (.seqSet sel)
  | 0x33 => some .seqDiff
  | 0x34 => some .seqResolve
  | 0x40 => some .cryptoInit
  | 0x41 => some .cryptoReset
  | 0x42 => some (.deriveKey sel (dirOfBit m))
  | 0x43 => some (.encrypt (dirOfBit m))
  | 0x44 => some (.decrypt (dirOfBit m))
  | _ => none

/-- `match(op)`: the opcode in bits 7:0 (R101, R108). -/
def opcodeOf : Instr → Word
  | .nop => 0x00
  | .hash _ => 0x01
  | .powLevel => 0x02
  | .powSearch _ => 0x03
  | .compress _ => 0x10
  | .decompress => 0x11
  | .lzCsize => 0x12
  | .lzDsize => 0x13
  | .rqInit _ => 0x20
  | .rqSet _ => 0x21
  | .rqDequeue _ => 0x22
  | .rqIsSet _ => 0x23
  | .rqGen _ => 0x24
  | .rqStatus _ => 0x25
  | .seqNext _ => 0x30
  | .seqRead _ => 0x31
  | .seqSet _ => 0x32
  | .seqDiff => 0x33
  | .seqResolve => 0x34
  | .cryptoInit => 0x40
  | .cryptoReset => 0x41
  | .deriveKey _ _ => 0x42
  | .encrypt _ => 0x43
  | .decrypt _ => 0x44

/-- `mask(op)`: all ones, with the bits of each field that the opcode uses cleared (R101, R108). -/
def maskOf : Instr → Word
  | .nop => 0xFFFFFFFF
  | .hash _ => 0xFFFFEFFF
  | .powLevel => 0xFFFFFFFF
  | .powSearch _ => 0xFF00FFFF
  | .compress _ => 0xFF00FFFF
  | .decompress => 0xFFFFFFFF
  | .lzCsize => 0xFFFFFFFF
  | .lzDsize => 0xFFFFFFFF
  | .rqInit _ => 0xFFFFF0FF
  | .rqSet _ => 0xFFFFF0FF
  | .rqDequeue _ => 0xFFFFF0FF
  | .rqIsSet _ => 0xFFFFF0FF
  | .rqGen _ => 0xFFFFF0FF
  | .rqStatus _ => 0xFFFFF0FF
  | .seqNext _ => 0xFFFFF0FF
  | .seqRead _ => 0xFFFFF0FF
  | .seqSet _ => 0xFFFFF0FF
  | .seqDiff => 0xFFFFFFFF
  | .seqResolve => 0xFFFFFFFF
  | .cryptoInit => 0xFFFFFFFF
  | .cryptoReset => 0xFFFFFFFF
  | .deriveKey _ _ => 0xFFFFE0FF
  | .encrypt _ => 0xFFFFEFFF
  | .decrypt _ => 0xFFFFEFFF

/-- Why a word is no command. Both complete with `ILLEGAL` (R107). -/
inductive DecodeError where
  /-- The opcode is not in Table 30-1. -/
  | unassignedOpcode
  /-- A reserved bit, or a bit of a field that the opcode does not use, is 1. -/
  | nonzeroUnusedBits
  deriving DecidableEq, Repr

/-- Decode a command word (R108). -/
def decode (w : Word) : Except DecodeError Instr :=
  match rowOf (fieldOp w) (fieldSel w) (fieldM w) (fieldLevel w) with
  | none => .error .unassignedOpcode
  | some i => if w &&& maskOf i = opcodeOf i then .ok i else .error .nonzeroUnusedBits

/-- `SEL` placed at bits 11:8 (R100). -/
def placeSel (v : Nat) : Word := BitVec.ofNat 32 v <<< 8

/-- `M` placed at bit 12 (R100). -/
def placeM (m : Bool) : Word := if m then 0x1000 else 0

/-- `LEVEL` placed at bits 23:16 (R100). -/
def placeLevel (v : Nat) : Word := BitVec.ofNat 32 v <<< 16

/-- The bits of the used fields of a command (R100, Table 30-1). -/
def fieldBits : Instr → Word
  | .nop => 0
  | .hash alg => placeM (bitOfAlg alg)
  | .powLevel => 0
  | .powSearch target => placeLevel target
  | .compress level => placeLevel level
  | .decompress => 0
  | .lzCsize => 0
  | .lzDsize => 0
  | .rqInit queue => placeSel queue
  | .rqSet queue => placeSel queue
  | .rqDequeue queue => placeSel queue
  | .rqIsSet queue => placeSel queue
  | .rqGen queue => placeSel queue
  | .rqStatus queue => placeSel queue
  | .seqNext ptype => placeSel ptype
  | .seqRead ptype => placeSel ptype
  | .seqSet ptype => placeSel ptype
  | .seqDiff => 0
  | .seqResolve => 0
  | .cryptoInit => 0
  | .cryptoReset => 0
  | .deriveKey ptype dir => placeSel ptype ||| placeM (bitOfDir dir)
  | .encrypt dir => placeM (bitOfDir dir)
  | .decrypt dir => placeM (bitOfDir dir)

/-- The one word of a command (R109). -/
def encode (i : Instr) : Word := opcodeOf i ||| fieldBits i

/-- The command that the decoder reads from a word given as a number whose bit 0 is the word's bit 0, with every
bit at or above `nbits` 0. The host's bus carries the word as one 32-bit value with bit 0 of the register at bit 0
of the data (R65), so there is no byte order to lay out. -/
def decodeTableWord (nbits w : Nat) : Option Instr :=
  match decode (BitVec.ofNat 32 (w % 2 ^ nbits)) with
  | .ok i => some i
  | .error _ => none

end Sys2Proof
end

