-- ==== Sys2Proof/Machine/Lz.lean ====
section
/-! DEFINITION. The quick-compress codec (41_codec.md): the block header (R130 to R133, R145), the compressor
(R140, R141) and the decoder (R146). -/

namespace Sys2Proof.Machine

/-- The header length of a compressed block for an input of `n` bytes (R138). -/
def lzHeaderLen (n : Nat) : Nat := if n < 216 then 3 else 9

/-- `Header(C, hl, clen, dlen)` (R131 to R133, R140). -/
def lzHeader (compressed : Bool) (hl clen dlen : Nat) : Bytes :=
  let flags := (if compressed then 1 else 0) + 4 + 0x40 + (if hl = 9 then 2 else 0)
  if hl = 3 then [BitVec.ofNat 8 flags, BitVec.ofNat 8 clen, BitVec.ofNat 8 dlen]
  else BitVec.ofNat 8 flags :: (leBytes 4 clen ++ leBytes 4 dlen)

/-- The stored form of an input (R137). -/
def lzStored (s : Bytes) : Bytes :=
  let hl := lzHeaderLen s.length
  lzHeader false hl (s.length + hl) s.length ++ s

/-- The three bytes of a string at `p` as the 24-bit value `f` (R136). -/
def lzFetch (s : Bytes) (p : Nat) : Nat := uLE (slice s p (p + 3))

/-- `Hash(f)`, one of 4096 (R136). -/
def lzHash (f : Nat) : Nat := ((f >>> 12) ^^^ f) &&& 0xFFF

/-- One entry of the compressor's scratch tables: `pos`, `val` and `seen` (R140). -/
structure LzEntry where
  pos : Nat
  val : Nat
  seen : Bool
  deriving DecidableEq, Repr

/-- The compressor's scratch tables: the entries written in this call, newest first (R140). They are no state (R20,
R49; log entry 16). -/
abbrev LzTable := List (Nat × LzEntry)

/-- The entry of a hash value; an entry that this call has not written is cleared (R140). -/
def lzEntry (t : LzTable) (h : Nat) : LzEntry := (t.lookup h).getD ⟨0, 0, false⟩

/-- What the compressor carries from token to token (R140): the position `s`, the literals since the last match,
the control word, the output of the closed groups past the header, the tokens of the open group, and the tables. The
open control word's place in the output is between the last two. -/
structure LzComp where
  s : Nat
  lits : Nat
  cw : Word
  closed : Bytes
  group : Bytes
  table : LzTable
  deriving DecidableEq, Repr

/-- Close the open group: its control word goes before its tokens, and a new group opens (R140). -/
def lzClose (c : LzComp) : LzComp :=
  { c with
    closed := c.closed ++ leBytes 4 ((c.cw >>> 1) ||| 0x80000000#32).toNat ++ c.group
    group := []
    cw := 0x80000000 }

/-- The open control word is full: it has its 31 tokens (R140). -/
def lzFull (c : LzComp) : Bool := c.cw.getLsbD 0

/-- `len(O)`: the header, the closed groups, the open control word and its tokens (R140, R141). -/
def lzOutLen (hl : Nat) (c : LzComp) : Nat := hl + c.closed.length + 4 + c.group.length

/-- The bail-out test (R141). -/
def lzBails (n hl : Nat) (c : LzComp) : Bool :=
  decide (n / 2 < c.s) && decide (c.s - c.s / 32 < lzOutLen hl c)

/-- Add a literal token (R135, R140). -/
def lzLiteral (src : Bytes) (c : LzComp) : LzComp :=
  { c with group := c.group ++ [byteAt src c.s], cw := c.cw >>> 1, s := c.s + 1 }

/-- The run condition of the match test (R140): the byte at `s` repeats from `s - 3` to `s + 2`. -/
def lzRun (src : Bytes) (s : Nat) : Bool :=
  let b := byteAt src s
  byteAt src (s - 3) == b && byteAt src (s - 2) == b && byteAt src (s - 1) == b &&
  byteAt src (s + 1) == b && byteAt src (s + 2) == b

/-- Lengthen a match from `k` bytes on while the next byte agrees and `k` is below `rem` (R140). -/
def lzExtend (src : Bytes) (o s rem : Nat) : Nat → Nat → Nat
  | 0, k => k
  | fuel + 1, k =>
    if byteAt src (o + k) = byteAt src (s + k) ∧ k < rem then lzExtend src o s rem fuel (k + 1) else k

/-- The match length at `s` for the earlier position `o` (R140). The bytes 3, 4 and 5 are compared without the
bound, which is at least 7 there. -/
def lzMatchLen (src : Bytes) (o s : Nat) : Nat :=
  if byteAt src (o + 3) ≠ byteAt src (s + 3) then 3
  else if byteAt src (o + 4) ≠ byteAt src (s + 4) then 4
  else if byteAt src (o + 5) ≠ byteAt src (s + 5) then 5
  else
    let rem := min 255 (src.length - 4 - s)
    lzExtend src o s rem rem 6

/-- A match token (R135). -/
def lzMatchToken (h ml : Nat) : Bytes :=
  if ml < 18 then leBytes 2 (h * 16 + (ml - 2)) else leBytes 2 (h * 16) ++ [BitVec.ofNat 8 ml]

/-- One token of the main loop (R140), the control word not being full: a match where the table names an earlier
position with the same three bytes that a literal started at, far enough back or in a run, otherwise a literal. -/
def lzToken (src : Bytes) (c : LzComp) : LzComp :=
  let s := c.s
  let f := lzFetch src s
  let h := lzHash f
  let e := lzEntry c.table h
  let o := e.pos
  let far := decide (o + 2 < s)
  let run := decide (s = o + 1) && decide (3 ≤ c.lits) && decide (3 < s) && lzRun src s
  if e.val = f ∧ e.seen ∧ (far || run) then
    let ml := lzMatchLen src o s
    { c with
      cw := (c.cw >>> 1) ||| 0x80000000#32
      group := c.group ++ lzMatchToken h ml
      s := s + ml
      lits := 0
      table := (h, ⟨s, f, e.seen⟩) :: c.table }
  else
    lzLiteral src { c with lits := c.lits + 1, table := (h, ⟨s, f, true⟩) :: c.table }

/-- The main loop (R140) while `s ≤ n - 11`; `none` is the bail-out. Each round moves `s` on, so the input's length
is fuel enough. -/
def lzMain (src : Bytes) (hl : Nat) : Nat → LzComp → Option LzComp
  | 0, c => some c
  | fuel + 1, c =>
    if c.s + 11 ≤ src.length then
      if lzFull c then
        if lzBails src.length hl c then none else lzMain src hl fuel (lzToken src (lzClose c))
      else lzMain src hl fuel (lzToken src c)
    else some c

/-- The tail loop (R140): the last `k` bytes are literals. -/
def lzTail (src : Bytes) : Nat → LzComp → LzComp
  | 0, c => c
  | k + 1, c => lzTail src k (lzLiteral src (if lzFull c then lzClose c else c))

/-- Shift the last control word until its sentinel is at bit 0 (R140). -/
def lzFlush : Nat → Word → Word
  | 0, cw => cw
  | n + 1, cw => if cw.getLsbD 0 then cw else lzFlush n (cw >>> 1)

/-- The start of the compressor's loops (R140). -/
def lzStart : LzComp := { s := 0, lits := 0, cw := 0x80000000, closed := [], group := [], table := [] }

/-- The compressed form of what the loops produced (R140). -/
def lzFinish (n hl : Nat) (c : LzComp) : Bytes :=
  let body := (lzClose { c with cw := lzFlush 32 c.cw }).closed
  lzHeader true hl (hl + body.length) n ++ body

/-- `LzCompress(S)` (R140, R143). -/
def lzCompress (src : Bytes) : Bytes :=
  let n := src.length
  let hl := lzHeaderLen n
  if n = 0 then lzHeader false 3 3 0
  else
    match lzMain src hl n lzStart with
    | none => lzStored src
    | some c => lzFinish n hl (lzTail src (n - c.s) c)

/-- The fields of a block header (R145). -/
structure LzFields where
  hl : Nat
  clen : Nat
  dlen : Nat
  deriving DecidableEq, Repr

/-- `LzHeader(B)` (R145); `none` is `FORMAT`. -/
def lzParse (b : Bytes) : Option LzFields :=
  if b.length < 1 then none
  else
    let hl := if (byteAt b 0).getLsbD 1 then 9 else 3
    if b.length < hl then none
    else if hl = 3 then some ⟨3, (byteAt b 1).toNat, (byteAt b 2).toNat⟩
    else some ⟨9, uLE (slice b 1 5), uLE (slice b 5 9)⟩

/-- The decoder's position table: the positions entered in this call, newest first (R146). -/
abbrev LzPositions := List (Nat × Nat)

/-- The position of a hash value, 0 where nothing is entered (R146). -/
def lzPosition (t : LzPositions) (h : Nat) : Nat := (t.lookup h).getD 0

/-- Enter `k` positions of the output from `p` on (R146). -/
def lzEnter (d : Bytes) : Nat → Nat → LzPositions → LzPositions
  | 0, _, t => t
  | k + 1, p, t => lzEnter d k (p + 1) ((lzHash (lzFetch d p), p) :: t)

/-- Append `k` bytes copied from position `o` on, byte by byte (R146). -/
def lzCopy (o : Nat) : Nat → Bytes → Bytes
  | 0, d => d
  | k + 1, d => lzCopy (o + 1) k (d ++ [byteAt d o])

/-- What the decoder carries from token to token (R146): the place in the block, the control word, the output, the
table, and the first position not yet entered, which is `lh + 1`. -/
structure LzDec where
  s : Nat
  cw : Word
  out : Bytes
  table : LzPositions
  next : Nat
  deriving DecidableEq, Repr

/-- Read a control word where the last one is used up (R146); `none` is `FORMAT`. -/
def lzReadControl (b : Bytes) (clen : Nat) (d : LzDec) : Option LzDec :=
  if d.cw = 1 then
    if d.s + 4 ≤ clen then some { d with cw := BitVec.ofNat 32 (uLE (slice b d.s (d.s + 4))), s := d.s + 4 }
    else none
  else some d

/-- A match token (R146); `none` is `FORMAT`. -/
def lzDecodeMatch (b : Bytes) (clen dlen : Nat) (d : LzDec) : Option LzDec :=
  if clen < d.s + 2 then none
  else
    let w := uLE (slice b d.s (d.s + 2))
    let h := w / 16
    let short := w % 16
    if short = 0 ∧ clen < d.s + 3 then none
    else
      let ml := if short = 0 then (byteAt b (d.s + 2)).toNat else short + 2
      let o := lzPosition d.table h
      let len := d.out.length
      if ml < 3 ∨ len ≤ o ∨ dlen < len + ml then none
      else
        let out := lzCopy o ml d.out
        some
          { s := d.s + (if short = 0 then 3 else 2)
            cw := d.cw >>> 1
            out := out
            table := lzEnter out (len + 1 - d.next) d.next d.table
            next := len + ml }

/-- A literal token before the tail (R146); `none` is `FORMAT`. -/
def lzDecodeLiteral (b : Bytes) (clen : Nat) (d : LzDec) : Option LzDec :=
  if clen ≤ d.s then none
  else
    let out := d.out ++ [byteAt b d.s]
    let k := out.length - 2 - d.next
    some
      { s := d.s + 1
        cw := d.cw >>> 1
        out := out
        table := lzEnter out k d.next d.table
        next := d.next + k }

/-- The tail of `k` literals, in which control words are skipped (R146); `none` is `FORMAT`. -/
def lzDecodeTail (b : Bytes) (clen : Nat) : Nat → LzDec → Option Bytes
  | 0, d => some d.out
  | k + 1, d =>
    if d.cw = 1 ∧ clen < d.s + 4 then none
    else
      let s := if d.cw = 1 then d.s + 4 else d.s
      let cw := if d.cw = 1 then 0x80000000 else d.cw
      if clen ≤ s then none
      else lzDecodeTail b clen k { d with s := s + 1, cw := cw >>> 1, out := d.out ++ [byteAt b s] }

/-- The loop of the decoder (R146). Each round adds a byte or ends, so one more than the length to decode is fuel
enough. -/
def lzDecodeLoop (b : Bytes) (clen dlen : Nat) : Nat → LzDec → Option Bytes
  | 0, d => some d.out
  | fuel + 1, d =>
    if d.out.length = dlen then some d.out
    else
      match lzReadControl b clen d with
      | none => none
      | some d =>
        if d.cw.getLsbD 0 then
          match lzDecodeMatch b clen dlen d with
          | none => none
          | some d => lzDecodeLoop b clen dlen fuel d
        else if d.out.length + 11 ≤ dlen then
          match lzDecodeLiteral b clen d with
          | none => none
          | some d => lzDecodeLoop b clen dlen fuel d
        else lzDecodeTail b clen (dlen - d.out.length) d

/-- `LzDecode(B, hl, clen, dlen)` (R146, R147): the data, or the error it raises. -/
def lzDecode (b : Bytes) (f : LzFields) : Except ErrCode Bytes :=
  if (byteAt b 0).extractLsb' 2 2 ≠ 1#2 then .error .level
  else if f.clen < f.hl ∨ b.length < f.clen then .error .format
  else if !(byteAt b 0).getLsbD 0 then
    if f.clen ≠ f.hl + f.dlen then .error .format else .ok (slice b f.hl (f.hl + f.dlen))
  else
    match lzDecodeLoop b f.clen f.dlen (f.dlen + 1) { s := f.hl, cw := 1, out := [], table := [], next := 0 } with
    | none => .error .format
    | some out => .ok out

end Sys2Proof.Machine
end

