-- ==== Sys2Proof/Machine/State.lean ====
section
/-! DEFINITION. The state of the TTE (10_state.md), the outside world's events that a step serves, the reasons a step
can stop, and the state after a power-on reset (R361). -/

namespace Sys2Proof.Machine

/-- An entry of the key/nonce cache (R43). -/
structure KEntry where
  valid : Bool
  gen : BitVec 32
  key : Vector Byte 16
  nonce : Vector Byte 16
  deriving DecidableEq, Repr

/-- An outgoing sequence counter (R45). -/
structure TxCounter where
  id : BitVec 16
  gen : BitVec 32
  deriving DecidableEq, Repr

/-- A slot of a reorder queue: its `present` bit and its `value` (R47). -/
structure Slot where
  present : Bool
  value : Word
  deriving DecidableEq, Repr

/-- A reorder queue: the window start, its generation, and RQ_CAPACITY slots (R47). -/
structure RQueue where
  start : BitVec 16
  gen : BitVec 32
  slots : List Slot
  deriving DecidableEq, Repr

/-- The buffer memory `BUF` (R60): the bytes written since the last power-on, addresses strictly rising, and the
number of that power-on, which says what an address not listed reads as (`Memory.read`, log entry 2). -/
structure Memory where
  cells : List Host.Cell
  epoch : Nat
  deriving DecidableEq, Repr

/-- The width of a host access, 1, 2 or 4 bytes (R65, R66). -/
inductive Width where
  | byte
  | half
  | word
  deriving DecidableEq, Repr

/-- A host access at a platform address (R61, R62). -/
inductive Access where
  | read (w : Width) (addr : Nat)
  | write (w : Width) (addr : Nat) (data : Word)
  deriving DecidableEq, Repr

/-- What happens next, seen from outside (R70, R360, R380). -/
inductive Event where
  /-- The bus delivers a host access. While a command runs it is served before the command completes. -/
  | access (a : Access)
  /-- The running command completes before the next access is served; nothing happens when none runs. -/
  | engine
  /-- The platform asserts the power-on reset. -/
  | powerOn
  deriving DecidableEq, Repr

/-- The TTE's answer to a host access: the read data, or 0, and the bus error response (R65, R66). -/
structure BusResponse where
  data : Word
  error : Bool
  deriving DecidableEq, Repr

/-- The state of the TTE. The registers `ID`, `PARAM0` and `PARAM1` are constants of `cfg`, and `CTRL` and `STATUS`
are words made of the bits here (Machine/Flags.lean). -/
structure State where
  /-- The parameters of this TTE (R9); no step changes them. -/
  cfg : Config
  /-- `CTRL.IE` (R26). -/
  ie : Bool
  /-- `STATUS.BUSY` (R27). -/
  busy : Bool
  /-- `STATUS.DONE` (R27). -/
  done : Bool
  /-- `STATUS.OVERRUN` (R27). -/
  overrun : Bool
  /-- `STATUS.ERR` (R27, R331). -/
  err : ErrCode
  /-- `CMD_L` (R34). -/
  cmdL : Word
  /-- `ARG_L[0..7]` (R34). -/
  argL : Vector Word 8
  /-- `ARG[0..7]` (R32). -/
  arg : Vector Word 8
  /-- `RES[0..7]` (R32). -/
  res : Vector Word 8
  /-- `KEYED` (R40), mirrored in `STATUS.KEYED`. -/
  keyed : Bool
  /-- `IV_STRUCT` (R41). -/
  iv : Vector Byte 20
  /-- `FAKE_SIG` (R42). -/
  fakeSig : Vector Byte 8
  /-- `KCACHE[d][t]` (R43), entry `9 d + t`. -/
  kcache : Vector KEntry 18
  /-- `TXCTR[0..8]` (R45). -/
  txctr : Vector TxCounter 9
  /-- `RQ[0..RQ_COUNT-1]` (R47). -/
  rq : List RQueue
  /-- `BUF` (R60). -/
  buf : Memory
  /-- The model's own: the host wrote a byte inside a region of the running command (R70). -/
  hazard : Bool
  /-- The model's own: the largest size that the block of the running DECOMPRESS claimed, passing its checks, before a
  host write while it runs; 0 before the first (R362; log entry 7). -/
  claimed : Nat
  /-- The model's own: the number of draws so far, which selects the next free value. -/
  draws : Nat
  /-- The model's own: what happens next, oldest first. -/
  events : List Event
  /-- The model's own: the answer to the last host access, `none` before the first and after a power-on reset. -/
  bus : Option BusResponse
  deriving DecidableEq, Repr

/-- The reasons a step stops with a fault. No command raises one: "The TTE never stops" (R335). -/
inductive Fault where
  /-- Raised by `step` when the next event is a host access at an address in neither window (R61, R62): there is no
  such address on the TTE, so the bus delivers no such access to it. Safe: the model stops where the TTE sees
  nothing (log entry 14). -/
  | unmappedAddress
  deriving DecidableEq, Repr

/-- The reasons a step is refused. -/
inductive Refusal where
  /-- Raised by an arm of `exec` whose command has no meaning yet; every command has one, so nothing raises it. Safe:
  nothing is claimed of such a command. -/
  | notModelled (mnemonic : String)
  deriving DecidableEq, Repr

/-- A cache entry after a reset: not valid; the other fields are never observable (R361). DESIGN CHOICE, log entry 6
(safe). -/
def KEntry.invalid : KEntry :=
  { valid := false, gen := 0, key := Vector.replicate 16 0, nonce := Vector.replicate 16 0 }

/-- An empty reorder queue of `n` slots with its window at `start` of generation `gen` (R162, R361). -/
def RQueue.empty (n : Nat) (start : BitVec 16) (gen : BitVec 32) : RQueue :=
  { start, gen, slots := List.replicate n ⟨false, 0⟩ }

/-- The power-on values of R361 for the parameters `c`, after the first power-on. The last five fields are the model's
own, and their values DESIGN CHOICE, log entry 13 (safe). -/
def State.powerOn (c : Config) : State where
  cfg := c
  ie := false
  busy := false
  done := false
  overrun := false
  err := .ok
  cmdL := 0
  argL := Vector.replicate 8 0
  arg := Vector.replicate 8 0
  res := Vector.replicate 8 0
  keyed := false
  iv := Vector.replicate 20 0
  fakeSig := Vector.replicate 8 0
  kcache := Vector.replicate 18 KEntry.invalid
  txctr := Vector.replicate 9 ⟨0, 0⟩
  rq := List.replicate c.rqCount (RQueue.empty c.rqCapacity 0 0)
  buf := { cells := [], epoch := 0 }
  hazard := false
  claimed := 0
  draws := 0
  events := []
  bus := none

/-- The machine right after the power-on reset (R361), idle and unkeyed, with no event to come. -/
def State.reset : State := State.powerOn Config.params

end Sys2Proof.Machine
end

