-- ==== Sys2Proof/Machine/Flags.lean ====
section
/-! DEFINITION. The flags of the TTE (R29): the `STATUS` and `CTRL` words, the write-1-to-clear rule, the interrupt
output, and what issue and completion do to the flags (R28). -/

namespace Sys2Proof.Machine

/-- The number of an error code in `STATUS.ERR` (R331). -/
def errNumber : ErrCode → Nat
  | .ok => 0
  | .illegal => 1
  | .range => 2
  | .arg => 3
  | .auth => 4
  | .notKeyed => 5
  | .level => 6
  | .size => 7
  | .format => 8
  | .duplicate => 9
  | .overfull => 10
  | .overlap => 11

/-- A flag as bit `k` of a word. -/
def flagBit (b : Bool) (k : Nat) : Word := if b then 1#32 <<< k else 0

/-- The word that a read of `STATUS` returns (R27). -/
def statusWord (s : State) : Word :=
  flagBit s.busy 0 ||| flagBit s.done 1 ||| flagBit s.overrun 2 ||| flagBit s.keyed 3 |||
    (BitVec.ofNat 32 (errNumber s.err) <<< 8)

/-- The word that a read of `CTRL` returns: `SRST` and the reserved bits read 0 (R26). -/
def ctrlWord (s : State) : Word := flagBit s.ie 0

/-- A write to `STATUS`: a 1 clears DONE or OVERRUN, and every other bit is ignored (R27). -/
def writeStatus (v : Word) (s : State) : State :=
  { s with done := s.done && !v.getLsbD 1, overrun := s.overrun && !v.getLsbD 2 }

/-- The interrupt output, `IRQ = CTRL.IE AND STATUS.DONE` (R340). -/
def irq (s : State) : Bool := s.ie && s.done

/-- The flags at issue: BUSY set, DONE cleared, ERR and the others unchanged (R28, R120). -/
def issueFlags (s : State) : State := { s with busy := true, done := false }

/-- The flags at completion: BUSY cleared, DONE set and ERR written, in one step (R28, R121). -/
def completeFlags (e : ErrCode) (s : State) : State := { s with busy := false, done := true, err := e }

end Sys2Proof.Machine
end

