-- ==== Sys2Proof/Machine/Ops.lean ====
section
/-! DEFINITION. The named operations over memory and registers: one byte and byte strings of `BUF` (R63, R75), the
region check and the overlap test (R75, R76), issue (R120), completion (R121), raising an error (R330), the free
values, and the two resets (R361, R362). -/

namespace Sys2Proof.Machine

/-- The byte listed at an address. -/
def cellAt : List Host.Cell → Nat → Option Byte
  | [], _ => none
  | c :: cs, a => if c.1 = a then some c.2 else cellAt cs a

/-- The cells with a byte put at an address, addresses kept rising. -/
def cellSet : List Host.Cell → Nat → Byte → List Host.Cell
  | [], a, v => [(a, v)]
  | c :: cs, a, v =>
    if a < c.1 then (a, v) :: c :: cs else if a = c.1 then (a, v) :: cs else c :: cellSet cs a v

/-- The byte of `BUF` at an address. An address not written since the power-on reads as the free value of that
power-on (R77; log entry 2). -/
def Memory.read (m : Memory) (a : Nat) : Byte := (cellAt m.cells a).getD (Config.powerOnByte m.epoch a)

/-- `BUF[a] <- v`. -/
def Memory.write (m : Memory) (a : Nat) (v : Byte) : Memory := { m with cells := cellSet m.cells a v }

/-- The `n` bytes from address `a` on, first byte first (R63). The region check comes before (`inRange`). -/
def Memory.readBytes (m : Memory) (a n : Nat) : Bytes := (List.range' a n).map m.read

/-- Store a byte string from address `a` on (R63). The region check comes before (`inRange`). -/
def Memory.writeBytes (m : Memory) (a : Nat) : Bytes → Memory
  | [] => m
  | b :: bs => (m.write a b).writeBytes (a + 1) bs

/-- The canonical form: addresses strictly rising. An address not listed holds no byte that the list could repeat. -/
abbrev Memory.wf (m : Memory) : Prop := m.cells.Pairwise fun c d => c.1 < d.1

/-- A region of `BUF`: a start offset and a length (R75). -/
structure Region where
  start : Nat
  len : Nat
  deriving DecidableEq, Repr

/-- `InRange(a, n)` (R75), on numbers that do not wrap. -/
def inRange (c : Config) (r : Region) : Bool := decide (r.start + r.len ≤ c.bufSize)

/-- The regions overlap (R76). An empty region overlaps nothing. -/
def regionsOverlap (r q : Region) : Bool :=
  decide (0 < r.len) && decide (0 < q.len) && decide (r.start < q.start + q.len) &&
    decide (q.start < r.start + r.len)

/-- The address is inside the region. -/
def inRegion (r : Region) (a : Nat) : Bool := decide (r.start ≤ a) && decide (a < r.start + r.len)

/-- The part of a region that lies inside `BUF` (R362). -/
def clipRegion (c : Config) (r : Region) : Region := { r with len := min r.len (c.bufSize - r.start) }

/-- `MemRead` of a region that is in range (R75). -/
def readRegion (s : State) (r : Region) : Bytes := s.buf.readBytes r.start r.len

/-- `MemWrite` of a byte string at an offset, its region being in range (R75). -/
def storeBytes (a : Nat) (b : Bytes) (s : State) : State := { s with buf := s.buf.writeBytes a b }

/-- A number as a result word: reduced modulo 2^32 (R13). -/
def resWord (v : Nat) : Word := BitVec.ofNat 32 v

/-- The eight result registers from the results that a command names; the others are 0 (R32, R121). -/
def resultRegs (rs : List Word) : Vector Word 8 := Vector.ofFn fun i => rs.getD i.val 0

/-- Issue an accepted command word (R120): latch the word and the operands, clear DONE, set BUSY. No byte has been
written under the command yet. -/
def issue (w : Word) (s : State) : State :=
  issueFlags { s with cmdL := w, argL := s.arg, hazard := false, claimed := 0 }

/-- Completion with results: the only way a command ends (R121). -/
def completeWith (e : ErrCode) (regs : Vector Word 8) (s : State) : State :=
  completeFlags e { s with res := regs, hazard := false, claimed := 0 }

/-- Normal completion (R121). -/
def complete (rs : List Word) (s : State) : State := completeWith .ok (resultRegs rs) s

/-- `raise E` (R330): the TTE's one way of taking an exception. Every `RES[i]` is 0 and ERR holds the code; nothing
else of the state it is given changes. The TTE has no trap and so no return from one (R342, R343): the host's next
command runs normally. -/
def raise (e : ErrCode) (s : State) : State := completeWith e (resultRegs []) s

/-- Every byte of a region inside `BUF` holds any value: one draw (R332, R362). -/
def drawRegion (s : State) (r : Region) : State :=
  let q := clipRegion s.cfg r
  { s with
    buf := s.buf.writeBytes q.start ((List.range' q.start q.len).map (Config.freeByte s.draws))
    draws := s.draws + 1 }

/-- Every byte of every region holds any value (R362). -/
def drawRegions (rs : List Region) (s : State) : State := rs.foldl drawRegion s

/-- The power-on reset (R361): every piece of state to its power-on value, and every `BUF` byte drawn anew. -/
def powerOnReset (s : State) : State :=
  { State.powerOn s.cfg with
    buf := { cells := [], epoch := s.buf.epoch + 1 }
    draws := s.draws
    events := s.events }

/-- The soft reset (R362) of a state in which an aborted command's output regions are already drawn: every piece of
state but `BUF` to its power-on value. -/
def softResetRest (s : State) : State :=
  { State.powerOn s.cfg with buf := s.buf, draws := s.draws, events := s.events }

end Sys2Proof.Machine
end

