-- ==== Sys2Proof/Machine/Operands.lean ====
section
/-! DEFINITION. Operand assembly (R105): the latched `ARG` registers as numbers, regions and 64-bit offsets, the
16-bit id check, the queue and counter operands, and the fields of a frame header (R281, R282). -/

namespace Sys2Proof.Machine

/-- `ARG[i]` as latched at issue, an unsigned number (R12, R105). -/
def opnd (s : State) (i : Fin 8) : Nat := (s.argL.get i).toNat

/-- The region whose start and length are two operands (R60, R105). -/
def opndRegion (s : State) (i j : Fin 8) : Region := { start := opnd s i, len := opnd s j }

/-- The 64-bit offset in two operands, low word first (R105). -/
def opnd64 (s : State) (i j : Fin 8) : Nat := opnd s i + 2 ^ 32 * opnd s j

/-- A 16-bit sequence id operand is legal: 0 to 0xFFFF, never truncated (R105). -/
def idLegal (v : Nat) : Bool := decide (v ≤ 0xFFFF)

/-- A legal id operand as the 16-bit id. -/
def opndId (s : State) (i : Fin 8) : BitVec 16 := BitVec.ofNat 16 (opnd s i)

/-- A queue operand is legal: below RQ_COUNT (R102). -/
def queueLegal (s : State) (q : Nat) : Bool := decide (q < s.cfg.rqCount)

/-- A packet type operand is legal: 0 to 8 (R102). -/
def ptypeLegal (t : Nat) : Bool := decide (t ≤ 8)

/-- `RQ[q]`, for a legal queue (R47). -/
def queueOf (s : State) (q : Nat) : RQueue := s.rq.getD q (RQueue.empty 0 0 0)

/-- `RQ[q] <- v`. -/
def setQueue (q : Nat) (v : RQueue) (s : State) : State := { s with rq := s.rq.set q v }

/-- Slot `k` of a queue (R161). -/
def slotOf (v : RQueue) (k : Nat) : Slot := v.slots.getD k ⟨false, 0⟩

/-- `TXCTR[t]`, for a legal packet type (R45). -/
def counterOf (s : State) (t : Nat) : TxCounter := s.txctr[t]?.getD ⟨0, 0⟩

/-- `TXCTR[t] <- v`. -/
def setCounter (t : Nat) (v : TxCounter) (s : State) : State :=
  { s with txctr := s.txctr.setIfInBounds t v }

/-- The header length by direction (R281). -/
def headerLen : Dir → Nat
  | .c2s => 5
  | .s2c => 3

/-- `type_flags`, the last byte of the header (R281). -/
def headerType (dir : Dir) (hdr : Bytes) : Byte := byteAt hdr (headerLen dir - 1)

/-- `packet_id`, the first two bytes of the header, big-endian (R281). -/
def headerId (hdr : Bytes) : BitVec 16 := BitVec.ofNat 16 (uBE (hdr.take 2))

/-- The packet type in `type_flags` (R282). -/
def typeOf (tf : Byte) : Nat := (tf.extractLsb' 0 4).toNat

/-- The Unencrypted flag in `type_flags` (R282). -/
def unencrypted (tf : Byte) : Bool := tf.getLsbD 7

end Sys2Proof.Machine
end

