-- ==== Sys2Proof/Machine/Regions.lean ====
section
/-! DEFINITION. The regions that a running command reads and writes, and the three places where the spec gives
"any value" for them: a host read of an output region (R70), a host write into a region (R70), and an abort by a soft
reset (R362). -/

namespace Sys2Proof.Machine

/-- The checks that DECOMPRESS makes before `LzDecode` (R151), in their order: the block and its header fields, or
the error. -/
def decompressHead (s : State) : Except ErrCode (Bytes × LzFields) :=
  let src := opndRegion s 0 1
  if !inRange s.cfg src then .error .range
  else
    let b := readRegion s src
    match lzParse b with
    | none => .error .format
    | some f =>
      let dst : Region := { start := opnd s 2, len := f.dlen }
      if opnd s 3 ≤ f.dlen then .error .size
      else if !inRange s.cfg dst then .error .range
      else if regionsOverlap src dst then .error .overlap
      else .ok (b, f)

/-- The size that the block of a DECOMPRESS claims as it stands, if the command passes the checks of R151; otherwise
0. -/
def claimedSize (s : State) : Nat :=
  match decompressHead s with
  | .ok (_, f) => f.dlen
  | .error _ => 0

/-- The size that the block of the running command claims, 0 where that is no DECOMPRESS. -/
def runningClaim (s : State) : Nat :=
  if s.busy = true ∧ decode s.cmdL = .ok .decompress then claimedSize s else 0

/-- The output region of a running DECOMPRESS, `(ARG[2], dlen)` with the size that its block claims; an empty region is
none (R362). A command is atomic (R121), so it reads the block as it stands at one moment; where the host changed the
claimed size meanwhile, the region is that of the largest size claimed so far, which holds the others (DEDUCED, log
entry 7, unsafe in that case alone). -/
def decompressOutput (s : State) : List Region :=
  [{ start := opnd s 2, len := max s.claimed (claimedSize s) }]

/-- The output regions of a running command (R362), by its latched operands. -/
def outputRegions (i : Instr) (s : State) : List Region :=
  match i with
  | .nop => []
  | .hash .sha256 => [{ start := opnd s 2, len := 32 }]
  | .hash .sha1 => [{ start := opnd s 2, len := 20 }]
  | .powLevel => []
  | .powSearch _ => []
  | .compress _ => [opndRegion s 2 3]
  | .decompress => decompressOutput s
  | .lzCsize => []
  | .lzDsize => []
  | .rqInit _ => []
  | .rqSet _ => []
  | .rqDequeue _ => []
  | .rqIsSet _ => []
  | .rqGen _ => []
  | .rqStatus _ => []
  | .seqNext _ => []
  | .seqRead _ => []
  | .seqSet _ => []
  | .seqDiff => []
  | .seqResolve => []
  | .cryptoInit => []
  | .cryptoReset => []
  | .deriveKey _ _ => [{ start := opnd s 1, len := 32 }]
  | .encrypt dir =>
    [{ start := opnd s 0, len := 8 }, { start := opnd s 0 + 8 + headerLen dir, len := opnd s 1 }]
  | .decrypt dir =>
    if 8 + headerLen dir ≤ opnd s 1 then
      [{ start := opnd s 0 + 8 + headerLen dir, len := opnd s 1 - 8 - headerLen dir }]
    else []

/-- The regions that a command's rule reads, by its latched operands (R70; DEDUCED, log entry 15, safe). -/
def inputRegions (i : Instr) (s : State) : List Region :=
  match i with
  | .nop => []
  | .hash _ => [opndRegion s 0 1]
  | .powLevel => [opndRegion s 0 1]
  | .powSearch _ => [opndRegion s 0 1]
  | .compress _ => [opndRegion s 0 1]
  | .decompress => [opndRegion s 0 1]
  | .lzCsize => [opndRegion s 0 1]
  | .lzDsize => [opndRegion s 0 1]
  | .rqInit _ => []
  | .rqSet _ => []
  | .rqDequeue _ => []
  | .rqIsSet _ => []
  | .rqGen _ => []
  | .rqStatus _ => []
  | .seqNext _ => []
  | .seqRead _ => []
  | .seqSet _ => []
  | .seqDiff => []
  | .seqResolve => []
  | .cryptoInit => [opndRegion s 0 1, opndRegion s 2 3, opndRegion s 4 5]
  | .cryptoReset => []
  | .deriveKey _ _ => []
  | .encrypt dir => [{ start := opnd s 0 + 8, len := headerLen dir + opnd s 1 }]
  | .decrypt _ => [opndRegion s 0 1]

/-- The output regions of the command that runs, none where the latched word is illegal. -/
def runningOutput (s : State) : List Region :=
  match decode s.cmdL with
  | .ok i => outputRegions i s
  | .error _ => []

/-- The regions that the running command reads or writes (R70). -/
def runningRegions (s : State) : List Region :=
  match decode s.cmdL with
  | .ok i => inputRegions i s ++ outputRegions i s
  | .error _ => []

/-- The address is inside one of the regions. -/
def inRegions (rs : List Region) (a : Nat) : Bool := rs.any fun r => inRegion r a

/-- The crypto state after CRYPTO_INIT ran on bytes that the host wrote meanwhile (R70): it is either as before, or
keyed with any IV and any fake signature. DEDUCED, log entry 5 (safe). -/
def hazardCrypto (i : Instr) (s : State) : State :=
  match i with
  | .cryptoInit =>
    if Config.freeBool s.draws then
      { s with
        keyed := true
        iv := Vector.ofFn fun k => Config.freeByte (s.draws + 1) k.val
        fakeSig := Vector.ofFn fun k => Config.freeByte (s.draws + 2) k.val
        kcache := s.kcache.map fun e => { e with valid := false }
        draws := s.draws + 3 }
    else { s with draws := s.draws + 3 }
  | _ => s

/-- Completion of a command into whose regions the host wrote while it ran: every output, with `RES` and `ERR`, is
any value (R70). -/
def hazardComplete (i : Instr) (s : State) : State :=
  let t := hazardCrypto i (drawRegions (outputRegions i s) s)
  completeWith (Config.freeErr t.draws) (Vector.ofFn fun k => Config.freeWord t.draws k.val)
    { t with draws := t.draws + 1 }

/-- The end of a command that reads or writes `BUF`: as its rule says, unless the host wrote into its regions. -/
def finish (i : Instr) (s normal : State) : Host.Outcome State Fault Refusal :=
  .next (if s.hazard then hazardComplete i s else normal)

/-- The soft reset (R362): a running command is aborted, and its output regions hold any value. -/
def softReset (s : State) : State := softResetRest (if s.busy then drawRegions (runningOutput s) s else s)

end Sys2Proof.Machine
end

