-- ==== Sys2Proof/Machine/Sha.lean ====
section
/-! DEFINITION. SHA-256 and SHA-1 (44_hash.md, R200 to R212), and the leading-zero counts of the proof-of-work
(R240 to R245). -/

namespace Sys2Proof.Machine

/-- Padding of a message, for both algorithms (R201): `k` is the least value that brings the length with the `80`
byte and the 8 length bytes to a multiple of 64. -/
def shaPad (m : Bytes) : Bytes :=
  m ++ 0x80#8 :: zeroBytes ((119 - m.length % 64) % 64) ++ beBytes 8 (8 * m.length)

/-- The big-endian words of a byte string, `n` of them (R200). -/
def beWords : Nat → Bytes → List Word
  | 0, _ => []
  | n + 1, s => BitVec.ofNat 32 (uBE (s.take 4)) :: beWords n (s.drop 4)

/-- The digest string of a list of words (R205, R209). -/
def wordsToBytes (ws : List Word) : Bytes := ws.flatMap fun w => beBytes 4 w.toNat

/-- Fold a compression function over the 64-byte blocks of a padded message, `n` blocks (R201). -/
def shaBlocks (compressBlock : List Word → List Word → List Word) : Nat → Bytes → List Word → List Word
  | 0, _, h => h
  | n + 1, s, h => shaBlocks compressBlock n (s.drop 64) (compressBlock h (beWords 16 s))

/-- `Ch` (R202). -/
def shaCh (x y z : Word) : Word := (x &&& y) ^^^ (~~~x &&& z)

/-- `Maj` (R202). -/
def shaMaj (x y z : Word) : Word := (x &&& y) ^^^ (x &&& z) ^^^ (y &&& z)

/-- `ROTR^n` (R200). -/
def rotr (n : Nat) (x : Word) : Word := (x >>> n) ||| (x <<< (32 - n))

/-- `ROTL^n` (R207). -/
def rotl (n : Nat) (x : Word) : Word := (x <<< n) ||| (x >>> (32 - n))

/-- `Σ0` (R202). -/
def bigSigma0 (x : Word) : Word := rotr 2 x ^^^ rotr 13 x ^^^ rotr 22 x

/-- `Σ1` (R202). -/
def bigSigma1 (x : Word) : Word := rotr 6 x ^^^ rotr 11 x ^^^ rotr 25 x

/-- `σ0` (R202). -/
def smallSigma0 (x : Word) : Word := rotr 7 x ^^^ rotr 18 x ^^^ (x >>> 3)

/-- `σ1` (R202). -/
def smallSigma1 (x : Word) : Word := rotr 17 x ^^^ rotr 19 x ^^^ (x >>> 10)

/-- The words on a line of hexadecimal digits as the spec prints them, read as one number: `n` words, leftmost
first. -/
def lineWords (n line : Nat) : List Word := (List.range n).map fun j => BitVec.ofNat 32 (line >>> (32 * (n - 1 - j)))

/-- The eight lines of R203, `K[8 r]` to `K[8 r + 7]` on line `r`. -/
def sha256Lines : List Nat := [
  0x428a2f9871374491b5c0fbcfe9b5dba53956c25b59f111f1923f82a4ab1c5ed5,
  0xd807aa9812835b01243185be550c7dc372be5d7480deb1fe9bdc06a7c19bf174,
  0xe49b69c1efbe47860fc19dc6240ca1cc2de92c6f4a7484aa5cb0a9dc76f988da,
  0x983e5152a831c66db00327c8bf597fc7c6e00bf3d5a7914706ca635114292967,
  0x27b70a852e1b21384d2c6dfc53380d13650a7354766a0abb81c2c92e92722c85,
  0xa2bfe8a1a81a664bc24b8b70c76c51a3d192e819d6990624f40e3585106aa070,
  0x19a4c1161e376c082748774c34b0bcb5391c0cb34ed8aa4a5b9cca4f682e6ff3,
  0x748f82ee78a5636f84c878148cc7020890befffaa4506cebbef9a3f7c67178f2]

/-- The round constants `K[0..63]` of SHA-256 (R203). -/
def sha256K : List Word := sha256Lines.flatMap (lineWords 8)

/-- The initial hash value of SHA-256 (R204). -/
def sha256Init : List Word := lineWords 8 0x6a09e667bb67ae853c6ef372a54ff53a510e527f9b05688c1f83d9ab5be0cd19

/-- The word of a list at an index that it has. -/
def wordAt (ws : List Word) (i : Nat) : Word := ws.getD i 0

/-- `n` more words of the SHA-256 message schedule, newest first: entry `j` of the list is `W[t-1-j]` (R205). -/
def sha256Extend : Nat → List Word → List Word
  | 0, ws => ws
  | n + 1, ws =>
    sha256Extend n
      ((smallSigma1 (wordAt ws 1) + wordAt ws 6 + smallSigma0 (wordAt ws 14) + wordAt ws 15) :: ws)

/-- The message schedule `W[0..63]` of a block of 16 words (R205). -/
def sha256Schedule (block : List Word) : List Word := (sha256Extend 48 block.reverse).reverse

/-- The eight working variables of SHA-256 (R205). -/
structure Sha256Vars where
  a : Word
  b : Word
  c : Word
  d : Word
  e : Word
  f : Word
  g : Word
  h : Word

/-- One round of SHA-256, with its constant and its schedule word (R205). -/
def sha256Round (v : Sha256Vars) (kw : Word × Word) : Sha256Vars :=
  let t1 := v.h + bigSigma1 v.e + shaCh v.e v.f v.g + kw.1 + kw.2
  let t2 := bigSigma0 v.a + shaMaj v.a v.b v.c
  { a := t1 + t2, b := v.a, c := v.b, d := v.c, e := v.d + t1, f := v.e, g := v.f, h := v.g }

/-- The processing of one block of SHA-256 (R205). -/
def sha256Block (hs block : List Word) : List Word :=
  let v := (sha256K.zip (sha256Schedule block)).foldl sha256Round
    { a := wordAt hs 0, b := wordAt hs 1, c := wordAt hs 2, d := wordAt hs 3
      e := wordAt hs 4, f := wordAt hs 5, g := wordAt hs 6, h := wordAt hs 7 }
  [wordAt hs 0 + v.a, wordAt hs 1 + v.b, wordAt hs 2 + v.c, wordAt hs 3 + v.d,
   wordAt hs 4 + v.e, wordAt hs 5 + v.f, wordAt hs 6 + v.g, wordAt hs 7 + v.h]

/-- `SHA256(m)`, 32 bytes (R205). -/
def sha256 (m : Bytes) : Bytes :=
  let p := shaPad m
  wordsToBytes (shaBlocks sha256Block (p.length / 64) p sha256Init)

/-- The initial hash value of SHA-1 (R208). -/
def sha1Init : List Word := lineWords 5 0x67452301efcdab8998badcfe10325476c3d2e1f0

/-- `f_t` of SHA-1 (R207). -/
def sha1F (t : Nat) (b c d : Word) : Word :=
  if t < 20 then (b &&& c) ||| (~~~b &&& d)
  else if t < 40 then b ^^^ c ^^^ d
  else if t < 60 then (b &&& c) ||| (b &&& d) ||| (c &&& d)
  else b ^^^ c ^^^ d

/-- `K_t` of SHA-1 (R207). -/
def sha1K (t : Nat) : Word :=
  if t < 20 then 0x5a827999 else if t < 40 then 0x6ed9eba1 else if t < 60 then 0x8f1bbcdc else 0xca62c1d6

/-- `n` more words of the SHA-1 message schedule, newest first: entry `j` of the list is `W[t-1-j]` (R209). -/
def sha1Extend : Nat → List Word → List Word
  | 0, ws => ws
  | n + 1, ws =>
    sha1Extend n (rotl 1 (wordAt ws 2 ^^^ wordAt ws 7 ^^^ wordAt ws 13 ^^^ wordAt ws 15) :: ws)

/-- The message schedule `W[0..79]` of a block of 16 words (R209). -/
def sha1Schedule (block : List Word) : List Word := (sha1Extend 64 block.reverse).reverse

/-- The five working variables of SHA-1 (R209). -/
structure Sha1Vars where
  a : Word
  b : Word
  c : Word
  d : Word
  e : Word

/-- One round of SHA-1, with its number and its schedule word (R209). -/
def sha1Round (v : Sha1Vars) (tw : Nat × Word) : Sha1Vars :=
  { a := rotl 5 v.a + sha1F tw.1 v.b v.c v.d + v.e + sha1K tw.1 + tw.2
    b := v.a, c := rotl 30 v.b, d := v.c, e := v.d }

/-- The processing of one block of SHA-1 (R209). -/
def sha1Block (hs block : List Word) : List Word :=
  let v := ((List.range 80).zip (sha1Schedule block)).foldl sha1Round
    { a := wordAt hs 0, b := wordAt hs 1, c := wordAt hs 2, d := wordAt hs 3, e := wordAt hs 4 }
  [wordAt hs 0 + v.a, wordAt hs 1 + v.b, wordAt hs 2 + v.c, wordAt hs 3 + v.d, wordAt hs 4 + v.e]

/-- `SHA1(m)`, 20 bytes (R209). -/
def sha1 (m : Bytes) : Bytes :=
  let p := shaPad m
  wordsToBytes (shaBlocks sha1Block (p.length / 64) p sha1Init)

/-- The hash that an algorithm names (R103, R211). -/
def hashWith : HashAlg → Bytes → Bytes
  | .sha256, m => sha256 m
  | .sha1, m => sha1 m

/-- The digest length in bytes: 32 for SHA-256, 20 for SHA-1 (R211, R250). -/
def digestLen : HashAlg → Nat
  | .sha256 => 32
  | .sha1 => 20

/-- `AuxHash` of a configuration (R211). -/
def auxHash (c : Config) (m : Bytes) : Bytes := hashWith c.auxHash m

/-- The base-10 numeral of `x` in ASCII digits, most significant first; the first argument bounds the digits. -/
def decDigits : Nat → Nat → Bytes
  | 0, _ => []
  | n + 1, x =>
    if x < 10 then [BitVec.ofNat 8 (0x30 + x)] else decDigits n (x / 10) ++ [BitVec.ofNat 8 (0x30 + x % 10)]

/-- `Dec(x)` of a 64-bit offset, at most 20 digits (R240). -/
def decString (x : Nat) : Bytes := decDigits 20 x

/-- The bits of a byte in the order a leading-zero count scans them: bit 0 first (R242), or bit 7 first (R243). -/
def scanBits (o : LzbOrder) (b : Byte) : List Bool :=
  match o with
  | .lsbFirst => (List.range 8).map fun i => b.getLsbD i
  | .msbFirst => (List.range 8).map fun i => b.getLsbD (7 - i)

/-- `LZB(D)`: the zero bits before the first 1 bit, in the configured order (R242 to R244). -/
def lzb (o : LzbOrder) (d : Bytes) : Nat := ((d.flatMap (scanBits o)).takeWhile (fun bit => !bit)).length

/-- `Level(pk, x)`: the security level of an offset (R245). -/
def powLevelOf (c : Config) (pk : Bytes) (x : Nat) : Nat := lzb c.lzbOrder (auxHash c (pk ++ decString x))

/-- What POW_SEARCH returns (R252): the best offset, the next offset to try, the best level, and the status:
0 budget used up, 1 target reached, 2 offset space used up. -/
structure PowResult where
  valid : Nat
  last : Nat
  best : Nat
  status : Nat
  deriving DecidableEq, Repr

/-- The loop of POW_SEARCH over its budget (R252), for any level function. -/
def powLoop (level : Nat → Nat) (target : Nat) : Nat → Nat → Nat → Nat → Bool → PowResult
  | budget, valid, last, best, exhausted =>
    if target ≤ best then ⟨valid, last, best, 1⟩
    else
      match budget with
      | 0 => ⟨valid, last, best, 0⟩
      | budget + 1 =>
        if exhausted then ⟨valid, last, best, 2⟩
        else
          let cur := level last
          let better := decide (best < cur)
          let atEnd := decide (last = 2 ^ 64 - 1)
          powLoop level target budget (if better then last else valid) (if atEnd then last else last + 1)
            (if better then cur else best) atEnd

/-- The search of POW_SEARCH (R252): `last` is first raised to `valid`. -/
def powSearchFrom (level : Nat → Nat) (target valid last budget : Nat) : PowResult :=
  powLoop level target budget valid (max last valid) (level valid) false

end Sys2Proof.Machine
end

