-- ==== Sys2Proof/Machine/Aead.lean ====
section
/-! DEFINITION. Key derivation, the frame modes and the commands of unit AEAD (45_aead.md, R280 to R311). -/

namespace Sys2Proof.Machine

/-- The direction byte of the derivation (R285). -/
def dirByte : Dir → Byte
  | .c2s => 0x31
  | .s2c => 0x30

/-- `DeriveKN(dir, t, gen)` under an IV: the key and the nonce (R285). -/
def deriveKN (iv : Bytes) (dir : Dir) (t : Nat) (gen : BitVec 32) : Bytes × Bytes :=
  let d := sha256 (dirByte dir :: BitVec.ofNat 8 t :: (beBytes 4 gen.toNat ++ iv))
  (slice d 0 16, slice d 16 32)

/-- `PacketKey(key, pid)` (R286). -/
def packetKey (key : Bytes) (pid : BitVec 16) : Bytes :=
  (byteAt key 0 ^^^ pid.extractLsb' 8 8) :: (byteAt key 1 ^^^ pid.extractLsb' 0 8) :: slice key 2 16

/-- The place of `KCACHE[d][t]`, with d = 0 for C2S and 1 for S2C (R43). -/
def cacheIndex (dir : Dir) (t : Nat) : Nat :=
  match dir with
  | .c2s => t
  | .s2c => 9 + t

/-- `KCACHE[d][t]` (R43). -/
def cacheEntry (s : State) (dir : Dir) (t : Nat) : KEntry := s.kcache[cacheIndex dir t]?.getD KEntry.invalid

/-- Every valid bit cleared (R287). -/
def clearCache (s : State) : State := { s with kcache := s.kcache.map fun e => { e with valid := false } }

/-- A derivation through the cache (R287): an entry that is valid with the same generation is used, otherwise the
pair is computed and stored. R287 says "may" of both; DESIGN CHOICE, log entry 8 (safe: no result depends on it). -/
def deriveCached (dir : Dir) (t : Nat) (gen : BitVec 32) (s : State) : (Bytes × Bytes) × State :=
  let e := cacheEntry s dir t
  if e.valid ∧ e.gen = gen then ((e.key.toList, e.nonce.toList), s)
  else
    let kn := deriveKN s.iv.toList dir t gen
    (kn,
      { s with
        kcache := s.kcache.setIfInBounds (cacheIndex dir t)
          { valid := true, gen, key := fixedBytes 16 kn.1, nonce := fixedBytes 16 kn.2 } })

/-- `Norm32(X)` (R288). -/
def norm32 (x : Bytes) : Bytes :=
  if 32 ≤ x.length then slice x (x.length - 32) x.length else zeroBytes (32 - x.length) ++ x

/-- The IV struct of CRYPTO_INIT (R289). -/
def ivStruct (c : Config) (ab x : Bytes) : Bytes := xorBytes ab ((auxHash c (norm32 x)).take 20)

/-- The derived fake signature of an IV struct (R290). -/
def fakeSignature (c : Config) (iv : Bytes) : Bytes := (auxHash c iv).take 8

/-- The mode of a frame (R300). -/
inductive FrameMode where
  | badType
  | fake (tag : Bytes)
  | eax
  deriving DecidableEq, Repr

/-- The mode of a frame by its type byte (R300), first match wins. -/
def frameMode (s : State) (tf : Byte) : FrameMode :=
  if 8 < typeOf tf then .badType
  else if typeOf tf = 8 then .fake s.cfg.fixedSignature.toList
  else if unencrypted tf then .fake (if s.keyed then s.fakeSig.toList else s.cfg.fixedSignature.toList)
  else .eax

/-- `KeysFor(M, t, pid, gen)` (R301), with the state whose cache the derivation may have filled. -/
def keysFor (dir : Dir) (t : Nat) (pid : BitVec 16) (gen : BitVec 32) (s : State) : (Bytes × Bytes) × State :=
  if s.keyed then
    let (kn, s') := deriveCached dir t gen s
    ((packetKey kn.1 pid, kn.2), s')
  else ((s.cfg.dummyKey.toList, s.cfg.dummyNonce.toList), s)

/-- CRYPTO_INIT (R305). -/
def execCryptoInit (s : State) : Host.Outcome State Fault Refusal :=
  let alpha := opndRegion s 0 1
  let beta := opndRegion s 2 3
  let shared := opndRegion s 4 5
  finish .cryptoInit s
    (if !inRange s.cfg alpha then raise .range s
     else if !inRange s.cfg beta then raise .range s
     else if !inRange s.cfg shared then raise .range s
     else if alpha.len + beta.len ≠ 20 then raise .arg s
     else
       let iv := ivStruct s.cfg (readRegion s alpha ++ readRegion s beta) (readRegion s shared)
       complete []
         (clearCache
           { s with keyed := true, iv := fixedBytes 20 iv, fakeSig := fixedBytes 8 (fakeSignature s.cfg iv) }))

/-- CRYPTO_RESET (R306). -/
def execCryptoReset (s : State) : Host.Outcome State Fault Refusal :=
  .next
    (complete []
      (clearCache { s with keyed := false, iv := Vector.replicate 20 0, fakeSig := Vector.replicate 8 0 }))

/-- DERIVE (R307): the pair before the packet-id XOR. -/
def execDeriveKey (ptype : Nat) (dir : Dir) (s : State) : Host.Outcome State Fault Refusal :=
  let dst : Region := { start := opnd s 1, len := 32 }
  finish (.deriveKey ptype dir) s
    (if !ptypeLegal ptype then raise .arg s
     else if !inRange s.cfg dst then raise .range s
     else if !s.keyed then raise .notKeyed s
     else
       let (kn, s') := deriveCached dir ptype (s.argL.get 0) s
       complete [] (storeBytes dst.start (kn.1 ++ kn.2) s'))

/-- ENCRYPT (R310): the header is never written. -/
def execEncrypt (dir : Dir) (s : State) : Host.Outcome State Fault Refusal :=
  let hl := headerLen dir
  let f := opnd s 0
  let b := opnd s 1
  finish (.encrypt dir) s
    (if !inRange s.cfg { start := f, len := 8 + hl + b } then raise .range s
     else
       let hdr := s.buf.readBytes (f + 8) hl
       let p := s.buf.readBytes (f + 8 + hl) b
       let tf := headerType dir hdr
       match frameMode s tf with
       | .badType => raise .arg s
       | .fake tag => complete [resWord (8 + hl + b)] (storeBytes f tag s)
       | .eax =>
         let (kn, s') := keysFor dir (typeOf tf) (headerId hdr) (s.argL.get 2) s
         let (c, t) := eaxEnc kn.1 kn.2 hdr p
         complete [resWord (8 + hl + b)] (storeBytes (f + 8 + hl) c (storeBytes f t s')))

/-- The results of DECRYPT: the body length, `packet_id` and `type_flags` (R311). -/
def decryptResults (bodyLen : Nat) (hdr : Bytes) (tf : Byte) : List Word :=
  [resWord bodyLen, (headerId hdr).zeroExtend 32, tf.zeroExtend 32]

/-- DECRYPT (R311): nothing is written unless the tag verifies. -/
def execDecrypt (dir : Dir) (s : State) : Host.Outcome State Fault Refusal :=
  let hl := headerLen dir
  let f := opnd s 0
  let len := opnd s 1
  finish (.decrypt dir) s
    (if !inRange s.cfg { start := f, len := len } then raise .range s
     else if len < 8 + hl then raise .format s
     else
       let tag := s.buf.readBytes f 8
       let hdr := s.buf.readBytes (f + 8) hl
       let c := s.buf.readBytes (f + 8 + hl) (len - 8 - hl)
       let tf := headerType dir hdr
       match frameMode s tf with
       | .badType => raise .arg s
       | .fake expected =>
         if tag = expected then complete (decryptResults (len - 8 - hl) hdr tf) s else raise .auth s
       | .eax =>
         let (kn, s') := keysFor dir (typeOf tf) (headerId hdr) (s.argL.get 2) s
         match eaxDec kn.1 kn.2 hdr c tag with
         | none => raise .auth s'
         | some p => complete (decryptResults (len - 8 - hl) hdr tf) (storeBytes (f + 8 + hl) p s'))

end Sys2Proof.Machine
end

