-- ==== Sys2Proof/Machine/Codec.lean ====
section
/-! DEFINITION. The commands of unit LZC: COMPRESS, DECOMPRESS, LZ_CSIZE and LZ_DSIZE (R150 to R153). -/

namespace Sys2Proof.Machine

/-- COMPRESS (R150), with its checks in the order of R334. After the last `RANGE` the output region holds any value
(R332). -/
def execCompress (level : Nat) (s : State) : Host.Outcome State Fault Refusal :=
  let src := opndRegion s 0 1
  let dst := opndRegion s 2 3
  finish (.compress level) s
    (if level ≠ 1 then raise .level s
     else if !inRange s.cfg src then raise .range s
     else if !inRange s.cfg dst then raise .range s
     else if regionsOverlap src dst then raise .overlap s
     else
       let out := lzCompress (readRegion s src)
       if dst.len < out.length then raise .range (drawRegion s dst)
       else complete [resWord out.length] (storeBytes dst.start out s))

/-- DECOMPRESS (R151). After an error inside `LzDecode` the output region holds any value (R149, R332). -/
def execDecompress (s : State) : Host.Outcome State Fault Refusal :=
  finish .decompress s
    (match decompressHead s with
     | .error e => raise e s
     | .ok (b, f) =>
       match lzDecode b f with
       | .error e => raise e (drawRegion s { start := opnd s 2, len := f.dlen })
       | .ok d => complete [resWord f.dlen] (storeBytes (opnd s 2) d s))

/-- The header fields that LZ_CSIZE and LZ_DSIZE read, or the error (R152, R153). -/
def headerFields (s : State) : Except ErrCode LzFields :=
  let src := opndRegion s 0 1
  if !inRange s.cfg src then .error .range
  else
    match lzParse (readRegion s src) with
    | none => .error .format
    | some f => .ok f

/-- LZ_CSIZE (R152). -/
def execLzCsize (s : State) : Host.Outcome State Fault Refusal :=
  finish .lzCsize s
    (match headerFields s with
     | .error e => raise e s
     | .ok f => complete [resWord f.clen, resWord f.hl] s)

/-- LZ_DSIZE (R153). -/
def execLzDsize (s : State) : Host.Outcome State Fault Refusal :=
  finish .lzDsize s
    (match headerFields s with
     | .error e => raise e s
     | .ok f => complete [resWord f.dlen, resWord f.hl] s)

end Sys2Proof.Machine
end

