-- ==== Sys2Proof/Machine/Control.lean ====
section
/-! DEFINITION. NOP (R123), and the completion of a word that is no command (R107). -/

namespace Sys2Proof.Machine

/-- NOP (R123): a completion with no effect. -/
def execNop (s : State) : Host.Outcome State Fault Refusal := .next (complete [] s)

/-- The completion of a word that does not decode: `ILLEGAL`, and no other state changes (R107). -/
def completeIllegal (s : State) : Host.Outcome State Fault Refusal := .next (raise .illegal s)

end Sys2Proof.Machine
end

