-- ==== Sys2Proof/Machine/Hashing.lean ====
section
/-! DEFINITION. The commands of unit HASH: HASH, POW_LEVEL and POW_SEARCH (R250 to R252). -/

namespace Sys2Proof.Machine

/-- HASH (R250). The input is read before the digest is written, so the regions may overlap. -/
def execHash (alg : HashAlg) (s : State) : Host.Outcome State Fault Refusal :=
  let src := opndRegion s 0 1
  let dst : Region := { start := opnd s 2, len := digestLen alg }
  finish (.hash alg) s
    (if !inRange s.cfg src then raise .range s
     else if !inRange s.cfg dst then raise .range s
     else complete [resWord (digestLen alg)] (storeBytes dst.start (hashWith alg (readRegion s src)) s))

/-- POW_LEVEL (R251). -/
def execPowLevel (s : State) : Host.Outcome State Fault Refusal :=
  let pk := opndRegion s 0 1
  finish .powLevel s
    (if !inRange s.cfg pk then raise .range s
     else complete [resWord (powLevelOf s.cfg (readRegion s pk) (opnd64 s 2 3))] s)

/-- The result registers of POW_SEARCH (R252). -/
def powResults (r : PowResult) : List Word :=
  [resWord r.valid, resWord (r.valid / 2 ^ 32), resWord r.last, resWord (r.last / 2 ^ 32), resWord r.best,
   resWord r.status]

/-- POW_SEARCH (R252). -/
def execPowSearch (target : Nat) (s : State) : Host.Outcome State Fault Refusal :=
  let pk := opndRegion s 0 1
  finish (.powSearch target) s
    (if !inRange s.cfg pk then raise .range s
     else
       complete
         (powResults (powSearchFrom (powLevelOf s.cfg (readRegion s pk)) target (opnd64 s 2 3) (opnd64 s 4 5)
           (opnd s 6))) s)

end Sys2Proof.Machine
end

