-- ==== Sys2Proof/Machine/Sequence.lean ====
section
/-! DEFINITION. The arithmetic laws and the commands of unit SEQ (43_seq.md). -/

namespace Sys2Proof.Machine

/-- The generation counter's wrap: `gen + 1` when the id has just become 0 (R164, R183). -/
def bumpGen (id : BitVec 16) (gen : BitVec 32) : BitVec 32 := if id = 0 then gen + 1 else gen

/-- `Resolve(r, g, i)` (R182). -/
def resolveGen (r : BitVec 16) (g : BitVec 32) (i : BitVec 16) : BitVec 32 :=
  if (i - r).toNat < 0x8000 then (if i.toNat < r.toNat then g + 1 else g)
  else (if r.toNat < i.toNat then g - 1 else g)

/-- The relation of `b` to `a` by the half-range rule (R181, R186): 0 equal, 1 after, 2 before. -/
def seqRelation (d : BitVec 16) : Nat := if d = 0 then 0 else if d.toNat < 0x8000 then 1 else 2

/-- The counter after its pair is taken (R183). -/
def nextCounter (c : TxCounter) : TxCounter := { id := c.id + 1, gen := bumpGen (c.id + 1) c.gen }

/-- A counter as the two results of SEQ_NEXT and SEQ_READ (R183, R184). -/
def counterResults (c : TxCounter) : List Word := [c.id.zeroExtend 32, c.gen]

/-- SEQ_NEXT (R183): the results are the pair before the increment. -/
def execSeqNext (ptype : Nat) (s : State) : Host.Outcome State Fault Refusal :=
  .next
    (if !ptypeLegal ptype then raise .arg s
     else
       let c := counterOf s ptype
       complete (counterResults c) (setCounter ptype (nextCounter c) s))

/-- SEQ_READ (R184). -/
def execSeqRead (ptype : Nat) (s : State) : Host.Outcome State Fault Refusal :=
  .next (if !ptypeLegal ptype then raise .arg s else complete (counterResults (counterOf s ptype)) s)

/-- SEQ_SET (R185). -/
def execSeqSet (ptype : Nat) (s : State) : Host.Outcome State Fault Refusal :=
  .next
    (if !ptypeLegal ptype then raise .arg s
     else if !idLegal (opnd s 0) then raise .arg s
     else complete [] (setCounter ptype { id := opndId s 0, gen := s.argL.get 1 } s))

/-- SEQ_DIFF (R186). -/
def execSeqDiff (s : State) : Host.Outcome State Fault Refusal :=
  .next
    (if !idLegal (opnd s 0) || !idLegal (opnd s 1) then raise .arg s
     else
       let d := opndId s 1 - opndId s 0
       complete [d.zeroExtend 32, d.signExtend 32, resWord (seqRelation d)] s)

/-- SEQ_RESOLVE (R187). -/
def execSeqResolve (s : State) : Host.Outcome State Fault Refusal :=
  .next
    (if !idLegal (opnd s 0) || !idLegal (opnd s 2) then raise .arg s
     else complete [resolveGen (opndId s 0) (s.argL.get 1) (opndId s 2)] s)

end Sys2Proof.Machine
end

