-- ==== Sys2Proof/Machine/Reorder.lean ====
section
/-! DEFINITION. The window classification and the commands of unit RQ (42_reorder.md). -/

namespace Sys2Proof.Machine

/-- The classes of an id relative to a window (R160). -/
inductive WindowClass where
  | inside
  | below
  | above
  deriving DecidableEq, Repr

/-- The class of an id for a window of `n` ids from `start` on (R160). -/
def classOf (n : Nat) (start id : BitVec 16) : WindowClass :=
  let d := (id - start).toNat
  if d < n then .inside else if 0x8000 ≤ d then .below else .above

/-- The slot of an id, `id mod N` (R161). -/
def slotIndex (n : Nat) (id : BitVec 16) : Nat := id.toNat % n

/-- Put a slot into a queue (R161). -/
def setSlot (k : Nat) (v : Slot) (q : RQueue) : RQueue := { q with slots := q.slots.set k v }

/-- The number of ids buffered in a queue (R167). -/
def presentCount (q : RQueue) : Nat := q.slots.countP (·.present)

/-- The queue after its start has been released (R164): the slot cleared and the window moved on by one. -/
def dequeued (n : Nat) (q : RQueue) : RQueue :=
  { setSlot (slotIndex n q.start) ⟨false, 0⟩ q with start := q.start + 1, gen := bumpGen (q.start + 1) q.gen }

/-- RQ_INIT (R162). -/
def execRqInit (queue : Nat) (s : State) : Host.Outcome State Fault Refusal :=
  .next
    (if !queueLegal s queue then raise .arg s
     else if !idLegal (opnd s 0) then raise .arg s
     else complete [] (setQueue queue (RQueue.empty s.cfg.rqCapacity (opndId s 0) (s.argL.get 1)) s))

/-- RQ_SET (R163). -/
def execRqSet (queue : Nat) (s : State) : Host.Outcome State Fault Refusal :=
  .next
    (if !queueLegal s queue then raise .arg s
     else if !idLegal (opnd s 0) then raise .arg s
     else
       let q := queueOf s queue
       let k := slotIndex s.cfg.rqCapacity (opndId s 0)
       match classOf s.cfg.rqCapacity q.start (opndId s 0) with
       | .below => raise .duplicate s
       | .above => raise .overfull s
       | .inside =>
         if (slotOf q k).present then raise .duplicate s
         else complete [] (setQueue queue (setSlot k ⟨true, s.argL.get 1⟩ q) s))

/-- RQ_DEQUEUE (R164): an empty queue is no error. -/
def execRqDequeue (queue : Nat) (s : State) : Host.Outcome State Fault Refusal :=
  .next
    (if !queueLegal s queue then raise .arg s
     else
       let q := queueOf s queue
       let slot := slotOf q (slotIndex s.cfg.rqCapacity q.start)
       if slot.present then
         complete [1, slot.value, q.start.zeroExtend 32, q.gen] (setQueue queue (dequeued s.cfg.rqCapacity q) s)
       else complete [0, 0, q.start.zeroExtend 32, q.gen] s)

/-- The results of RQ_IS_SET for an id of a class, its slot's `present` bit given (R165). -/
def isSetResults (c : WindowClass) (present : Bool) : List Word :=
  match c with
  | .below => [2, 1]
  | .above => [0, 0]
  | .inside => [flagBit present 0, flagBit present 0]

/-- RQ_IS_SET (R165). -/
def execRqIsSet (queue : Nat) (s : State) : Host.Outcome State Fault Refusal :=
  .next
    (if !queueLegal s queue then raise .arg s
     else if !idLegal (opnd s 0) then raise .arg s
     else
       let q := queueOf s queue
       complete
         (isSetResults (classOf s.cfg.rqCapacity q.start (opndId s 0))
           (slotOf q (slotIndex s.cfg.rqCapacity (opndId s 0))).present) s)

/-- RQ_GEN (R166). -/
def execRqGen (queue : Nat) (s : State) : Host.Outcome State Fault Refusal :=
  .next
    (if !queueLegal s queue then raise .arg s
     else if !idLegal (opnd s 0) then raise .arg s
     else
       let q := queueOf s queue
       complete [resolveGen q.start q.gen (opndId s 0)] s)

/-- RQ_STATUS (R167). -/
def execRqStatus (queue : Nat) (s : State) : Host.Outcome State Fault Refusal :=
  .next
    (if !queueLegal s queue then raise .arg s
     else
       let q := queueOf s queue
       complete [q.start.zeroExtend 32, q.gen, resWord (presentCount q)] s)

end Sys2Proof.Machine
end

