-- ==== Sys2Proof/Machine/Dispatch.lean ====
section
/-! DEFINITION. The dispatch of a decoded command to its meaning (R108): one arm per constructor of Instr. -/

namespace Sys2Proof.Machine

/-- The effect of a command from its operands' latching to its completion (R121). -/
def exec (i : Instr) (s : State) : Host.Outcome State Fault Refusal :=
  match i with
  | .nop => Sys2Proof.Machine.execNop s
  | .hash alg => Sys2Proof.Machine.execHash alg s
  | .powLevel => Sys2Proof.Machine.execPowLevel s
  | .powSearch target => Sys2Proof.Machine.execPowSearch target s
  | .compress level => Sys2Proof.Machine.execCompress level s
  | .decompress => Sys2Proof.Machine.execDecompress s
  | .lzCsize => Sys2Proof.Machine.execLzCsize s
  | .lzDsize => Sys2Proof.Machine.execLzDsize s
  | .rqInit queue => Sys2Proof.Machine.execRqInit queue s
  | .rqSet queue => Sys2Proof.Machine.execRqSet queue s
  | .rqDequeue queue => Sys2Proof.Machine.execRqDequeue queue s
  | .rqIsSet queue => Sys2Proof.Machine.execRqIsSet queue s
  | .rqGen queue => Sys2Proof.Machine.execRqGen queue s
  | .rqStatus queue => Sys2Proof.Machine.execRqStatus queue s
  | .seqNext ptype => Sys2Proof.Machine.execSeqNext ptype s
  | .seqRead ptype => Sys2Proof.Machine.execSeqRead ptype s
  | .seqSet ptype => Sys2Proof.Machine.execSeqSet ptype s
  | .seqDiff => Sys2Proof.Machine.execSeqDiff s
  | .seqResolve => Sys2Proof.Machine.execSeqResolve s
  | .cryptoInit => Sys2Proof.Machine.execCryptoInit s
  | .cryptoReset => Sys2Proof.Machine.execCryptoReset s
  | .deriveKey ptype dir => Sys2Proof.Machine.execDeriveKey ptype dir s
  | .encrypt dir => Sys2Proof.Machine.execEncrypt dir s
  | .decrypt dir => Sys2Proof.Machine.execDecrypt dir s

end Sys2Proof.Machine
end

