-- ==== Sys2Proof/Machine/HostPort.lean ====
section
/-! DEFINITION. The host port: the two windows (R61, R62), the access rules (R65, R66), and every register's read and
write (R23 to R33). -/

namespace Sys2Proof.Machine

/-- The number of bytes of an access (R65). -/
def widthBytes : Width → Nat
  | .byte => 1
  | .half => 2
  | .word => 4

/-- `PARAM0` (R24). -/
def param0 (c : Config) : Word :=
  BitVec.ofNat 32 (c.rqCapacity % 65536) ||| (BitVec.ofNat 32 c.rqCount <<< 16) |||
    flagBit (decide (c.auxHash = .sha1)) 20 ||| flagBit (decide (c.lzbOrder = .msbFirst)) 21

/-- A register of the window, or a reserved offset (Table 10-1). -/
inductive Reg where
  | id
  | param0
  | param1
  | ctrl
  | status
  | cmd
  | arg (i : Fin 8)
  | res (i : Fin 8)
  | reserved
  deriving DecidableEq, Repr

/-- The register at an offset that is a multiple of 4 (Table 10-1). -/
def regAt (off : Nat) : Reg :=
  if off = 0x000 then .id
  else if off = 0x004 then .param0
  else if off = 0x008 then .param1
  else if off = 0x00C then .ctrl
  else if off = 0x010 then .status
  else if off = 0x014 then .cmd
  else if 0x020 ≤ off ∧ off < 0x040 then .arg (Fin.ofNat 8 ((off - 0x020) / 4))
  else if 0x040 ≤ off ∧ off < 0x060 then .res (Fin.ofNat 8 ((off - 0x040) / 4))
  else .reserved

/-- The answer to an access that is served (R66). -/
def respond (data : Word) (s : State) : State := { s with bus := some { data, error := false } }

/-- The bus error response: no effect, and read data 0 (R66). -/
def busError (s : State) : State := { s with bus := some { data := 0, error := true } }

/-- A read of a register (R23 to R33). `RES[i]` while a command runs is a draw, a new one at each read (R30; log entry
18). -/
def readReg (r : Reg) (s : State) : State :=
  match r with
  | .id => respond 0x54544531 s
  | .param0 => respond (param0 s.cfg) s
  | .param1 => respond (BitVec.ofNat 32 s.cfg.bufSize) s
  | .ctrl => respond (ctrlWord s) s
  | .status => respond (statusWord s) s
  | .cmd => respond 0 s
  | .arg i => respond (s.arg.get i) s
  | .res i =>
    if s.busy then respond (Config.freeWord s.draws i.val) { s with draws := s.draws + 1 }
    else respond (s.res.get i) s
  | .reserved => respond 0 s

/-- A write of `CTRL`: with SRST set the soft reset, the written IE bit ignored; otherwise IE is written (R26,
R362). -/
def writeCtrl (v : Word) (s : State) : State :=
  if v.getLsbD 1 then softReset s else { s with ie := v.getLsbD 0 }

/-- A write of `CMD`: issue where it is accepted (R120), otherwise dropped with OVERRUN set (R122). -/
def writeCmd (v : Word) (s : State) : State := if s.busy then { s with overrun := true } else issue v s

/-- A write of a register (R23 to R33). A write to a read-only register or a reserved offset is ignored. -/
def writeReg (r : Reg) (v : Word) (s : State) : State :=
  match r with
  | .id => s
  | .param0 => s
  | .param1 => s
  | .ctrl => writeCtrl v s
  | .status => writeStatus v s
  | .cmd => writeCmd v s
  | .arg i => { s with arg := s.arg.set i.val v i.isLt }
  | .res _ => s
  | .reserved => s

/-- The access is legal in the register window: 32 bits, at a multiple of 4 (R66). -/
def regAccessLegal (w : Width) (off : Nat) : Bool := decide (w = .word) && decide (off % 4 = 0)

/-- The access is legal in the buffer window: naturally aligned (R66), with every byte inside `BUF` (R62; DEDUCED for
an access that starts inside and ends outside, log entry 9, unsafe). -/
def bufAccessLegal (c : Config) (w : Width) (off : Nat) : Bool :=
  decide (off % widthBytes w = 0) && decide (off + widthBytes w ≤ c.bufSize)

/-- The byte that a host read of `BUF` returns: the stored one, or while a command runs any value inside a region
that it writes (R70). -/
def hostByte (s : State) (a : Nat) : Byte :=
  if s.busy && inRegions (runningOutput s) a then Config.freeByte s.draws a else s.buf.read a

/-- A host read of `BUF`, little-endian, the bits above the access 0 (R65; log entry 10). -/
def readBuf (w : Width) (off : Nat) (s : State) : State :=
  let data := resWord (uLE ((List.range' off (widthBytes w)).map (hostByte s)))
  respond data (if s.busy then { s with draws := s.draws + 1 } else s)

/-- A host write of `BUF`, little-endian (R65). While a command runs, a byte inside a region that it reads or writes
is a hazard (R70), and the size that a running DECOMPRESS's block claims before the write is kept (log entry 7). -/
def writeBuf (w : Width) (off : Nat) (v : Word) (s : State) : State :=
  let hit := s.busy && (List.range' off (widthBytes w)).any (inRegions (runningRegions s))
  storeBytes off (leBytes (widthBytes w) v.toNat)
    { s with hazard := s.hazard || hit, claimed := max s.claimed (runningClaim s) }

/-- An access to the register window at an offset (R66). -/
def serveReg (a : Access) (off : Nat) (s : State) : State :=
  match a with
  | .read w _ => if regAccessLegal w off then readReg (regAt off) s else busError s
  | .write w _ v => if regAccessLegal w off then respond 0 (writeReg (regAt off) v s) else busError s

/-- An access to the buffer window at an offset (R62, R66). -/
def serveBuf (a : Access) (off : Nat) (s : State) : State :=
  match a with
  | .read w _ => if bufAccessLegal s.cfg w off then readBuf w off s else busError s
  | .write w _ v => if bufAccessLegal s.cfg w off then respond 0 (writeBuf w off v s) else busError s

/-- The platform address of an access. -/
def accessAddr : Access → Nat
  | .read _ addr => addr
  | .write _ addr _ => addr

/-- The address is in the register window (R61). -/
def inRegWindow (c : Config) (a : Nat) : Bool := decide (c.regBase ≤ a) && decide (a < c.regBase + regWindowSize)

/-- The address is in the buffer window, rounded up to a power of two (R62). -/
def inBufWindow (c : Config) (a : Nat) : Bool :=
  decide (c.bufBase ≤ a) && decide (a < c.bufBase + c.bufWindowSize)

/-- Serve a host access (R61, R62). -/
def serveAccess (a : Access) (s : State) : Host.Outcome State Fault Refusal :=
  if inRegWindow s.cfg (accessAddr a) then .next (serveReg a (accessAddr a - s.cfg.regBase) s)
  else if inBufWindow s.cfg (accessAddr a) then .next (serveBuf a (accessAddr a - s.cfg.bufBase) s)
  else .fault .unmappedAddress

end Sys2Proof.Machine
end

