-- ==== Sys2Proof/Machine/Step.lean ====
section
/-! DEFINITION. One step of the TTE: the next event is served, or the running command completes (R70, R121). -/

namespace Sys2Proof.Machine

/-- The running command completes (R121): the latched word is decoded (R108) and executed. -/
def engineStep (s : State) : Host.Outcome State Fault Refusal :=
  match decode s.cmdL with
  | .ok i => exec i s
  | .error _ => completeIllegal s

/-- One step. The events come in the order of the bus (R70). A command whose completion no event asks for completes
when there is no event left, so that it always completes (R121, R380; DESIGN CHOICE, log entry 11, unsafe). The whole
effect of a command is in that step (R121; log entry 12). An idle TTE with no event stays as it is (R355). -/
def step (s : State) : Host.Outcome State Fault Refusal :=
  match s.events with
  | [] => if s.busy then engineStep s else .next s
  | .engine :: rest =>
    if s.busy then engineStep { s with events := rest } else .next { s with events := rest }
  | .access a :: rest => serveAccess a { s with events := rest }
  | .powerOn :: rest => .next (powerOnReset { s with events := rest })

/-- The state with a command word issued (R120) and no event to come, so that the next step runs it. The bits of the
word at or above `nbits` are 0. The TTE has no program: this stands for the host's write of `CMD` (log entry 11). -/
def State.withFetchWord (s : State) (nbits w : Nat) : State :=
  issue (BitVec.ofNat 32 (w % 2 ^ nbits)) { s with events := [] }

end Sys2Proof.Machine
end

