-- ==== Sys2Proof/Safety.lean ====
section
/-! DEFINITION. The terms in which statements speak of the machine: how a command completes, what it leaves
unchanged, the shape that every state of a run has (`State.Inv`), and which runs the bus can deliver. -/

namespace Sys2Proof.Machine

/-- A result register list read out: result `i`, 0 where the list names none (R32). -/
def resultAt (rs : List Word) (i : Fin 8) : Word := rs.getD i.val 0

/-- The command is complete with this error code and these results; every result not named is 0 (R121). -/
def CompletedWith (e : ErrCode) (rs : List Word) (t : State) : Prop :=
  t.err = e ∧ t.busy = false ∧ t.done = true ∧ ∀ i : Fin 8, t.res.get i = resultAt rs i

/-- The parameters, the host's registers and flags, the command latch and the bus are as before. -/
def SameHostSide (s t : State) : Prop :=
  t.cfg = s.cfg ∧ t.ie = s.ie ∧ t.overrun = s.overrun ∧ t.cmdL = s.cmdL ∧ t.argL = s.argL ∧ t.arg = s.arg ∧
    t.events = s.events ∧ t.bus = s.bus

/-- `KEYED`, `IV_STRUCT` and `FAKE_SIG` are as before. -/
def SameCrypto (s t : State) : Prop := t.keyed = s.keyed ∧ t.iv = s.iv ∧ t.fakeSig = s.fakeSig

/-- Every byte of `BUF` reads as before. -/
def SameBuf (s t : State) : Prop := ∀ a, t.buf.read a = s.buf.read a

/-- Every byte of `BUF` outside the regions reads as before. -/
def SameBufOutside (rs : List Region) (s t : State) : Prop :=
  ∀ a, inRegions rs a = false → t.buf.read a = s.buf.read a

/-- The unit state that R330 names is as before: crypto state, counters and queues. -/
def SameUnits (s t : State) : Prop := SameCrypto s t ∧ t.txctr = s.txctr ∧ t.rq = s.rq

/-- An error's completion: `RES` is 0 and the unit state is as before (R330). -/
def RaisedWith (e : ErrCode) (s t : State) : Prop := CompletedWith e [] t ∧ SameHostSide s t ∧ SameUnits s t

/-- There are RQ_COUNT queues of RQ_CAPACITY slots, and a slot that is not present holds the value 0 (R47, R162,
R164). -/
def QueueShape (s : State) : Prop :=
  s.rq.length = s.cfg.rqCount ∧
    ∀ q ∈ s.rq, q.slots.length = s.cfg.rqCapacity ∧ ∀ v ∈ q.slots, v.present = false → v.value = 0

/-- Every valid cache entry holds what a fresh derivation gives for the current IV (R43, R287). -/
def CacheCoherent (s : State) : Prop :=
  ∀ (dir : Dir) (t : Nat), t ≤ 8 → (cacheEntry s dir t).valid = true →
    ((cacheEntry s dir t).key.toList, (cacheEntry s dir t).nonce.toList) =
      deriveKN s.iv.toList dir t (cacheEntry s dir t).gen

/-- In the unkeyed phase no session secret is left: IV, fake signature and cache are cleared (R41, R42, R306,
R362). -/
def UnkeyedClear (s : State) : Prop :=
  s.keyed = false →
    s.iv = Vector.replicate 20 0 ∧ s.fakeSig = Vector.replicate 8 0 ∧ ∀ e ∈ s.kcache.toList, e.valid = false

/-- Memory is in its canonical form and lists only addresses of `BUF` (R60). -/
def BufShape (s : State) : Prop := s.buf.wf ∧ ∀ c ∈ s.buf.cells, c.1 < s.cfg.bufSize

/-- DONE is 0 while a command runs (R28), and only a running command has a hazard (R70) and an earlier claimed size. -/
def FlagShape (s : State) : Prop :=
  (s.busy = true → s.done = false) ∧ (s.hazard = true → s.busy = true) ∧ (s.busy = false → s.claimed = 0)

/-- The shape of every state of a run. -/
def State.Inv (s : State) : Prop :=
  s.cfg.legal ∧ QueueShape s ∧ CacheCoherent s ∧ UnkeyedClear s ∧ BufShape s ∧ FlagShape s

/-- The bus delivers an access to the TTE only at an address in one of its windows (R61, R62). -/
def eventMapped (c : Config) : Event → Bool
  | .access a => inRegWindow c (accessAddr a) || inBufWindow c (accessAddr a)
  | .engine => true
  | .powerOn => true

/-- Every event to come is one that the TTE sees. -/
def EventsMapped (s : State) : Prop := ∀ e ∈ s.events, eventMapped s.cfg e = true

/-- The power-on values of R361 that a soft reset sets too (R362): everything but `BUF`. -/
def ResetValues (t : State) : Prop :=
  ctrlWord t = 0 ∧ statusWord t = 0 ∧ irq t = false ∧
    (∀ i : Fin 8, t.arg.get i = 0 ∧ t.res.get i = 0 ∧ t.argL.get i = 0) ∧ t.cmdL = 0 ∧
    t.keyed = false ∧ (∀ b ∈ t.iv.toList, b = 0) ∧ (∀ b ∈ t.fakeSig.toList, b = 0) ∧
    (∀ e ∈ t.kcache.toList, e.valid = false) ∧ (∀ c ∈ t.txctr.toList, c.id = 0 ∧ c.gen = 0) ∧
    t.rq.length = t.cfg.rqCount ∧
    ∀ q ∈ t.rq, q.start = 0 ∧ q.gen = 0 ∧ q.slots.length = t.cfg.rqCapacity ∧
      ∀ v ∈ q.slots, v.present = false ∧ v.value = 0

end Sys2Proof.Machine
end

