-- ==== Sys2Proof/Certificates/Slice0/Obligations.lean ====
section
/-! DEFINITION. The statements about the TTE for the provers. Each docstring names the rule it rests on. In every
statement a command's operands are the latched `ARG` registers of the state that it runs in (R34). -/

open Sys2Proof Sys2Proof.Machine

/-- The rows of Table 30-1 as the spec's match and mask (R101, R108; 95_test_vectors.md V1.1). -/
def Sys2Proof.Claims.commandRows : List (Word × Word) := [
  (0x00, 0xFFFFFFFF), (0x01, 0xFFFFEFFF), (0x02, 0xFFFFFFFF), (0x03, 0xFF00FFFF),
  (0x10, 0xFF00FFFF), (0x11, 0xFFFFFFFF), (0x12, 0xFFFFFFFF), (0x13, 0xFFFFFFFF),
  (0x20, 0xFFFFF0FF), (0x21, 0xFFFFF0FF), (0x22, 0xFFFFF0FF), (0x23, 0xFFFFF0FF),
  (0x24, 0xFFFFF0FF), (0x25, 0xFFFFF0FF), (0x30, 0xFFFFF0FF), (0x31, 0xFFFFF0FF),
  (0x32, 0xFFFFF0FF), (0x33, 0xFFFFFFFF), (0x34, 0xFFFFFFFF), (0x40, 0xFFFFFFFF),
  (0x41, 0xFFFFFFFF), (0x42, 0xFFFFE0FF), (0x43, 0xFFFFEFFF), (0x44, 0xFFFFEFFF)]

/-- Nothing but the completion of a command changed: the host's side, the unit state, the cache and `BUF` are as
before. -/
def Sys2Proof.Claims.OnlyCompleted (s t : State) : Prop :=
  SameHostSide s t ∧ SameUnits s t ∧ t.kcache = s.kcache ∧ SameBuf s t

/-- A step on a host access that changes nothing but the answer on the bus. -/
def Sys2Proof.Claims.answered (s : State) (rest : List Event) (data : Word) (error : Bool) : State :=
  { s with events := rest, bus := some { data := data, error := error } }

/-- The address of the register at an offset of the register window. -/
def Sys2Proof.Claims.regAddr (s : State) (off : Nat) : Nat := s.cfg.regBase + off

/-- The size that the block of a DECOMPRESS claims, if the command passes the checks of R151; otherwise 0. -/
def Sys2Proof.Claims.claimOf (s : State) : Nat :=
  let src := opndRegion s 0 1
  match lzParse (readRegion s src) with
  | none => 0
  | some f =>
    let dst : Region := { start := opnd s 2, len := f.dlen }
    if src.start + src.len ≤ s.cfg.bufSize ∧ f.dlen < opnd s 3 ∧ dst.start + dst.len ≤ s.cfg.bufSize ∧
        regionsOverlap src dst = false then f.dlen else 0

/-- The output region of R362's table, for a command with the latched operands of `s`. For DECOMPRESS it is `(ARG[2],
dlen)` with the size that the block claims, or claimed before a host write while the command ran, if that was larger
(log entry 7). -/
def Sys2Proof.Claims.abortRegions (i : Instr) (s : State) : List Region :=
  match i with
  | .hash .sha256 => [{ start := opnd s 2, len := 32 }]
  | .hash .sha1 => [{ start := opnd s 2, len := 20 }]
  | .compress _ => [{ start := opnd s 2, len := opnd s 3 }]
  | .decompress => [{ start := opnd s 2, len := max s.claimed (Sys2Proof.Claims.claimOf s) }]
  | .deriveKey _ _ => [{ start := opnd s 1, len := 32 }]
  | .encrypt dir =>
    let hl := match dir with | .c2s => 5 | .s2c => 3
    [{ start := opnd s 0, len := 8 }, { start := opnd s 0 + 8 + hl, len := opnd s 1 }]
  | .decrypt dir =>
    let hl := match dir with | .c2s => 5 | .s2c => 3
    if 8 + hl ≤ opnd s 1 then [{ start := opnd s 0 + 8 + hl, len := opnd s 1 - 8 - hl }] else []
  | _ => []

open Sys2Proof.Claims

/-! ### Encoding -/

/-- The assembled words of R111's examples and of V1.2 decode to the commands they stand for. -/
def Obligations.DecodeWrittenWords : Prop :=
  decode 0x00001001 = .ok (.hash .sha1) ∧ decode 0x00001242 = .ok (.deriveKey 2 .s2c) ∧
  decode 0x00000043 = .ok (.encrypt .c2s) ∧ decode 0x00000021 = .ok (.rqSet 0) ∧
  decode 0x00080003 = .ok (.powSearch 8) ∧ decode 0x00000830 = .ok (.seqNext 8) ∧
  decode 0x00010010 = .ok (.compress 1) ∧ decode 0x00000125 = .ok (.rqStatus 1)

/-- Decoding the encoding of a well-formed command gives it back, for every command and every field value
(R100, R101, R108). -/
def Obligations.DecodeUndoesEncode : Prop :=
  ∀ i : Instr, i.wellFormed = true → decode (encode i) = .ok i

/-- A word that decodes is the encoding of the command it decodes to, so a command has one word (R101, R109). -/
def Obligations.EncodeUndoesDecode : Prop :=
  ∀ (w : Word) (i : Instr), decode w = .ok i → encode i = w ∧ i.wellFormed = true

/-- A latched word that matches no row of Table 30-1 under its mask completes with `ILLEGAL`, and nothing else
changes (R107): when the engine's completion is the next event, and when no event is left. That it completes in this
step is the model's choice (log entry 11); the spec asks only that it eventually completes. -/
def Obligations.IllegalWordCompletesIllegal : Prop :=
  ∀ s : State, s.busy = true → (∀ p ∈ commandRows, s.cmdL &&& p.2 ≠ p.1) →
    (s.events = [] → ∃ t, step s = .next t ∧ CompletedWith .illegal [] t ∧ OnlyCompleted s t) ∧
    ∀ rest, s.events = .engine :: rest →
      ∃ t, step s = .next t ∧ CompletedWith .illegal [] t ∧ OnlyCompleted { s with events := rest } t

/-! ### Issue, execution, completion -/

/-- The step of a running command whose latched word decodes is `exec` of the decoded command: with no event left, and
when the engine's completion is the next event (R108, R121). The list of events is the model's own (log entry 11). -/
def Obligations.StepRunsDecodedCommand : Prop :=
  ∀ (s : State) (i : Instr), s.busy = true → decode s.cmdL = .ok i →
    (s.events = [] → step s = exec i s) ∧
    ∀ rest, s.events = .engine :: rest → step s = exec i { s with events := rest }

/-- An idle TTE with nothing to come stays as it is (R355). The list of events is the model's own (log entry 11). -/
def Obligations.IdleStepChangesNothing : Prop :=
  ∀ s : State, s.busy = false →
    (s.events = [] → step s = .next s) ∧
    ∀ rest, s.events = .engine :: rest → step s = .next { s with events := rest }

/-- Every command completes, whatever its operands: BUSY is 0 and DONE is 1 (R28, R335). -/
def Obligations.CommandAlwaysCompletes : Prop :=
  ∀ (i : Instr) (s : State), ∃ t, exec i s = .next t ∧ t.busy = false ∧ t.done = true ∧ t.hazard = false

/-- A machine whose events the bus can deliver serves them all and then completes the running command: after one step
for each event and one more, BUSY is 0 (R121, R380). That the command completes in the step after the last event is the
model's choice (log entry 11). -/
def Obligations.RunCompletesEveryCommand : Prop :=
  ∀ s : State, EventsMapped s →
    ∃ t : State, Sys2Proof.core.run (s.events.length + 1) s = .next t ∧ t.busy = false ∧ t.events = []

/-- A write of `CMD` while BUSY is 0 latches the word and every `ARG`, clears DONE and sets BUSY, and changes nothing
else (R120); the model's own marks of the last command are cleared (log entries 7 and 15). It is the only way to start a command, and a read of `CMD` returns 0 (R31). -/
def Obligations.CmdWriteIssues : Prop :=
  (∀ (s : State) (w : Word) (rest : List Event), s.busy = false →
    s.events = .access (.write .word (regAddr s 0x014) w) :: rest →
    ∃ t, step s = .next t ∧ t.cmdL = w ∧ t.argL = s.arg ∧ t.busy = true ∧ t.done = false ∧
      t.cfg = s.cfg ∧ t.ie = s.ie ∧ t.overrun = s.overrun ∧ t.err = s.err ∧ t.arg = s.arg ∧ t.res = s.res ∧
      SameUnits s t ∧ t.kcache = s.kcache ∧ SameBuf s t ∧ t.events = rest ∧ t.hazard = false ∧ t.claimed = 0) ∧
  (∀ s t : State, step s = .next t → s.busy = false → t.busy = true →
    ∃ w rest, s.events = .access (.write .word (regAddr s 0x014) w) :: rest) ∧
  (∀ (s : State) (rest : List Event), s.events = .access (.read .word (regAddr s 0x014)) :: rest →
    step s = .next (answered s rest 0 false))

/-- A write of `CMD` while BUSY is 1 is dropped and sets OVERRUN, and OVERRUN then stays set until a write of 1 to it
or a reset (R122). -/
def Obligations.CmdWriteWhileBusyIsDropped : Prop :=
  (∀ (s : State) (w : Word) (rest : List Event), s.busy = true →
    s.events = .access (.write .word (regAddr s 0x014) w) :: rest →
    step s = .next { answered s rest 0 false with overrun := true }) ∧
  (∀ s t : State, step s = .next t → s.overrun = true →
    (∀ v rest, s.events = .access (.write .word (regAddr s 0x010) v) :: rest → v.getLsbD 2 = false) →
    (∀ v rest, s.events = .access (.write .word (regAddr s 0x00C) v) :: rest → v.getLsbD 1 = false) →
    (∀ rest, s.events ≠ .powerOn :: rest) → t.overrun = true)

/-- A write of `ARG[i]` takes effect at once, running command or not, and reaches neither the latched operands nor
anything else; a read returns it. `RES[i]` reads the last command's result while no command runs, and a write to it is
ignored (R30, R32, R34). -/
def Obligations.ArgAndResRegisters : Prop :=
  ∀ (s : State) (i : Fin 8) (v : Word) (rest : List Event),
    (s.events = .access (.write .word (regAddr s (0x020 + 4 * i.val)) v) :: rest →
      step s = .next { answered s rest 0 false with arg := s.arg.set i.val v i.isLt }) ∧
    (s.events = .access (.read .word (regAddr s (0x020 + 4 * i.val))) :: rest →
      step s = .next (answered s rest (s.arg.get i) false)) ∧
    (s.events = .access (.read .word (regAddr s (0x040 + 4 * i.val))) :: rest → s.busy = false →
      step s = .next (answered s rest (s.res.get i) false)) ∧
    (s.events = .access (.write .word (regAddr s (0x040 + 4 * i.val)) v) :: rest →
      step s = .next (answered s rest 0 false))

/-! ### Reset -/

/-- A power-on reset sets every piece of state to the value of R361, and nothing of `BUF` is left; `State.reset` is
such a state. The number of the power-on is the model's own (log entry 2). -/
def Obligations.PowerOnResetValues : Prop :=
  ResetValues State.reset ∧ State.reset.buf.cells = [] ∧
  ∀ (s : State) (rest : List Event), s.events = .powerOn :: rest →
    ∃ t, step s = .next t ∧ ResetValues t ∧ t.cfg = s.cfg ∧ t.buf.cells = [] ∧ t.buf.epoch = s.buf.epoch + 1

/-- A write of `CTRL` with SRST set is a soft reset: every piece of state but `BUF` takes its power-on value, whatever
the written IE bit. While idle no `BUF` byte changes; a running command is aborted, and only the bytes of its output
region that lie inside `BUF` may change (R362). Where the host changed the size that a running DECOMPRESS's block claims,
the region is the model's reading (log entry 7). -/
def Obligations.SoftResetKeepsBuf : Prop :=
  ∀ (s : State) (v : Word) (rest : List Event), v.getLsbD 1 = true →
    s.events = .access (.write .word (regAddr s 0x00C) v) :: rest →
    ∃ t, step s = .next t ∧ ResetValues t ∧ t.cfg = s.cfg ∧ t.events = rest ∧
      (s.busy = false → SameBuf s t) ∧ SameBufOutside (runningOutput s) s t ∧
      (∀ i, decode s.cmdL = .ok i → SameBufOutside (abortRegions i s) s t) ∧
      (∀ e, decode s.cmdL = .error e → SameBuf s t) ∧ ∀ a, s.cfg.bufSize ≤ a → t.buf.read a = s.buf.read a

/-! ### Registers, flags and the interrupt -/

/-- `STATUS` and `CTRL`. A read of `STATUS` returns each flag at its place and the error's number, the reserved bits 0;
a write clears DONE and OVERRUN where it has a 1 and does nothing else (R27, R331). A read of `CTRL` returns IE in bit 0
and 0 above; a write without SRST sets IE and does nothing else (R26). -/
def Obligations.StatusAndCtrlRegisters : Prop :=
  ∀ (s : State) (rest : List Event),
    (s.events = .access (.read .word (regAddr s 0x010)) :: rest →
      ∃ w : Word, step s = .next (answered s rest w false) ∧ w.getLsbD 0 = s.busy ∧ w.getLsbD 1 = s.done ∧
        w.getLsbD 2 = s.overrun ∧ w.getLsbD 3 = s.keyed ∧ w.extractLsb' 4 4 = 0 ∧
        w.extractLsb' 8 8 =
          (match s.err with
           | .ok => 0 | .illegal => 1 | .range => 2 | .arg => 3 | .auth => 4 | .notKeyed => 5
           | .level => 6 | .size => 7 | .format => 8 | .duplicate => 9 | .overfull => 10 | .overlap => 11) ∧
        w.extractLsb' 16 16 = 0) ∧
    (∀ v : Word, s.events = .access (.write .word (regAddr s 0x010) v) :: rest →
      step s = .next
        { answered s rest 0 false with
          done := if v.getLsbD 1 then false else s.done
          overrun := if v.getLsbD 2 then false else s.overrun }) ∧
    (s.events = .access (.read .word (regAddr s 0x00C)) :: rest →
      step s = .next (answered s rest (if s.ie then 1 else 0) false)) ∧
    ∀ v : Word, v.getLsbD 1 = false → s.events = .access (.write .word (regAddr s 0x00C) v) :: rest →
      step s = .next { answered s rest 0 false with ie := v.getLsbD 0 }

/-- `IRQ` is IE and DONE: after a completion, normal, an error or `ILLEGAL`, it equals IE; a write of 1 to DONE, a write
of 0 to IE, an accepted `CMD` write and a reset deassert it; setting IE while DONE is 1 asserts it at once (R340). That a
running command with no event left, or at the engine's event, has completed after that one step is the model's choice
(log entry 11). -/
def Obligations.IrqFollowsEnableAndDone : Prop :=
  (∀ s : State, irq s = (s.ie && s.done)) ∧
  (∀ (i : Instr) (s t : State), exec i s = .next t → irq t = s.ie) ∧
  (∀ s t : State, s.busy = true → (s.events = [] ∨ ∃ rest, s.events = .engine :: rest) → step s = .next t →
    irq t = s.ie) ∧
  (∀ (s t : State) (v : Word) (rest : List Event), step s = .next t →
    (s.events = .access (.write .word (regAddr s 0x010) v) :: rest → v.getLsbD 1 = true → irq t = false) ∧
    (s.events = .access (.write .word (regAddr s 0x00C) v) :: rest → v.getLsbD 1 = false →
      irq t = (v.getLsbD 0 && s.done)) ∧
    (s.events = .access (.write .word (regAddr s 0x00C) v) :: rest → v.getLsbD 1 = true → irq t = false) ∧
    (s.events = .access (.write .word (regAddr s 0x014) v) :: rest → s.busy = false → irq t = false) ∧
    (s.events = .powerOn :: rest → irq t = false))

/-- `ID`, `PARAM0` and `PARAM1` read their constants, and writes to them are ignored (R23, R24, R25). -/
def Obligations.ConstantRegisters : Prop :=
  ∀ (s : State) (v : Word) (rest : List Event), s.cfg.legal →
    (s.events = .access (.read .word (regAddr s 0x000)) :: rest →
      step s = .next (answered s rest 0x54544531 false)) ∧
    (s.events = .access (.read .word (regAddr s 0x004)) :: rest →
      ∃ w : Word, step s = .next (answered s rest w false) ∧ (w.extractLsb' 0 16).toNat = s.cfg.rqCapacity ∧
        (w.extractLsb' 16 4).toNat = s.cfg.rqCount ∧ w.getLsbD 20 = decide (s.cfg.auxHash = .sha1) ∧
        w.getLsbD 21 = decide (s.cfg.lzbOrder = .msbFirst) ∧ w.extractLsb' 22 10 = 0) ∧
    (s.events = .access (.read .word (regAddr s 0x008)) :: rest →
      ∃ w : Word, step s = .next (answered s rest w false) ∧ w.toNat = s.cfg.bufSize) ∧
    ∀ off : Nat, off = 0x000 ∨ off = 0x004 ∨ off = 0x008 →
      s.events = .access (.write .word (regAddr s off) v) :: rest → step s = .next (answered s rest 0 false)

/-- A read of a reserved offset returns 0 and a write to one is ignored (R33). -/
def Obligations.ReservedOffsets : Prop :=
  ∀ (s : State) (off : Nat) (v : Word) (rest : List Event), off % 4 = 0 →
    off = 0x018 ∨ off = 0x01C ∨ (0x060 ≤ off ∧ off ≤ 0xFFC) →
    (s.events = .access (.read .word (regAddr s off)) :: rest → step s = .next (answered s rest 0 false)) ∧
    (s.events = .access (.write .word (regAddr s off) v) :: rest → step s = .next (answered s rest 0 false))

/-! ### The host port and `BUF` -/

/-- An access that R66 admits is served with no bus error; one that it does not admit, or past the end of `BUF` (R62),
gets the bus error response with read data 0, and changes nothing (R66). -/
def Obligations.AccessesAreServedOrGetBusError : Prop :=
  ∀ (s : State) (w : Width) (off : Nat) (v : Word) (a : Access) (rest : List Event), s.cfg.legal →
    s.events = .access a :: rest →
    (off < 4096 → a = .read w (regAddr s off) ∨ a = .write w (regAddr s off) v →
      if w = .word ∧ off % 4 = 0 then ∃ t d, step s = .next t ∧ t.bus = some { data := d, error := false }
      else step s = .next (answered s rest 0 true)) ∧
    (off < s.cfg.bufWindowSize → a = .read w (s.cfg.bufBase + off) ∨ a = .write w (s.cfg.bufBase + off) v →
      (off % widthBytes w = 0 → off + widthBytes w ≤ s.cfg.bufSize →
        ∃ t d, step s = .next t ∧ t.bus = some { data := d, error := false }) ∧
      (off % widthBytes w ≠ 0 ∨ s.cfg.bufSize ≤ off → step s = .next (answered s rest 0 true)))

/-- A legal host write to `BUF` while no command runs stores the bytes of the data, low byte first, and nothing else;
a read of the same place then returns them (R65, R70). Whenever a legal read is served, each byte of its data is the
stored one, but for a byte inside a region that a running command writes (R70). Which bytes a running command writes is
the model's reading of the rules (log entry 15), and for a DECOMPRESS whose block's claimed size the host changed that of
log entry 7. That the bits above the width read 0 is the model's (log entry 10). -/
def Obligations.HostBufWriteThenRead : Prop :=
  (∀ (s : State) (w : Width) (off : Nat) (v : Word) (rest : List Event), s.cfg.legal → s.busy = false →
    off % widthBytes w = 0 → off + widthBytes w ≤ s.cfg.bufSize →
    s.events = .access (.write w (s.cfg.bufBase + off) v) :: .access (.read w (s.cfg.bufBase + off)) :: rest →
    ∃ t u, step s = .next t ∧ step t = .next u ∧
      (∀ k < widthBytes w, t.buf.read (off + k) = v.extractLsb' (8 * k) 8) ∧
      SameBufOutside [{ start := off, len := widthBytes w }] s t ∧ SameUnits s t ∧ t.busy = false ∧
      u.bus = some { data := BitVec.ofNat 32 (v.toNat % 2 ^ (8 * widthBytes w)), error := false } ∧ SameBuf t u) ∧
  (∀ (s : State) (w : Width) (off : Nat) (rest : List Event), s.cfg.legal →
    off % widthBytes w = 0 → off + widthBytes w ≤ s.cfg.bufSize →
    s.events = .access (.read w (s.cfg.bufBase + off)) :: rest →
    ∃ t d, step s = .next t ∧ t.bus = some { data := d, error := false } ∧ SameBuf s t ∧
      d.toNat < 2 ^ (8 * widthBytes w) ∧
      ∀ k < widthBytes w, s.busy = false ∨ inRegions (runningOutput s) (off + k) = false →
        d.extractLsb' (8 * k) 8 = s.buf.read (off + k))

/-- A host read changes nothing but the answer on the bus (R68); the number of draws is the model's own (log entry
3). -/
def Obligations.HostReadsHaveNoEffect : Prop :=
  ∀ (s t : State) (w : Width) (addr : Nat) (rest : List Event),
    s.events = .access (.read w addr) :: rest → step s = .next t →
    t = { s with events := rest, bus := t.bus, draws := t.draws }

/-- A legal host write to `BUF` while a command runs stores the bytes of the data, low byte first, and no other byte
changes; it marks a hazard where a byte lies in a region that the command reads or writes, and otherwise leaves the mark
as it was (R65, R70). The size that a running DECOMPRESS's block claims before the write is kept, if it is larger than
the one kept (log entry 7). The mark and that size are the model's own, and which regions a command reads is the model's
reading of the rules (log entry 15). -/
def Obligations.HostWriteIntoRegionIsHazard : Prop :=
  ∀ (s : State) (w : Width) (off : Nat) (v : Word) (rest : List Event), s.cfg.legal → s.busy = true →
    off % widthBytes w = 0 → off + widthBytes w ≤ s.cfg.bufSize →
    s.events = .access (.write w (s.cfg.bufBase + off) v) :: rest →
    ∃ t, step s = .next t ∧ (∀ k < widthBytes w, t.buf.read (off + k) = v.extractLsb' (8 * k) 8) ∧
      SameBufOutside [{ start := off, len := widthBytes w }] s t ∧ t.busy = true ∧
      t.cmdL = s.cmdL ∧ t.argL = s.argL ∧ SameUnits s t ∧
      ((∃ k < widthBytes w, inRegions (runningRegions s) (off + k) = true) → t.hazard = true) ∧
      ((∀ k < widthBytes w, inRegions (runningRegions s) (off + k) = false) → t.hazard = s.hazard) ∧
      (decode s.cmdL = .ok .decompress → t.claimed = max s.claimed (claimOf s)) ∧
      (decode s.cmdL ≠ .ok .decompress → t.claimed = s.claimed)

/-- What `MemWrite` stores `MemRead` gives back, and every byte outside keeps its value (R63, R75). -/
def Obligations.MemReadAfterMemWrite : Prop :=
  ∀ (m : Memory) (a : Nat) (b : Bytes),
    (m.writeBytes a b).readBytes a b.length = b ∧
    ∀ x, x < a ∨ a + b.length ≤ x → (m.writeBytes a b).read x = m.read x

/-! ### Errors and frames of all commands -/

/-- A command that raised an error, the host not having written into its regions: `RES` is 0, the host's side and the
unit state are unchanged, and so is `BUF`, but for the destination of a COMPRESS whose block is longer than it, the
final `RANGE`, and the destination of a DECOMPRESS that passed every check and failed inside the decoder (R330, R332). -/
def Obligations.ErrorLeavesState : Prop :=
  ∀ (i : Instr) (s t : State), s.hazard = false → exec i s = .next t → t.err ≠ .ok →
    let src := opndRegion s 0 1
    let dst := opndRegion s 2 3
    let tooLong : Prop :=
      i = .compress 1 ∧ src.start + src.len ≤ s.cfg.bufSize ∧ dst.start + dst.len ≤ s.cfg.bufSize ∧
        regionsOverlap src dst = false ∧ dst.len < (lzCompress (readRegion s src)).length
    RaisedWith t.err s t ∧ irq t = s.ie ∧
    (tooLong → t.err = .range ∧ SameBufOutside [dst] s t) ∧
    (∀ b f, i = .decompress → decompressHead s = .ok (b, f) →
      (t.err = .level ∨ t.err = .format) ∧ SameBufOutside [{ start := opnd s 2, len := f.dlen }] s t) ∧
    (¬tooLong → (i = .decompress → ∀ b f, decompressHead s ≠ .ok (b, f)) → SameBuf s t)

/-- No command changes the parameters, `CTRL`, OVERRUN, the command latch, `ARG` or the bus (R22, R29, R34). The events and
the answer on the bus are the model's own (log entry 13). -/
def Obligations.CommandsKeepHostSide : Prop :=
  ∀ (i : Instr) (s t : State), exec i s = .next t → SameHostSide s t

/-- The unit state changes only by its own commands: the crypto state by CRYPTO_INIT and CRYPTO_RESET, the cache by
these and the three commands that derive, the counters by SEQ_NEXT and SEQ_SET, the queues by RQ_INIT, RQ_SET and
RQ_DEQUEUE, and a window by RQ_INIT and RQ_DEQUEUE alone (R29, R168). After a host write into its regions this is the
model's reading (log entry 5). -/
def Obligations.UnitStateChangesOnlyByItsCommands : Prop :=
  ∀ (i : Instr) (s t : State), exec i s = .next t →
    (i ≠ .cryptoInit → i ≠ .cryptoReset → SameCrypto s t) ∧
    (i ≠ .cryptoInit → i ≠ .cryptoReset → (∀ p d, i ≠ .deriveKey p d) → (∀ d, i ≠ .encrypt d) →
      (∀ d, i ≠ .decrypt d) → t.kcache = s.kcache) ∧
    ((∀ p, i ≠ .seqNext p) → (∀ p, i ≠ .seqSet p) → t.txctr = s.txctr) ∧
    ((∀ q, i ≠ .rqInit q) → (∀ q, i ≠ .rqSet q) → (∀ q, i ≠ .rqDequeue q) → t.rq = s.rq) ∧
    ((∀ q, i ≠ .rqInit q) → (∀ q, i ≠ .rqDequeue q) →
      ∀ q, (queueOf t q).start = (queueOf s q).start ∧ (queueOf t q).gen = (queueOf s q).gen)

/-- No command changes a byte of `BUF` outside its output regions, with or without an error, and with or without a
host write into its regions (R332, R362, R70). Where the host changed the size that a DECOMPRESS's block claims, the
region is the model's reading (log entry 7). -/
def Obligations.CommandsWriteOnlyOutputRegions : Prop :=
  ∀ (i : Instr) (s t : State), exec i s = .next t →
    SameBufOutside (outputRegions i s) s t ∧ SameBufOutside (abortRegions i s) s t

/-! ### Control and HASH -/

/-- NOP completes with no effect (R123). -/
def Obligations.NopOnlyCompletes : Prop :=
  ∀ s : State, ∃ t, exec .nop s = .next t ∧ CompletedWith .ok [] t ∧ OnlyCompleted s t

/-- HASH stores the digest of its source region, which may overlap the destination, and returns its length; a region
out of range is `RANGE` with no effect (R250). -/
def Obligations.HashStoresDigest : Prop :=
  ∀ (alg : HashAlg) (s : State), s.hazard = false →
    let src := opndRegion s 0 1
    let k := match alg with | .sha256 => 32 | .sha1 => 20
    let dst : Region := { start := opnd s 2, len := k }
    ∃ t, exec (.hash alg) s = .next t ∧ SameHostSide s t ∧ SameUnits s t ∧ t.kcache = s.kcache ∧
      (if src.start + src.len ≤ s.cfg.bufSize ∧ dst.start + k ≤ s.cfg.bufSize then
        CompletedWith .ok [BitVec.ofNat 32 k] t ∧
          t.buf.readBytes dst.start k =
            (match alg with | .sha256 => sha256 (readRegion s src) | .sha1 => sha1 (readRegion s src)) ∧
          SameBufOutside [dst] s t
      else CompletedWith .range [] t ∧ SameBuf s t)

/-- POW_LEVEL returns the leading-zero count of the hash of the key string and the decimal offset, at most 8 times the
digest length, and changes nothing (R251). -/
def Obligations.PowLevelCounts : Prop :=
  ∀ s : State, s.hazard = false →
    let pk := opndRegion s 0 1
    ∃ t, exec .powLevel s = .next t ∧ OnlyCompleted s t ∧
      (if pk.start + pk.len ≤ s.cfg.bufSize then
        ∃ n, CompletedWith .ok [BitVec.ofNat 32 n] t ∧ n ≤ 8 * digestLen s.cfg.auxHash ∧
          n = lzb s.cfg.lzbOrder (auxHash s.cfg (readRegion s pk ++ decString (opnd s 2 + 2 ^ 32 * opnd s 3)))
      else CompletedWith .range [] t)

/-- POW_SEARCH returns the search's valid offset, last offset, best level and status, the search going on from the
offsets and with the budget of its operands (R252). On every return `last ≥ valid`; the valid offset is never below the
one passed in; best is its level; status 1 means that it meets the target, and it is the status whenever it does
(R253). -/
def Obligations.PowSearchReturns : Prop :=
  ∀ (target : Nat) (s : State), s.hazard = false →
    let pk := opndRegion s 0 1
    let level := powLevelOf s.cfg (readRegion s pk)
    let validIn := opnd s 2 + 2 ^ 32 * opnd s 3
    let lastIn := opnd s 4 + 2 ^ 32 * opnd s 5
    let r := powSearchFrom level target validIn lastIn (opnd s 6)
    ∃ t, exec (.powSearch target) s = .next t ∧ OnlyCompleted s t ∧
      (if pk.start + pk.len ≤ s.cfg.bufSize then
        CompletedWith .ok
          [BitVec.ofNat 32 r.valid, BitVec.ofNat 32 (r.valid / 2 ^ 32), BitVec.ofNat 32 r.last,
           BitVec.ofNat 32 (r.last / 2 ^ 32), BitVec.ofNat 32 r.best, BitVec.ofNat 32 r.status] t ∧
        r.valid ≤ r.last ∧ r.last < 2 ^ 64 ∧ validIn ≤ r.valid ∧ r.best = level r.valid ∧ r.status ≤ 2 ∧
        (r.status = 1 ↔ target ≤ r.best)
      else CompletedWith .range [] t)

/-- The valid offset of a search is the best of all offsets tried. Up to `last` no offset tried has a higher level.
A search that did not meet its target tried every offset that its budget reaches, the offset 2^64 - 1 too, whose trial
leaves `last` at it; status 2 says that it was tried with budget left, status 0 that the budget is used up. A search
that met its target stopped at the offset that met it: a valid offset that moved is strictly better than the one passed
in and than every offset tried before it (R252). -/
def Obligations.PowSearchFindsBest : Prop :=
  ∀ (level : Nat → Nat) (target valid last budget : Nat), valid < 2 ^ 64 → last < 2 ^ 64 →
    let r := powSearchFrom level target valid last budget
    let start := max last valid
    r.best = level r.valid ∧
    (∀ x, start ≤ x → x < r.last → level x ≤ r.best) ∧
    (r.status ≠ 1 → ∀ x, start ≤ x → x < start + budget → x < 2 ^ 64 → level x ≤ r.best) ∧
    (r.status = 2 → r.last = 2 ^ 64 - 1 ∧ 2 ^ 64 < start + budget ∧ level (2 ^ 64 - 1) ≤ r.best) ∧
    (r.status = 0 → r.last = min (start + budget) (2 ^ 64 - 1) ∧ start + budget ≤ 2 ^ 64) ∧
    (r.valid ≠ valid → start ≤ r.valid ∧ level valid < r.best) ∧
    (r.status = 1 → r.valid ≠ valid → r.last = min (r.valid + 1) (2 ^ 64 - 1)) ∧
    (r.status = 1 → r.valid = valid → r.last = start) ∧
    (∀ x, start ≤ x → x < r.valid → level x < r.best ∨ x = valid) ∧
    r.last - start ≤ budget

/-- A search that ran out of budget before the end of the offset space, and is called again with what it returned,
ends as one search with both budgets would have (R252). -/
def Obligations.PowSearchResumes : Prop :=
  ∀ (level : Nat → Nat) (target valid last b c : Nat), valid < 2 ^ 64 → last < 2 ^ 64 →
    let r := powSearchFrom level target valid last b
    r.status = 0 → r.last < 2 ^ 64 - 1 →
    powSearchFrom level target r.valid r.last c = powSearchFrom level target valid last (b + c)

/-! ### The codec -/

/-- COMPRESS by its rule: the checks in their order, each error leaving `BUF` unchanged but the last, and otherwise
the block of `LzCompress` stored at the destination and its length returned (R150). -/
def Obligations.CompressStoresBlock : Prop :=
  ∀ (level : Nat) (s : State), s.hazard = false →
    let src := opndRegion s 0 1
    let dst := opndRegion s 2 3
    let out := lzCompress (readRegion s src)
    ∃ t, exec (.compress level) s = .next t ∧ SameHostSide s t ∧ SameUnits s t ∧ t.kcache = s.kcache ∧
      (if level ≠ 1 then CompletedWith .level [] t ∧ SameBuf s t
       else if s.cfg.bufSize < src.start + src.len ∨ s.cfg.bufSize < dst.start + dst.len then
         CompletedWith .range [] t ∧ SameBuf s t
       else if regionsOverlap src dst = true then CompletedWith .overlap [] t ∧ SameBuf s t
       else if dst.len < out.length then CompletedWith .range [] t ∧ SameBufOutside [dst] s t
       else
         CompletedWith .ok [BitVec.ofNat 32 out.length] t ∧ t.buf.readBytes dst.start out.length = out ∧
           SameBufOutside [{ start := dst.start, len := out.length }] s t)

/-- DECOMPRESS by its rule: the checks in their order, then the errors of the decoder, which may change only the
output region, and otherwise the data stored at the destination and its length returned (R151). -/
def Obligations.DecompressStoresData : Prop :=
  ∀ s : State, s.hazard = false →
    let src := opndRegion s 0 1
    let b := readRegion s src
    ∃ t, exec .decompress s = .next t ∧ SameHostSide s t ∧ SameUnits s t ∧ t.kcache = s.kcache ∧
      (if s.cfg.bufSize < src.start + src.len then CompletedWith .range [] t ∧ SameBuf s t
       else
         match lzParse b with
         | none => CompletedWith .format [] t ∧ SameBuf s t
         | some f =>
           let dst : Region := { start := opnd s 2, len := f.dlen }
           if opnd s 3 ≤ f.dlen then CompletedWith .size [] t ∧ SameBuf s t
           else if s.cfg.bufSize < dst.start + dst.len then CompletedWith .range [] t ∧ SameBuf s t
           else if regionsOverlap src dst = true then CompletedWith .overlap [] t ∧ SameBuf s t
           else
             match lzDecode b f with
             | .error e => (e = .level ∨ e = .format) ∧ CompletedWith e [] t ∧ SameBufOutside [dst] s t
             | .ok d =>
               CompletedWith .ok [BitVec.ofNat 32 f.dlen] t ∧ t.buf.readBytes dst.start f.dlen = d ∧
                 SameBufOutside [dst] s t)

/-- LZ_CSIZE and LZ_DSIZE return a length and the header length of a block header and change nothing; a region out of
range is `RANGE` and a short header `FORMAT` (R152, R153). -/
def Obligations.HeaderAccessorsRead : Prop :=
  ∀ s : State, s.hazard = false →
    let src := opndRegion s 0 1
    let b := readRegion s src
    ∃ t u, exec .lzCsize s = .next t ∧ exec .lzDsize s = .next u ∧ OnlyCompleted s t ∧ OnlyCompleted s u ∧
      (if s.cfg.bufSize < src.start + src.len then CompletedWith .range [] t ∧ CompletedWith .range [] u
       else if src.len < 1 ∨ src.len < (if (byteAt b 0).getLsbD 1 then 9 else 3) then
         CompletedWith .format [] t ∧ CompletedWith .format [] u
       else if (byteAt b 0).getLsbD 1 then
         CompletedWith .ok [BitVec.ofNat 32 (uLE (slice b 1 5)), 9] t ∧
           CompletedWith .ok [BitVec.ofNat 32 (uLE (slice b 5 9)), 9] u
       else
         CompletedWith .ok [(byteAt b 1).zeroExtend 32, 3] t ∧ CompletedWith .ok [(byteAt b 2).zeroExtend 32, 3] u)

/-- The header of a compressed block tells its header length, its own length and the input's length, and the header
is 3 bytes exactly for inputs below 216 bytes (R138, R148, R154). -/
def Obligations.CompressedHeaderTellsLengths : Prop :=
  ∀ src : Bytes, src.length ≤ 2 ^ 24 →
    lzParse (lzCompress src) =
      some { hl := if src.length < 216 then 3 else 9, clen := (lzCompress src).length, dlen := src.length }

/-- A compressed block is at most its header, the input and 4 bytes for every 31 bytes of input begun (R138, R150). -/
def Obligations.CompressedLengthBound : Prop :=
  ∀ src : Bytes,
    (lzCompress src).length ≤ (if src.length < 216 then 3 else 9) + src.length + 4 * ((src.length + 30) / 31)

/-- Decompressing a compressed block gives the input back (R148, R154). -/
def Obligations.DecompressUndoesCompress : Prop :=
  ∀ src : Bytes, src.length ≤ 2 ^ 24 →
    ∃ f, lzParse (lzCompress src) = some f ∧ lzDecode (lzCompress src) f = .ok src

/-! ### The reorder buffer -/

/-- RQ_INIT empties a queue and sets its window, whatever it held, and no other queue changes; a bad queue or id is
`ARG` with no effect (R162). -/
def Obligations.RqInitEmptiesQueue : Prop :=
  ∀ (q : Nat) (s : State), QueueShape s →
    ∃ t, exec (.rqInit q) s = .next t ∧ SameHostSide s t ∧ SameCrypto s t ∧ t.txctr = s.txctr ∧
      t.kcache = s.kcache ∧ SameBuf s t ∧
      (if q < s.cfg.rqCount ∧ opnd s 0 ≤ 0xFFFF then
        CompletedWith .ok [] t ∧ (queueOf t q).start.toNat = opnd s 0 ∧ (queueOf t q).gen = s.argL.get 1 ∧
          (queueOf t q).slots.length = s.cfg.rqCapacity ∧
          (∀ k < s.cfg.rqCapacity, slotOf (queueOf t q) k = { present := false, value := 0 }) ∧
          ∀ p, p ≠ q → queueOf t p = queueOf s p
      else CompletedWith .arg [] t ∧ t.rq = s.rq)

/-- RQ_SET by its rule: an id inside the window whose slot is free is buffered there, and nothing else of the queues
changes; an id below the window or already present is `DUPLICATE`, one at or beyond its end `OVERFULL` (R163). -/
def Obligations.RqSetBuffersId : Prop :=
  ∀ (q : Nat) (s : State), s.cfg.legal → QueueShape s →
    let n := s.cfg.rqCapacity
    let d := (opnd s 0 + 65536 - (queueOf s q).start.toNat) % 65536
    let k := opnd s 0 % n
    ∃ t, exec (.rqSet q) s = .next t ∧ SameHostSide s t ∧ SameCrypto s t ∧ t.txctr = s.txctr ∧
      t.kcache = s.kcache ∧ SameBuf s t ∧
      (if s.cfg.rqCount ≤ q ∨ 0xFFFF < opnd s 0 then CompletedWith .arg [] t ∧ t.rq = s.rq
       else if 0x8000 ≤ d then CompletedWith .duplicate [] t ∧ t.rq = s.rq
       else if n ≤ d then CompletedWith .overfull [] t ∧ t.rq = s.rq
       else if (slotOf (queueOf s q) k).present then CompletedWith .duplicate [] t ∧ t.rq = s.rq
       else
         CompletedWith .ok [] t ∧ slotOf (queueOf t q) k = { present := true, value := s.argL.get 1 } ∧
           (∀ j, j ≠ k → slotOf (queueOf t q) j = slotOf (queueOf s q) j) ∧
           (queueOf t q).start = (queueOf s q).start ∧ (queueOf t q).gen = (queueOf s q).gen ∧
           ∀ p, p ≠ q → queueOf t p = queueOf s p)

/-- RQ_DEQUEUE by its rule: the window start is released only when it is present; then its slot is cleared, the window
moves on by one, and the generation counts the wrap to 0; an empty queue answers 0 and keeps its window (R164). -/
def Obligations.RqDequeueReleasesStart : Prop :=
  ∀ (q : Nat) (s : State), s.cfg.legal → QueueShape s →
    let k := (queueOf s q).start.toNat % s.cfg.rqCapacity
    let start : Word := BitVec.ofNat 32 (queueOf s q).start.toNat
    ∃ t, exec (.rqDequeue q) s = .next t ∧ SameHostSide s t ∧ SameCrypto s t ∧ t.txctr = s.txctr ∧
      t.kcache = s.kcache ∧ SameBuf s t ∧
      (if s.cfg.rqCount ≤ q then CompletedWith .arg [] t ∧ t.rq = s.rq
       else if (slotOf (queueOf s q) k).present then
         CompletedWith .ok [1, (slotOf (queueOf s q) k).value, start, (queueOf s q).gen] t ∧
           (queueOf t q).gen.toNat * 65536 + (queueOf t q).start.toNat =
             ((queueOf s q).gen.toNat * 65536 + (queueOf s q).start.toNat + 1) % 2 ^ 48 ∧
           slotOf (queueOf t q) k = { present := false, value := 0 } ∧
           (∀ j, j ≠ k → slotOf (queueOf t q) j = slotOf (queueOf s q) j) ∧
           ∀ p, p ≠ q → queueOf t p = queueOf s p
       else CompletedWith .ok [0, 0, start, (queueOf s q).gen] t ∧ t.rq = s.rq)

/-- RQ_IS_SET reports 2 and true for an id below the window, 0 for one at or beyond its end, and the slot's bit inside
it, and changes nothing (R165). -/
def Obligations.RqIsSetReports : Prop :=
  ∀ (q : Nat) (s : State), s.cfg.legal →
    let n := s.cfg.rqCapacity
    let d := (opnd s 0 + 65536 - (queueOf s q).start.toNat) % 65536
    ∃ t, exec (.rqIsSet q) s = .next t ∧ OnlyCompleted s t ∧
      (if s.cfg.rqCount ≤ q ∨ 0xFFFF < opnd s 0 then CompletedWith .arg [] t
       else if 0x8000 ≤ d then CompletedWith .ok [2, 1] t
       else if d < n ∧ (slotOf (queueOf s q) (opnd s 0 % n)).present = true then CompletedWith .ok [1, 1] t
       else CompletedWith .ok [0, 0] t)

/-- RQ_GEN returns the generation of an id relative to the queue's window, and changes nothing (R166). -/
def Obligations.RqGenResolves : Prop :=
  ∀ (q : Nat) (s : State),
    ∃ t, exec (.rqGen q) s = .next t ∧ OnlyCompleted s t ∧
      (if s.cfg.rqCount ≤ q ∨ 0xFFFF < opnd s 0 then CompletedWith .arg [] t
       else
         CompletedWith .ok
           [resolveGen (queueOf s q).start (queueOf s q).gen (BitVec.ofNat 16 (opnd s 0))] t)

/-- RQ_STATUS returns the window start, its generation and the number of ids buffered, which is at most RQ_CAPACITY,
and changes nothing (R167). -/
def Obligations.RqStatusReports : Prop :=
  ∀ (q : Nat) (s : State), QueueShape s →
    let n := ((queueOf s q).slots.filter fun v => v.present).length
    ∃ t, exec (.rqStatus q) s = .next t ∧ OnlyCompleted s t ∧
      (if s.cfg.rqCount ≤ q then CompletedWith .arg [] t
       else
         CompletedWith .ok
           [BitVec.ofNat 32 (queueOf s q).start.toNat, (queueOf s q).gen, BitVec.ofNat 32 n] t ∧
         n ≤ s.cfg.rqCapacity)

/-- Two ids inside one window that share a slot are one id, for every legal capacity (R10, R161). -/
def Obligations.WindowSlotsAreDistinct : Prop :=
  ∀ (c : Config) (start x y : BitVec 16), c.legal →
    classOf c.rqCapacity start x = .inside → classOf c.rqCapacity start y = .inside →
    slotIndex c.rqCapacity x = slotIndex c.rqCapacity y → x = y

/-! ### Sequence numbers -/

/-- `Resolve` gives an id the one generation that puts it within half the space of the reference, at or after it by
less than 0x8000, or before it by at most 0x8000 (R182). -/
def Obligations.ResolvePicksNearestGeneration : Prop :=
  ∀ (r : BitVec 16) (g : BitVec 32) (i : BitVec 16) (h : BitVec 32),
    resolveGen r g i = h ↔
      (let x := (h.toNat * 65536 + i.toNat + 2 ^ 48 - (g.toNat * 65536 + r.toNat)) % 2 ^ 48
       x < 0x8000 ∨ 2 ^ 48 - 0x8000 ≤ x)

/-- SEQ_NEXT returns a counter's pair and moves the counter, generation and id as one 48-bit number, on by one; no
other counter changes. A packet type above 8 is `ARG` with no effect (R183). -/
def Obligations.SeqNextTakesPair : Prop :=
  ∀ (p : Nat) (s : State),
    ∃ t, exec (.seqNext p) s = .next t ∧ SameHostSide s t ∧ SameCrypto s t ∧ t.rq = s.rq ∧ t.kcache = s.kcache ∧
      SameBuf s t ∧
      (if p ≤ 8 then
        CompletedWith .ok [BitVec.ofNat 32 (counterOf s p).id.toNat, (counterOf s p).gen] t ∧
          (counterOf t p).gen.toNat * 65536 + (counterOf t p).id.toNat =
            ((counterOf s p).gen.toNat * 65536 + (counterOf s p).id.toNat + 1) % 2 ^ 48 ∧
          ∀ j, j ≠ p → counterOf t j = counterOf s j
      else CompletedWith .arg [] t ∧ t.txctr = s.txctr)

/-- SEQ_READ returns a counter's pair and changes nothing (R184). -/
def Obligations.SeqReadReturnsPair : Prop :=
  ∀ (p : Nat) (s : State),
    ∃ t, exec (.seqRead p) s = .next t ∧ OnlyCompleted s t ∧
      (if p ≤ 8 then CompletedWith .ok [BitVec.ofNat 32 (counterOf s p).id.toNat, (counterOf s p).gen] t
       else CompletedWith .arg [] t)

/-- SEQ_SET loads a counter and no other; a bad packet type or id is `ARG` with no effect (R185). -/
def Obligations.SeqSetLoadsCounter : Prop :=
  ∀ (p : Nat) (s : State),
    ∃ t, exec (.seqSet p) s = .next t ∧ SameHostSide s t ∧ SameCrypto s t ∧ t.rq = s.rq ∧ t.kcache = s.kcache ∧
      SameBuf s t ∧
      (if p ≤ 8 ∧ opnd s 0 ≤ 0xFFFF then
        CompletedWith .ok [] t ∧ (counterOf t p).id.toNat = opnd s 0 ∧ (counterOf t p).gen = s.argL.get 1 ∧
          ∀ j, j ≠ p → counterOf t j = counterOf s j
      else CompletedWith .arg [] t ∧ t.txctr = s.txctr)

/-- SEQ_DIFF returns the difference modulo 65536, the same as a signed 16-bit number extended to 32 bits, and the
relation by the half-range rule, and changes nothing (R186). -/
def Obligations.SeqDiffCompares : Prop :=
  ∀ s : State,
    let d := (opnd s 1 + 65536 - opnd s 0) % 65536
    ∃ t, exec .seqDiff s = .next t ∧ OnlyCompleted s t ∧
      (if 0xFFFF < opnd s 0 ∨ 0xFFFF < opnd s 1 then CompletedWith .arg [] t
       else
         CompletedWith .ok
           [BitVec.ofNat 32 d, BitVec.ofInt 32 (if d < 0x8000 then (d : Int) else (d : Int) - 65536),
            if d = 0 then 0 else if d < 0x8000 then 1 else 2] t)

/-- SEQ_RESOLVE returns the generation of an id relative to a reference, and changes nothing (R187). -/
def Obligations.SeqResolveReturnsGeneration : Prop :=
  ∀ s : State,
    ∃ t, exec .seqResolve s = .next t ∧ OnlyCompleted s t ∧
      (if 0xFFFF < opnd s 0 ∨ 0xFFFF < opnd s 2 then CompletedWith .arg [] t
       else
         CompletedWith .ok
           [resolveGen (BitVec.ofNat 16 (opnd s 0)) (s.argL.get 1) (BitVec.ofNat 16 (opnd s 2))] t)

/-! ### The cipher engine -/

/-- CRYPTO_INIT, in either phase: with the regions in range and lengths that sum to 20 it enters the keyed phase with
the IV struct, the fake signature of it and an empty cache; otherwise `RANGE` before `ARG`, the crypto state
unchanged (R305). -/
def Obligations.CryptoInitEntersKeyed : Prop :=
  ∀ s : State, s.hazard = false →
    let alpha := opndRegion s 0 1
    let beta := opndRegion s 2 3
    let shared := opndRegion s 4 5
    let mask := (auxHash s.cfg (norm32 (readRegion s shared))).take 20
    ∃ t, exec .cryptoInit s = .next t ∧ SameHostSide s t ∧ t.txctr = s.txctr ∧ t.rq = s.rq ∧ SameBuf s t ∧
      (if s.cfg.bufSize < alpha.start + alpha.len ∨ s.cfg.bufSize < beta.start + beta.len ∨
          s.cfg.bufSize < shared.start + shared.len then
        CompletedWith .range [] t ∧ SameCrypto s t ∧ t.kcache = s.kcache
      else if alpha.len + beta.len ≠ 20 then CompletedWith .arg [] t ∧ SameCrypto s t ∧ t.kcache = s.kcache
      else
        CompletedWith .ok [] t ∧ t.keyed = true ∧
          t.iv.toList = xorBytes (readRegion s alpha ++ readRegion s beta) mask ∧
          t.fakeSig.toList = (auxHash s.cfg t.iv.toList).take 8 ∧
          ∀ e ∈ t.kcache.toList, e.valid = false)

/-- CRYPTO_RESET, in either phase, destroys the session secrets and returns to the unkeyed phase; counters, queues and
`BUF` stay (R306). -/
def Obligations.CryptoResetDestroysSecrets : Prop :=
  ∀ s : State,
    ∃ t, exec .cryptoReset s = .next t ∧ CompletedWith .ok [] t ∧ SameHostSide s t ∧ t.keyed = false ∧
      (∀ b ∈ t.iv.toList, b = 0) ∧ (∀ b ∈ t.fakeSig.toList, b = 0) ∧
      (∀ e ∈ t.kcache.toList, e.valid = false) ∧ t.txctr = s.txctr ∧ t.rq = s.rq ∧ SameBuf s t

/-- DERIVE writes the key and the nonce of its triple, the two halves of the SHA-256 digest, before any packet-id XOR;
its errors are `ARG`, `RANGE` and `NOT_KEYED`, in that order, with no effect (R307). -/
def Obligations.DeriveWritesKeyAndNonce : Prop :=
  ∀ (p : Nat) (dir : Dir) (s : State), s.hazard = false → CacheCoherent s →
    let dst : Region := { start := opnd s 1, len := 32 }
    let dirByte : Byte := match dir with | .c2s => 0x31 | .s2c => 0x30
    ∃ t, exec (.deriveKey p dir) s = .next t ∧ SameHostSide s t ∧ SameUnits s t ∧
      (if 8 < p then CompletedWith .arg [] t ∧ SameBuf s t
       else if s.cfg.bufSize < dst.start + 32 then CompletedWith .range [] t ∧ SameBuf s t
       else if s.keyed = false then CompletedWith .notKeyed [] t ∧ SameBuf s t
       else
         CompletedWith .ok [] t ∧ SameBufOutside [dst] s t ∧
           t.buf.readBytes dst.start 32 =
             sha256 ([dirByte, BitVec.ofNat 8 p] ++ beBytes 4 (opnd s 0) ++ s.iv.toList))

/-- The key/nonce cache is transparent: two states that differ only in a coherent cache give a command the same
effect on everything but the cache (R43, R287). -/
def Obligations.CacheIsTransparent : Prop :=
  ∀ (i : Instr) (s : State) (c : Vector KEntry 18), CacheCoherent s → CacheCoherent { s with kcache := c } →
    ∃ t u, exec i s = .next t ∧ exec i { s with kcache := c } = .next u ∧ u = { t with kcache := u.kcache }

/-- ENCRYPT by its rule: `RANGE`, then `ARG` for a packet type above 8, with no effect; an Init1 or Unencrypted frame
takes the fixed or the derived signature as its tag and keeps its body; any other is encrypted and tagged by EAX under
the keys of its phase. The header never changes (R300, R301, R310). -/
def Obligations.EncryptMakesFrame : Prop :=
  ∀ (dir : Dir) (s : State), s.hazard = false → CacheCoherent s →
    let hl := match dir with | .c2s => 5 | .s2c => 3
    let f := opnd s 0
    let b := opnd s 1
    let hdr := s.buf.readBytes (f + 8) hl
    let tf := byteAt hdr (hl - 1)
    let ptype := tf.toNat % 16
    let pid := BitVec.ofNat 16 (uBE (hdr.take 2))
    let kn := deriveKN s.iv.toList dir ptype (s.argL.get 2)
    let keys :=
      if s.keyed then (packetKey kn.1 pid, kn.2) else (s.cfg.dummyKey.toList, s.cfg.dummyNonce.toList)
    let ct := eaxEnc keys.1 keys.2 hdr (s.buf.readBytes (f + 8 + hl) b)
    let signature :=
      if ptype = 8 ∨ s.keyed = false then s.cfg.fixedSignature.toList else s.fakeSig.toList
    ∃ t, exec (.encrypt dir) s = .next t ∧ SameHostSide s t ∧ SameUnits s t ∧
      (if s.cfg.bufSize < f + (8 + hl + b) then CompletedWith .range [] t ∧ SameBuf s t
       else if 8 < ptype then CompletedWith .arg [] t ∧ SameBuf s t
       else
         CompletedWith .ok [BitVec.ofNat 32 (8 + hl + b)] t ∧
         (if ptype = 8 ∨ tf.getLsbD 7 = true then
           t.buf.readBytes f 8 = signature ∧ SameBufOutside [{ start := f, len := 8 }] s t
         else
           t.buf.readBytes f 8 = ct.2 ∧ t.buf.readBytes (f + 8 + hl) b = ct.1 ∧
             SameBufOutside [{ start := f, len := 8 }, { start := f + 8 + hl, len := b }] s t))

/-- DECRYPT by its rule: `RANGE`, `FORMAT` and `ARG` in that order; `AUTH` where the tag is not the frame's signature
or EAX tag; each with no change of `BUF`. Otherwise the body is decrypted in place, and its length, the packet id and
the type byte are returned (R311). -/
def Obligations.DecryptVerifiesFrame : Prop :=
  ∀ (dir : Dir) (s : State), s.hazard = false → CacheCoherent s →
    let hl := match dir with | .c2s => 5 | .s2c => 3
    let f := opnd s 0
    let len := opnd s 1
    let tag := s.buf.readBytes f 8
    let hdr := s.buf.readBytes (f + 8) hl
    let body := s.buf.readBytes (f + 8 + hl) (len - 8 - hl)
    let tf := byteAt hdr (hl - 1)
    let ptype := tf.toNat % 16
    let pid := BitVec.ofNat 16 (uBE (hdr.take 2))
    let kn := deriveKN s.iv.toList dir ptype (s.argL.get 2)
    let keys :=
      if s.keyed then (packetKey kn.1 pid, kn.2) else (s.cfg.dummyKey.toList, s.cfg.dummyNonce.toList)
    let signature :=
      if ptype = 8 ∨ s.keyed = false then s.cfg.fixedSignature.toList else s.fakeSig.toList
    let results : List Word := [BitVec.ofNat 32 (len - 8 - hl), BitVec.ofNat 32 pid.toNat, BitVec.ofNat 32 tf.toNat]
    ∃ t, exec (.decrypt dir) s = .next t ∧ SameHostSide s t ∧ SameUnits s t ∧
      (if s.cfg.bufSize < f + len then CompletedWith .range [] t ∧ SameBuf s t
       else if len < 8 + hl then CompletedWith .format [] t ∧ SameBuf s t
       else if 8 < ptype then CompletedWith .arg [] t ∧ SameBuf s t
       else if ptype = 8 ∨ tf.getLsbD 7 = true then
         (if tag = signature then CompletedWith .ok results t else CompletedWith .auth [] t) ∧ SameBuf s t
       else
         match eaxDec keys.1 keys.2 hdr body tag with
         | none => CompletedWith .auth [] t ∧ SameBuf s t
         | some p =>
           CompletedWith .ok results t ∧ t.buf.readBytes (f + 8 + hl) (len - 8 - hl) = p ∧
             SameBufOutside [{ start := f + 8 + hl, len := len - 8 - hl }] s t)

/-- Round trip: DECRYPT of the frame that ENCRYPT made, with the same direction and generation and the frame length
that it returned, succeeds and restores the body; keyed or not, every packet type, encrypted or fake-signed (R315). -/
def Obligations.DecryptUndoesEncrypt : Prop :=
  ∀ (dir : Dir) (s t u : State), s.hazard = false → CacheCoherent s →
    exec (.encrypt dir) s = .next t → t.err = .ok →
    u = { t with argL := u.argL } → u.argL.get 0 = s.argL.get 0 → u.argL.get 1 = t.res.get 0 →
    u.argL.get 2 = s.argL.get 2 → s.cfg.bufSize ≤ 2 ^ 24 →
    ∃ v, exec (.decrypt dir) u = .next v ∧ v.err = .ok ∧ v.res.get 0 = s.argL.get 1 ∧
      v.buf.readBytes (opnd s 0 + 8) (headerLen dir + opnd s 1) =
        s.buf.readBytes (opnd s 0 + 8) (headerLen dir + opnd s 1)

/-! ### The invariant -/

/-- `State.Inv` holds after reset (R361). -/
def Obligations.InvariantHoldsAtReset : Prop := State.Inv State.reset

/-- Every step keeps `State.Inv`: the parameters stay legal, the queues keep their shape, every valid cache entry is
what a fresh derivation gives, the unkeyed phase holds no session secret, memory keeps its canonical form inside `BUF`,
and DONE is 0 while a command runs (R28, R41, R43, R47, R60). That only a running command has a hazard is the model's own
(log entry 15). -/
def Obligations.InvariantKeptByStep : Prop := ∀ s t : State, State.Inv s → step s = .next t → State.Inv t
end

