-- ==== Sys2Proof/Laws/Bytes.lean ====
section
/-! SUPPORT. Lengths of byte strings, digests, blocks and tags, and the involution of the keystream XOR. -/

namespace Sys2Proof.Machine

@[simp] theorem length_beBytes (n v : Nat) : (beBytes n v).length = n := by
  induction n with
  | zero => rfl
  | succ n ih => simp [beBytes, ih]

@[simp] theorem length_leBytes (n v : Nat) : (leBytes n v).length = n := by
  induction n generalizing v with
  | zero => rfl
  | succ n ih => simp [leBytes, ih]

@[simp] theorem length_xorBytes (a b : Bytes) : (xorBytes a b).length = min a.length b.length := by
  simp [xorBytes]

@[simp] theorem length_zeroBytes (n : Nat) : (zeroBytes n).length = n := by simp [zeroBytes]

@[simp] theorem length_slice (s : Bytes) (i j : Nat) : (slice s i j).length = min (j - i) (s.length - i) := by
  simp [slice]

/-- A string of the right length is what the state holds of it. -/
theorem toList_fixedBytes {n : Nat} {s : Bytes} (h : s.length = n) : (fixedBytes n s).toList = s := by
  subst h
  apply List.ext_getElem
  · simp
  · intro i h1 h2
    simp [fixedBytes, byteAt]

/-- The number that a little-endian string of a number holds (R11). -/
theorem uLE_leBytes (n v : Nat) : uLE (leBytes n v) = v % 256 ^ n := by
  induction n generalizing v with
  | zero => simp [leBytes, uLE, Nat.mod_one]
  | succ n ih =>
    have e : uLE (leBytes (n + 1) v) = (BitVec.ofNat 8 v).toNat + 256 * uLE (leBytes n (v / 256)) := rfl
    rw [e, ih, BitVec.toNat_ofNat, Nat.pow_succ 256 n, Nat.mul_comm (256 ^ n) 256, Nat.mod_mul]

/-- XOR with a string at least as long, twice, changes nothing (R11). -/
theorem xorBytes_xorBytes {m k : Bytes} (h : m.length ≤ k.length) : xorBytes (xorBytes m k) k = m := by
  induction m generalizing k with
  | nil => rfl
  | cons a m ih =>
    match k, h with
    | b :: k, h =>
      simp only [xorBytes, List.zipWith_cons_cons, List.cons.injEq]
      refine ⟨?_, ih (by simpa using h)⟩
      rw [BitVec.xor_assoc, BitVec.xor_self, BitVec.xor_zero]

/-! ### Hash -/

@[simp] theorem length_wordsToBytes (ws : List Word) : (wordsToBytes ws).length = 4 * ws.length := by
  induction ws with
  | nil => rfl
  | cons w ws ih =>
    rw [wordsToBytes, List.flatMap_cons, List.length_append, length_beBytes, ← wordsToBytes, ih, List.length_cons]
    omega

theorem length_shaBlocks {f : List Word → List Word → List Word} {k : Nat} (hf : ∀ h b, (f h b).length = k) (n : Nat)
    (s : Bytes) (h : List Word) (hh : h.length = k) : (shaBlocks f n s h).length = k := by
  induction n generalizing s h with
  | zero => exact hh
  | succ n ih => exact ih _ _ (hf _ _)

/-- A SHA-256 digest is 32 bytes (R205). -/
@[simp] theorem length_sha256 (m : Bytes) : (sha256 m).length = 32 := by
  rw [sha256, length_wordsToBytes, length_shaBlocks (k := 8) (fun _ _ => rfl) _ _ _ rfl]

/-- A SHA-1 digest is 20 bytes (R209). -/
@[simp] theorem length_sha1 (m : Bytes) : (sha1 m).length = 20 := by
  rw [sha1, length_wordsToBytes, length_shaBlocks (k := 5) (fun _ _ => rfl) _ _ _ rfl]

/-- A digest has the length of its algorithm (R211, R250). -/
@[simp] theorem length_hashWith (a : HashAlg) (m : Bytes) : (hashWith a m).length = digestLen a := by
  cases a
  · exact length_sha256 m
  · exact length_sha1 m

/-! ### AES-128 and EAX -/

theorem length_keyWord {j : Nat} {ws : List Bytes} (h : ∀ w ∈ ws, w.length = 4) (h4 : 4 ≤ ws.length) :
    (keyWord j ws).length = 4 := by
  have g : ∀ i, i < 4 → (ws.getD i []).length = 4 := by
    intro i hi
    have hl : i < ws.length := by omega
    rw [List.getD_eq_getElem?_getD, List.getElem?_eq_getElem hl]
    exact h _ (List.getElem_mem hl)
  have g3 := g 3 (by omega)
  have g0 := g 0 (by omega)
  simp only [keyWord, length_xorBytes, g3]
  split
  · simp only [subBytes, rotWord, length_xorBytes, List.length_map, List.length_append, length_slice,
      List.length_cons, length_zeroBytes, g0]
    rfl
  · rw [g0]
    rfl

theorem length_expandFrom (n j : Nat) (ws : List Bytes) (h : ∀ w ∈ ws, w.length = 4) (h4 : 4 ≤ ws.length) :
    (expandFrom n j ws).length = n + ws.length ∧ ∀ w ∈ expandFrom n j ws, w.length = 4 := by
  induction n generalizing j ws with
  | zero => exact ⟨by simp [expandFrom], h⟩
  | succ n ih =>
    have := ih (j + 1) (keyWord j ws :: ws)
      (by intro w hw; rcases List.mem_cons.1 hw with rfl | hw; exacts [length_keyWord h h4, h w hw])
      (by rw [List.length_cons]; omega)
    exact ⟨by rw [expandFrom, this.1, List.length_cons]; omega, this.2⟩

theorem length_flatten_of_forall {ws : List Bytes} {k : Nat} (h : ∀ w ∈ ws, w.length = k) :
    ws.flatten.length = k * ws.length := by
  induction ws with
  | nil => rfl
  | cons w ws ih =>
    rw [List.flatten_cons, List.length_append, h w (by simp), ih (fun v hv => h v (by simp [hv])), List.length_cons,
      Nat.mul_succ, Nat.add_comm]

/-- The key schedule is 176 bytes (R265). -/
theorem length_keySchedule {k : Bytes} (h : k.length = 16) : (keySchedule k).length = 176 := by
  have := length_expandFrom 40 4 [slice k 12 16, slice k 8 12, slice k 4 8, slice k 0 4] (by simp [h]) (by simp)
  rw [keySchedule, length_flatten_of_forall (k := 4) (by simpa using this.2), List.length_reverse, this.1]
  rfl

@[simp] theorem length_shiftRows (s : Bytes) : (shiftRows s).length = 16 := by simp [shiftRows]

/-- A block of AES-128 is 16 bytes, whatever the block that goes in (R266). -/
theorem length_aes128 {k : Bytes} (h : k.length = 16) (x : Bytes) : (aes128 k x).length = 16 := by
  simp [aes128, addRoundKey, length_keySchedule h]

theorem length_omac {k : Bytes} (h : k.length = 16) (t : Byte) (m : Bytes) : (omac t k m).length = 16 :=
  length_aes128 h _

/-- The tag is 8 bytes (R274). -/
theorem length_eaxTag {k : Bytes} (h : k.length = 16) (nonce hdr c : Bytes) : (eaxTag k nonce hdr c).length = 8 := by
  simp [eaxTag, length_omac h]

theorem length_ctrStream {k : Bytes} (h : k.length = 16) (n v : Nat) : (ctrStream k n v).length = 16 * n := by
  induction n generalizing v with
  | zero => rfl
  | succ n ih => rw [ctrStream, List.length_append, length_aes128 h, ih]; omega

/-- CTR mode keeps the length (R273). -/
theorem length_ctr {k : Bytes} (h : k.length = 16) (nonce m : Bytes) : (ctr k nonce m).length = m.length := by
  rw [ctr, length_xorBytes, length_ctrStream h]
  omega

/-- CTR mode is its own inverse (R273). -/
theorem ctr_ctr {k : Bytes} (h : k.length = 16) (nonce m : Bytes) : ctr k nonce (ctr k nonce m) = m := by
  rw [show ctr k nonce (ctr k nonce m) =
      xorBytes (ctr k nonce m) (ctrStream k (((ctr k nonce m).length + 15) / 16) (uBE nonce)) from rfl,
    length_ctr h, ctr]
  exact xorBytes_xorBytes (by rw [length_ctrStream h]; omega)

theorem length_eaxEnc {k : Bytes} (h : k.length = 16) (nonce hdr p : Bytes) :
    (eaxEnc k nonce hdr p).1.length = p.length ∧ (eaxEnc k nonce hdr p).2.length = 8 :=
  ⟨length_ctr h _ _, length_eaxTag h _ _ _⟩

/-- The plaintext of a verified frame is as long as the ciphertext (R275). -/
theorem length_eaxDec {k : Bytes} (h : k.length = 16) {nonce hdr c t p : Bytes} (hd : eaxDec k nonce hdr c t = some p) :
    p.length = c.length := by
  simp only [eaxDec] at hd
  split at hd
  · cases hd
    exact length_ctr h _ _
  · cases hd

/-- EAX decryption of what EAX encryption made verifies and gives the plaintext back (R274, R275). -/
theorem eaxDec_eaxEnc {k : Bytes} (h : k.length = 16) (nonce hdr p : Bytes) :
    eaxDec k nonce hdr (eaxEnc k nonce hdr p).1 (eaxEnc k nonce hdr p).2 = some p := by
  simp only [eaxDec, eaxEnc, if_true, ctr_ctr h]

end Sys2Proof.Machine
end

