-- ==== Sys2Proof/Laws/Memory.lean ====
section
/-! SUPPORT. The laws of `BUF`: what a byte reads as after each memory operation, and that each keeps the canonical
form. -/

namespace Sys2Proof.Machine

theorem cellAt_cellSet (cs : List Host.Cell) (a x : Nat) (v : Byte) :
    cellAt (cellSet cs a v) x = if x = a then some v else cellAt cs x := by
  induction cs with
  | nil => simp only [cellSet, cellAt, eq_comm]
  | cons c cs ih =>
    simp only [cellSet, cellAt]
    by_cases hx : x = a
    · subst hx
      rw [if_pos rfl] at ih ⊢
      split
      · exact if_pos rfl
      · split
        · exact if_pos rfl
        · rename_i h
          rw [cellAt, if_neg (fun e => h e.symm), ih]
    · rw [if_neg hx] at ih ⊢
      have hn : ¬a = x := fun e => hx e.symm
      split
      · rw [cellAt, if_neg hn, cellAt]
      · split
        · rename_i h
          subst h
          rw [cellAt, if_neg hn, if_neg hn]
        · rw [cellAt, ih]

/-- A byte after a write of one byte: the written one at its address, the old one elsewhere (R63). -/
theorem Memory.read_write (m : Memory) (a x : Nat) (v : Byte) :
    (m.write a v).read x = if x = a then v else m.read x := by
  simp only [Memory.read, Memory.write, cellAt_cellSet]
  split <;> rfl

@[simp] theorem Memory.write_epoch (m : Memory) (a : Nat) (v : Byte) : (m.write a v).epoch = m.epoch := rfl

@[simp] theorem Memory.writeBytes_epoch (m : Memory) (a : Nat) (b : Bytes) : (m.writeBytes a b).epoch = m.epoch := by
  induction b generalizing m a with
  | nil => rfl
  | cons c b ih => simp [Memory.writeBytes, ih]

/-- A byte after a store of a string: byte `x - a` of the string inside the stored region, the old byte outside
(R63, R75). -/
theorem Memory.read_writeBytes (m : Memory) (a : Nat) (b : Bytes) (x : Nat) :
    (m.writeBytes a b).read x = if a ≤ x ∧ x < a + b.length then b.getD (x - a) 0 else m.read x := by
  induction b generalizing m a with
  | nil =>
    rw [if_neg (by simp only [List.length_nil]; omega)]
    rfl
  | cons c b ih =>
    rw [Memory.writeBytes, ih, Memory.read_write]
    by_cases h : x = a
    · subst h; simp
    · by_cases h2 : a + 1 ≤ x ∧ x < a + 1 + b.length
      · rw [if_pos h2, if_pos (by simp only [List.length_cons]; omega)]
        obtain ⟨k, hk⟩ : ∃ k, x - a = k + 1 := ⟨x - a - 1, by omega⟩
        rw [hk, List.getD_cons_succ, show x - (a + 1) = k by omega]
      · rw [if_neg h2, if_neg h, if_neg (by simp only [List.length_cons]; omega)]

theorem Memory.length_readBytes (m : Memory) (a n : Nat) : (m.readBytes a n).length = n := by
  simp [Memory.readBytes]

/-- Two memories that read alike on a region hold the same string there (R75). -/
theorem Memory.readBytes_congr {m m' : Memory} {a n : Nat} (h : ∀ x, a ≤ x → x < a + n → m.read x = m'.read x) :
    m.readBytes a n = m'.readBytes a n := by
  apply List.map_congr_left
  intro x hx
  rw [List.mem_range'_1] at hx
  exact h x hx.1 hx.2

theorem Memory.getD_readBytes (m : Memory) (a n k : Nat) (h : k < n) : (m.readBytes a n).getD k 0 = m.read (a + k) := by
  simp [Memory.readBytes, List.getD_eq_getElem?_getD, h]

theorem mem_cellSet {cs : List Host.Cell} {a : Nat} {v : Byte} {c : Host.Cell} (h : c ∈ cellSet cs a v) :
    c = (a, v) ∨ c ∈ cs := by
  induction cs with
  | nil => simp_all [cellSet]
  | cons d cs ih =>
    simp only [cellSet] at h
    split at h
    · simpa using h
    · split at h
      · rcases List.mem_cons.1 h with h | h
        · exact .inl h
        · exact .inr (List.mem_cons_of_mem _ h)
      · rcases List.mem_cons.1 h with h | h
        · exact .inr (by simp [h])
        · rcases ih h with h | h
          · exact .inl h
          · exact .inr (List.mem_cons_of_mem _ h)

/-- A write of one byte keeps the canonical form. -/
theorem Memory.wf_write {m : Memory} (h : m.wf) (a : Nat) (v : Byte) : (m.write a v).wf := by
  obtain ⟨cs, e⟩ := m
  simp only [Memory.wf, Memory.write] at h ⊢
  induction cs with
  | nil => simp [cellSet]
  | cons c cs ih =>
    rw [List.pairwise_cons] at h
    simp only [cellSet]
    split
    · rename_i hlt
      refine List.pairwise_cons.2 ⟨?_, List.pairwise_cons.2 h⟩
      intro d hd
      rcases List.mem_cons.1 hd with rfl | hd
      · exact hlt
      · exact Nat.lt_trans hlt (h.1 d hd)
    · split
      · rename_i heq
        exact List.pairwise_cons.2 ⟨fun d hd => heq ▸ h.1 d hd, h.2⟩
      · refine List.pairwise_cons.2 ⟨fun d hd => ?_, ih h.2⟩
        rcases mem_cellSet hd with rfl | hd
        · show c.1 < a
          omega
        · exact h.1 d hd

/-- A store of a string keeps the canonical form. -/
theorem Memory.wf_writeBytes {m : Memory} (h : m.wf) (a : Nat) (b : Bytes) : (m.writeBytes a b).wf := by
  induction b generalizing m a with
  | nil => exact h
  | cons c b ih => exact ih (Memory.wf_write h a c) (a + 1)

/-- A store lists no address but the old ones and those it stores to. -/
theorem Memory.mem_writeBytes {m : Memory} {a : Nat} {b : Bytes} {c : Host.Cell} (h : c ∈ (m.writeBytes a b).cells) :
    c ∈ m.cells ∨ a ≤ c.1 ∧ c.1 < a + b.length := by
  induction b generalizing m a with
  | nil => exact .inl h
  | cons d b ih =>
    rw [List.length_cons]
    rcases ih h with h | h
    · rcases mem_cellSet h with h | h
      · subst h
        exact .inr ⟨Nat.le_refl _, by show a < a + (b.length + 1); omega⟩
      · exact .inl h
    · omega

theorem State.reset_buf_wf : State.reset.buf.wf := List.Pairwise.nil

end Sys2Proof.Machine
end

