-- ==== Sys2Proof/Laws/State.lean ====
section
/-! SUPPORT. What each update of the state does to each field, all by `rfl`, so that no proof unfolds a record
update. -/

namespace Sys2Proof.Machine

@[simp] theorem complete_eq (rs : List Word) (s : State) : complete rs s = completeWith .ok (resultRegs rs) s := rfl
@[simp] theorem raise_eq (e : ErrCode) (s : State) : raise e s = completeWith e (resultRegs []) s := rfl

/-! ### The fields after completion (R121) -/

@[simp] theorem completeWith_cfg (e : ErrCode) (r : Vector Word 8) (s : State) :
    (completeWith e r s).cfg = s.cfg := rfl
@[simp] theorem completeWith_ie (e : ErrCode) (r : Vector Word 8) (s : State) : (completeWith e r s).ie = s.ie := rfl
@[simp] theorem completeWith_busy (e : ErrCode) (r : Vector Word 8) (s : State) :
    (completeWith e r s).busy = false := rfl
@[simp] theorem completeWith_done (e : ErrCode) (r : Vector Word 8) (s : State) :
    (completeWith e r s).done = true := rfl
@[simp] theorem completeWith_overrun (e : ErrCode) (r : Vector Word 8) (s : State) :
    (completeWith e r s).overrun = s.overrun := rfl
@[simp] theorem completeWith_err (e : ErrCode) (r : Vector Word 8) (s : State) : (completeWith e r s).err = e := rfl
@[simp] theorem completeWith_cmdL (e : ErrCode) (r : Vector Word 8) (s : State) :
    (completeWith e r s).cmdL = s.cmdL := rfl
@[simp] theorem completeWith_argL (e : ErrCode) (r : Vector Word 8) (s : State) :
    (completeWith e r s).argL = s.argL := rfl
@[simp] theorem completeWith_arg (e : ErrCode) (r : Vector Word 8) (s : State) :
    (completeWith e r s).arg = s.arg := rfl
@[simp] theorem completeWith_res (e : ErrCode) (r : Vector Word 8) (s : State) : (completeWith e r s).res = r := rfl
@[simp] theorem completeWith_keyed (e : ErrCode) (r : Vector Word 8) (s : State) :
    (completeWith e r s).keyed = s.keyed := rfl
@[simp] theorem completeWith_iv (e : ErrCode) (r : Vector Word 8) (s : State) : (completeWith e r s).iv = s.iv := rfl
@[simp] theorem completeWith_fakeSig (e : ErrCode) (r : Vector Word 8) (s : State) :
    (completeWith e r s).fakeSig = s.fakeSig := rfl
@[simp] theorem completeWith_kcache (e : ErrCode) (r : Vector Word 8) (s : State) :
    (completeWith e r s).kcache = s.kcache := rfl
@[simp] theorem completeWith_txctr (e : ErrCode) (r : Vector Word 8) (s : State) :
    (completeWith e r s).txctr = s.txctr := rfl
@[simp] theorem completeWith_rq (e : ErrCode) (r : Vector Word 8) (s : State) : (completeWith e r s).rq = s.rq := rfl
@[simp] theorem completeWith_buf (e : ErrCode) (r : Vector Word 8) (s : State) :
    (completeWith e r s).buf = s.buf := rfl
@[simp] theorem completeWith_hazard (e : ErrCode) (r : Vector Word 8) (s : State) :
    (completeWith e r s).hazard = false := rfl
@[simp] theorem completeWith_claimed (e : ErrCode) (r : Vector Word 8) (s : State) :
    (completeWith e r s).claimed = 0 := rfl
@[simp] theorem completeWith_draws (e : ErrCode) (r : Vector Word 8) (s : State) :
    (completeWith e r s).draws = s.draws := rfl
@[simp] theorem completeWith_events (e : ErrCode) (r : Vector Word 8) (s : State) :
    (completeWith e r s).events = s.events := rfl
@[simp] theorem completeWith_bus (e : ErrCode) (r : Vector Word 8) (s : State) :
    (completeWith e r s).bus = s.bus := rfl

/-! ### The fields after issue (R120) -/

@[simp] theorem issue_cfg (w : Word) (s : State) : (issue w s).cfg = s.cfg := rfl
@[simp] theorem issue_ie (w : Word) (s : State) : (issue w s).ie = s.ie := rfl
@[simp] theorem issue_busy (w : Word) (s : State) : (issue w s).busy = true := rfl
@[simp] theorem issue_done (w : Word) (s : State) : (issue w s).done = false := rfl
@[simp] theorem issue_overrun (w : Word) (s : State) : (issue w s).overrun = s.overrun := rfl
@[simp] theorem issue_err (w : Word) (s : State) : (issue w s).err = s.err := rfl
@[simp] theorem issue_cmdL (w : Word) (s : State) : (issue w s).cmdL = w := rfl
@[simp] theorem issue_argL (w : Word) (s : State) : (issue w s).argL = s.arg := rfl
@[simp] theorem issue_arg (w : Word) (s : State) : (issue w s).arg = s.arg := rfl
@[simp] theorem issue_res (w : Word) (s : State) : (issue w s).res = s.res := rfl
@[simp] theorem issue_keyed (w : Word) (s : State) : (issue w s).keyed = s.keyed := rfl
@[simp] theorem issue_iv (w : Word) (s : State) : (issue w s).iv = s.iv := rfl
@[simp] theorem issue_fakeSig (w : Word) (s : State) : (issue w s).fakeSig = s.fakeSig := rfl
@[simp] theorem issue_kcache (w : Word) (s : State) : (issue w s).kcache = s.kcache := rfl
@[simp] theorem issue_txctr (w : Word) (s : State) : (issue w s).txctr = s.txctr := rfl
@[simp] theorem issue_rq (w : Word) (s : State) : (issue w s).rq = s.rq := rfl
@[simp] theorem issue_buf (w : Word) (s : State) : (issue w s).buf = s.buf := rfl
@[simp] theorem issue_hazard (w : Word) (s : State) : (issue w s).hazard = false := rfl
@[simp] theorem issue_claimed (w : Word) (s : State) : (issue w s).claimed = 0 := rfl
@[simp] theorem issue_draws (w : Word) (s : State) : (issue w s).draws = s.draws := rfl
@[simp] theorem issue_events (w : Word) (s : State) : (issue w s).events = s.events := rfl
@[simp] theorem issue_bus (w : Word) (s : State) : (issue w s).bus = s.bus := rfl

/-! ### The fields after a store to `BUF` (R75) -/

@[simp] theorem storeBytes_cfg (a : Nat) (b : Bytes) (s : State) : (storeBytes a b s).cfg = s.cfg := rfl
@[simp] theorem storeBytes_ie (a : Nat) (b : Bytes) (s : State) : (storeBytes a b s).ie = s.ie := rfl
@[simp] theorem storeBytes_busy (a : Nat) (b : Bytes) (s : State) : (storeBytes a b s).busy = s.busy := rfl
@[simp] theorem storeBytes_done (a : Nat) (b : Bytes) (s : State) : (storeBytes a b s).done = s.done := rfl
@[simp] theorem storeBytes_overrun (a : Nat) (b : Bytes) (s : State) : (storeBytes a b s).overrun = s.overrun := rfl
@[simp] theorem storeBytes_err (a : Nat) (b : Bytes) (s : State) : (storeBytes a b s).err = s.err := rfl
@[simp] theorem storeBytes_cmdL (a : Nat) (b : Bytes) (s : State) : (storeBytes a b s).cmdL = s.cmdL := rfl
@[simp] theorem storeBytes_argL (a : Nat) (b : Bytes) (s : State) : (storeBytes a b s).argL = s.argL := rfl
@[simp] theorem storeBytes_arg (a : Nat) (b : Bytes) (s : State) : (storeBytes a b s).arg = s.arg := rfl
@[simp] theorem storeBytes_res (a : Nat) (b : Bytes) (s : State) : (storeBytes a b s).res = s.res := rfl
@[simp] theorem storeBytes_keyed (a : Nat) (b : Bytes) (s : State) : (storeBytes a b s).keyed = s.keyed := rfl
@[simp] theorem storeBytes_iv (a : Nat) (b : Bytes) (s : State) : (storeBytes a b s).iv = s.iv := rfl
@[simp] theorem storeBytes_fakeSig (a : Nat) (b : Bytes) (s : State) : (storeBytes a b s).fakeSig = s.fakeSig := rfl
@[simp] theorem storeBytes_kcache (a : Nat) (b : Bytes) (s : State) : (storeBytes a b s).kcache = s.kcache := rfl
@[simp] theorem storeBytes_txctr (a : Nat) (b : Bytes) (s : State) : (storeBytes a b s).txctr = s.txctr := rfl
@[simp] theorem storeBytes_rq (a : Nat) (b : Bytes) (s : State) : (storeBytes a b s).rq = s.rq := rfl
@[simp] theorem storeBytes_buf (a : Nat) (b : Bytes) (s : State) :
    (storeBytes a b s).buf = s.buf.writeBytes a b := rfl
@[simp] theorem storeBytes_hazard (a : Nat) (b : Bytes) (s : State) : (storeBytes a b s).hazard = s.hazard := rfl
@[simp] theorem storeBytes_claimed (a : Nat) (b : Bytes) (s : State) : (storeBytes a b s).claimed = s.claimed := rfl
@[simp] theorem storeBytes_draws (a : Nat) (b : Bytes) (s : State) : (storeBytes a b s).draws = s.draws := rfl
@[simp] theorem storeBytes_events (a : Nat) (b : Bytes) (s : State) : (storeBytes a b s).events = s.events := rfl
@[simp] theorem storeBytes_bus (a : Nat) (b : Bytes) (s : State) : (storeBytes a b s).bus = s.bus := rfl

/-! ### The fields after a drawn region (R332) -/

@[simp] theorem drawRegion_cfg (s : State) (r : Region) : (drawRegion s r).cfg = s.cfg := rfl
@[simp] theorem drawRegion_ie (s : State) (r : Region) : (drawRegion s r).ie = s.ie := rfl
@[simp] theorem drawRegion_busy (s : State) (r : Region) : (drawRegion s r).busy = s.busy := rfl
@[simp] theorem drawRegion_done (s : State) (r : Region) : (drawRegion s r).done = s.done := rfl
@[simp] theorem drawRegion_overrun (s : State) (r : Region) : (drawRegion s r).overrun = s.overrun := rfl
@[simp] theorem drawRegion_err (s : State) (r : Region) : (drawRegion s r).err = s.err := rfl
@[simp] theorem drawRegion_cmdL (s : State) (r : Region) : (drawRegion s r).cmdL = s.cmdL := rfl
@[simp] theorem drawRegion_argL (s : State) (r : Region) : (drawRegion s r).argL = s.argL := rfl
@[simp] theorem drawRegion_arg (s : State) (r : Region) : (drawRegion s r).arg = s.arg := rfl
@[simp] theorem drawRegion_res (s : State) (r : Region) : (drawRegion s r).res = s.res := rfl
@[simp] theorem drawRegion_keyed (s : State) (r : Region) : (drawRegion s r).keyed = s.keyed := rfl
@[simp] theorem drawRegion_iv (s : State) (r : Region) : (drawRegion s r).iv = s.iv := rfl
@[simp] theorem drawRegion_fakeSig (s : State) (r : Region) : (drawRegion s r).fakeSig = s.fakeSig := rfl
@[simp] theorem drawRegion_kcache (s : State) (r : Region) : (drawRegion s r).kcache = s.kcache := rfl
@[simp] theorem drawRegion_txctr (s : State) (r : Region) : (drawRegion s r).txctr = s.txctr := rfl
@[simp] theorem drawRegion_rq (s : State) (r : Region) : (drawRegion s r).rq = s.rq := rfl
@[simp] theorem drawRegion_hazard (s : State) (r : Region) : (drawRegion s r).hazard = s.hazard := rfl
@[simp] theorem drawRegion_claimed (s : State) (r : Region) : (drawRegion s r).claimed = s.claimed := rfl
@[simp] theorem drawRegion_draws (s : State) (r : Region) : (drawRegion s r).draws = s.draws + 1 := rfl
@[simp] theorem drawRegion_events (s : State) (r : Region) : (drawRegion s r).events = s.events := rfl
@[simp] theorem drawRegion_bus (s : State) (r : Region) : (drawRegion s r).bus = s.bus := rfl

/-! ### The fields after a queue update -/

@[simp] theorem setQueue_cfg (q : Nat) (v : RQueue) (s : State) : (setQueue q v s).cfg = s.cfg := rfl
@[simp] theorem setQueue_ie (q : Nat) (v : RQueue) (s : State) : (setQueue q v s).ie = s.ie := rfl
@[simp] theorem setQueue_busy (q : Nat) (v : RQueue) (s : State) : (setQueue q v s).busy = s.busy := rfl
@[simp] theorem setQueue_done (q : Nat) (v : RQueue) (s : State) : (setQueue q v s).done = s.done := rfl
@[simp] theorem setQueue_overrun (q : Nat) (v : RQueue) (s : State) : (setQueue q v s).overrun = s.overrun := rfl
@[simp] theorem setQueue_err (q : Nat) (v : RQueue) (s : State) : (setQueue q v s).err = s.err := rfl
@[simp] theorem setQueue_cmdL (q : Nat) (v : RQueue) (s : State) : (setQueue q v s).cmdL = s.cmdL := rfl
@[simp] theorem setQueue_argL (q : Nat) (v : RQueue) (s : State) : (setQueue q v s).argL = s.argL := rfl
@[simp] theorem setQueue_arg (q : Nat) (v : RQueue) (s : State) : (setQueue q v s).arg = s.arg := rfl
@[simp] theorem setQueue_res (q : Nat) (v : RQueue) (s : State) : (setQueue q v s).res = s.res := rfl
@[simp] theorem setQueue_keyed (q : Nat) (v : RQueue) (s : State) : (setQueue q v s).keyed = s.keyed := rfl
@[simp] theorem setQueue_iv (q : Nat) (v : RQueue) (s : State) : (setQueue q v s).iv = s.iv := rfl
@[simp] theorem setQueue_fakeSig (q : Nat) (v : RQueue) (s : State) : (setQueue q v s).fakeSig = s.fakeSig := rfl
@[simp] theorem setQueue_kcache (q : Nat) (v : RQueue) (s : State) : (setQueue q v s).kcache = s.kcache := rfl
@[simp] theorem setQueue_txctr (q : Nat) (v : RQueue) (s : State) : (setQueue q v s).txctr = s.txctr := rfl
@[simp] theorem setQueue_rq (q : Nat) (v : RQueue) (s : State) : (setQueue q v s).rq = s.rq.set q v := rfl
@[simp] theorem setQueue_buf (q : Nat) (v : RQueue) (s : State) : (setQueue q v s).buf = s.buf := rfl
@[simp] theorem setQueue_hazard (q : Nat) (v : RQueue) (s : State) : (setQueue q v s).hazard = s.hazard := rfl
@[simp] theorem setQueue_claimed (q : Nat) (v : RQueue) (s : State) : (setQueue q v s).claimed = s.claimed := rfl
@[simp] theorem setQueue_draws (q : Nat) (v : RQueue) (s : State) : (setQueue q v s).draws = s.draws := rfl
@[simp] theorem setQueue_events (q : Nat) (v : RQueue) (s : State) : (setQueue q v s).events = s.events := rfl
@[simp] theorem setQueue_bus (q : Nat) (v : RQueue) (s : State) : (setQueue q v s).bus = s.bus := rfl

/-! ### The fields after a counter update -/

@[simp] theorem setCounter_cfg (p : Nat) (v : TxCounter) (s : State) : (setCounter p v s).cfg = s.cfg := rfl
@[simp] theorem setCounter_ie (p : Nat) (v : TxCounter) (s : State) : (setCounter p v s).ie = s.ie := rfl
@[simp] theorem setCounter_busy (p : Nat) (v : TxCounter) (s : State) : (setCounter p v s).busy = s.busy := rfl
@[simp] theorem setCounter_done (p : Nat) (v : TxCounter) (s : State) : (setCounter p v s).done = s.done := rfl
@[simp] theorem setCounter_overrun (p : Nat) (v : TxCounter) (s : State) :
    (setCounter p v s).overrun = s.overrun := rfl
@[simp] theorem setCounter_err (p : Nat) (v : TxCounter) (s : State) : (setCounter p v s).err = s.err := rfl
@[simp] theorem setCounter_cmdL (p : Nat) (v : TxCounter) (s : State) : (setCounter p v s).cmdL = s.cmdL := rfl
@[simp] theorem setCounter_argL (p : Nat) (v : TxCounter) (s : State) : (setCounter p v s).argL = s.argL := rfl
@[simp] theorem setCounter_arg (p : Nat) (v : TxCounter) (s : State) : (setCounter p v s).arg = s.arg := rfl
@[simp] theorem setCounter_res (p : Nat) (v : TxCounter) (s : State) : (setCounter p v s).res = s.res := rfl
@[simp] theorem setCounter_keyed (p : Nat) (v : TxCounter) (s : State) : (setCounter p v s).keyed = s.keyed := rfl
@[simp] theorem setCounter_iv (p : Nat) (v : TxCounter) (s : State) : (setCounter p v s).iv = s.iv := rfl
@[simp] theorem setCounter_fakeSig (p : Nat) (v : TxCounter) (s : State) :
    (setCounter p v s).fakeSig = s.fakeSig := rfl
@[simp] theorem setCounter_kcache (p : Nat) (v : TxCounter) (s : State) : (setCounter p v s).kcache = s.kcache := rfl
@[simp] theorem setCounter_txctr (p : Nat) (v : TxCounter) (s : State) :
    (setCounter p v s).txctr = s.txctr.setIfInBounds p v := rfl
@[simp] theorem setCounter_rq (p : Nat) (v : TxCounter) (s : State) : (setCounter p v s).rq = s.rq := rfl
@[simp] theorem setCounter_buf (p : Nat) (v : TxCounter) (s : State) : (setCounter p v s).buf = s.buf := rfl
@[simp] theorem setCounter_hazard (p : Nat) (v : TxCounter) (s : State) : (setCounter p v s).hazard = s.hazard := rfl
@[simp] theorem setCounter_claimed (p : Nat) (v : TxCounter) (s : State) :
    (setCounter p v s).claimed = s.claimed := rfl
@[simp] theorem setCounter_draws (p : Nat) (v : TxCounter) (s : State) : (setCounter p v s).draws = s.draws := rfl
@[simp] theorem setCounter_events (p : Nat) (v : TxCounter) (s : State) : (setCounter p v s).events = s.events := rfl
@[simp] theorem setCounter_bus (p : Nat) (v : TxCounter) (s : State) : (setCounter p v s).bus = s.bus := rfl

/-! ### The fields after clearing the cache (R287) -/

@[simp] theorem clearCache_cfg (s : State) : (clearCache s).cfg = s.cfg := rfl
@[simp] theorem clearCache_ie (s : State) : (clearCache s).ie = s.ie := rfl
@[simp] theorem clearCache_busy (s : State) : (clearCache s).busy = s.busy := rfl
@[simp] theorem clearCache_done (s : State) : (clearCache s).done = s.done := rfl
@[simp] theorem clearCache_overrun (s : State) : (clearCache s).overrun = s.overrun := rfl
@[simp] theorem clearCache_err (s : State) : (clearCache s).err = s.err := rfl
@[simp] theorem clearCache_cmdL (s : State) : (clearCache s).cmdL = s.cmdL := rfl
@[simp] theorem clearCache_argL (s : State) : (clearCache s).argL = s.argL := rfl
@[simp] theorem clearCache_arg (s : State) : (clearCache s).arg = s.arg := rfl
@[simp] theorem clearCache_res (s : State) : (clearCache s).res = s.res := rfl
@[simp] theorem clearCache_keyed (s : State) : (clearCache s).keyed = s.keyed := rfl
@[simp] theorem clearCache_iv (s : State) : (clearCache s).iv = s.iv := rfl
@[simp] theorem clearCache_fakeSig (s : State) : (clearCache s).fakeSig = s.fakeSig := rfl
@[simp] theorem clearCache_kcache (s : State) :
    (clearCache s).kcache = s.kcache.map fun e => { e with valid := false } := rfl
@[simp] theorem clearCache_txctr (s : State) : (clearCache s).txctr = s.txctr := rfl
@[simp] theorem clearCache_rq (s : State) : (clearCache s).rq = s.rq := rfl
@[simp] theorem clearCache_buf (s : State) : (clearCache s).buf = s.buf := rfl
@[simp] theorem clearCache_hazard (s : State) : (clearCache s).hazard = s.hazard := rfl
@[simp] theorem clearCache_claimed (s : State) : (clearCache s).claimed = s.claimed := rfl
@[simp] theorem clearCache_draws (s : State) : (clearCache s).draws = s.draws := rfl
@[simp] theorem clearCache_events (s : State) : (clearCache s).events = s.events := rfl
@[simp] theorem clearCache_bus (s : State) : (clearCache s).bus = s.bus := rfl

/-! ### The fields after an answer on the bus (R66) -/

@[simp] theorem respond_cfg (d : Word) (s : State) : (respond d s).cfg = s.cfg := rfl
@[simp] theorem respond_ie (d : Word) (s : State) : (respond d s).ie = s.ie := rfl
@[simp] theorem respond_busy (d : Word) (s : State) : (respond d s).busy = s.busy := rfl
@[simp] theorem respond_done (d : Word) (s : State) : (respond d s).done = s.done := rfl
@[simp] theorem respond_overrun (d : Word) (s : State) : (respond d s).overrun = s.overrun := rfl
@[simp] theorem respond_err (d : Word) (s : State) : (respond d s).err = s.err := rfl
@[simp] theorem respond_cmdL (d : Word) (s : State) : (respond d s).cmdL = s.cmdL := rfl
@[simp] theorem respond_argL (d : Word) (s : State) : (respond d s).argL = s.argL := rfl
@[simp] theorem respond_arg (d : Word) (s : State) : (respond d s).arg = s.arg := rfl
@[simp] theorem respond_res (d : Word) (s : State) : (respond d s).res = s.res := rfl
@[simp] theorem respond_keyed (d : Word) (s : State) : (respond d s).keyed = s.keyed := rfl
@[simp] theorem respond_iv (d : Word) (s : State) : (respond d s).iv = s.iv := rfl
@[simp] theorem respond_fakeSig (d : Word) (s : State) : (respond d s).fakeSig = s.fakeSig := rfl
@[simp] theorem respond_kcache (d : Word) (s : State) : (respond d s).kcache = s.kcache := rfl
@[simp] theorem respond_txctr (d : Word) (s : State) : (respond d s).txctr = s.txctr := rfl
@[simp] theorem respond_rq (d : Word) (s : State) : (respond d s).rq = s.rq := rfl
@[simp] theorem respond_buf (d : Word) (s : State) : (respond d s).buf = s.buf := rfl
@[simp] theorem respond_hazard (d : Word) (s : State) : (respond d s).hazard = s.hazard := rfl
@[simp] theorem respond_claimed (d : Word) (s : State) : (respond d s).claimed = s.claimed := rfl
@[simp] theorem respond_draws (d : Word) (s : State) : (respond d s).draws = s.draws := rfl
@[simp] theorem respond_events (d : Word) (s : State) : (respond d s).events = s.events := rfl
@[simp] theorem respond_bus (d : Word) (s : State) : (respond d s).bus = some { data := d, error := false } := rfl

/-! ### The fields after the bus error response (R66) -/

@[simp] theorem busError_cfg (s : State) : (busError s).cfg = s.cfg := rfl
@[simp] theorem busError_ie (s : State) : (busError s).ie = s.ie := rfl
@[simp] theorem busError_busy (s : State) : (busError s).busy = s.busy := rfl
@[simp] theorem busError_done (s : State) : (busError s).done = s.done := rfl
@[simp] theorem busError_overrun (s : State) : (busError s).overrun = s.overrun := rfl
@[simp] theorem busError_err (s : State) : (busError s).err = s.err := rfl
@[simp] theorem busError_cmdL (s : State) : (busError s).cmdL = s.cmdL := rfl
@[simp] theorem busError_argL (s : State) : (busError s).argL = s.argL := rfl
@[simp] theorem busError_arg (s : State) : (busError s).arg = s.arg := rfl
@[simp] theorem busError_res (s : State) : (busError s).res = s.res := rfl
@[simp] theorem busError_keyed (s : State) : (busError s).keyed = s.keyed := rfl
@[simp] theorem busError_iv (s : State) : (busError s).iv = s.iv := rfl
@[simp] theorem busError_fakeSig (s : State) : (busError s).fakeSig = s.fakeSig := rfl
@[simp] theorem busError_kcache (s : State) : (busError s).kcache = s.kcache := rfl
@[simp] theorem busError_txctr (s : State) : (busError s).txctr = s.txctr := rfl
@[simp] theorem busError_rq (s : State) : (busError s).rq = s.rq := rfl
@[simp] theorem busError_buf (s : State) : (busError s).buf = s.buf := rfl
@[simp] theorem busError_hazard (s : State) : (busError s).hazard = s.hazard := rfl
@[simp] theorem busError_claimed (s : State) : (busError s).claimed = s.claimed := rfl
@[simp] theorem busError_draws (s : State) : (busError s).draws = s.draws := rfl
@[simp] theorem busError_events (s : State) : (busError s).events = s.events := rfl
@[simp] theorem busError_bus (s : State) : (busError s).bus = some { data := 0, error := true } := rfl

/-! ### The fields after a write of `STATUS` (R27) -/

@[simp] theorem writeStatus_cfg (v : Word) (s : State) : (writeStatus v s).cfg = s.cfg := rfl
@[simp] theorem writeStatus_ie (v : Word) (s : State) : (writeStatus v s).ie = s.ie := rfl
@[simp] theorem writeStatus_busy (v : Word) (s : State) : (writeStatus v s).busy = s.busy := rfl
@[simp] theorem writeStatus_done (v : Word) (s : State) : (writeStatus v s).done = (s.done && !v.getLsbD 1) := rfl
@[simp] theorem writeStatus_overrun (v : Word) (s : State) :
    (writeStatus v s).overrun = (s.overrun && !v.getLsbD 2) := rfl
@[simp] theorem writeStatus_err (v : Word) (s : State) : (writeStatus v s).err = s.err := rfl
@[simp] theorem writeStatus_cmdL (v : Word) (s : State) : (writeStatus v s).cmdL = s.cmdL := rfl
@[simp] theorem writeStatus_argL (v : Word) (s : State) : (writeStatus v s).argL = s.argL := rfl
@[simp] theorem writeStatus_arg (v : Word) (s : State) : (writeStatus v s).arg = s.arg := rfl
@[simp] theorem writeStatus_res (v : Word) (s : State) : (writeStatus v s).res = s.res := rfl
@[simp] theorem writeStatus_keyed (v : Word) (s : State) : (writeStatus v s).keyed = s.keyed := rfl
@[simp] theorem writeStatus_iv (v : Word) (s : State) : (writeStatus v s).iv = s.iv := rfl
@[simp] theorem writeStatus_fakeSig (v : Word) (s : State) : (writeStatus v s).fakeSig = s.fakeSig := rfl
@[simp] theorem writeStatus_kcache (v : Word) (s : State) : (writeStatus v s).kcache = s.kcache := rfl
@[simp] theorem writeStatus_txctr (v : Word) (s : State) : (writeStatus v s).txctr = s.txctr := rfl
@[simp] theorem writeStatus_rq (v : Word) (s : State) : (writeStatus v s).rq = s.rq := rfl
@[simp] theorem writeStatus_buf (v : Word) (s : State) : (writeStatus v s).buf = s.buf := rfl
@[simp] theorem writeStatus_hazard (v : Word) (s : State) : (writeStatus v s).hazard = s.hazard := rfl
@[simp] theorem writeStatus_claimed (v : Word) (s : State) : (writeStatus v s).claimed = s.claimed := rfl
@[simp] theorem writeStatus_draws (v : Word) (s : State) : (writeStatus v s).draws = s.draws := rfl
@[simp] theorem writeStatus_events (v : Word) (s : State) : (writeStatus v s).events = s.events := rfl
@[simp] theorem writeStatus_bus (v : Word) (s : State) : (writeStatus v s).bus = s.bus := rfl

end Sys2Proof.Machine
end

