-- ==== Sys2Proof/Laws/Ops.lean ====
section
/-! SUPPORT. For each shared operation, what it can do, said once: completion and errors, the drawn regions, the end
of a command, and the two resets. -/

namespace Sys2Proof.Machine

@[simp] theorem resultRegs_get (rs : List Word) (i : Fin 8) : (resultRegs rs).get i = resultAt rs i := by
  simp [resultRegs, resultAt, Vector.get]
  rfl

/-- A completion with results completes with them (R121). -/
theorem completedWith_resultRegs (e : ErrCode) (rs : List Word) (s : State) :
    CompletedWith e rs (completeWith e (resultRegs rs) s) := ⟨rfl, rfl, rfl, resultRegs_get rs⟩

/-- A normal completion: no error, and the results (R121). -/
theorem completedWith_complete (rs : List Word) (s : State) : CompletedWith .ok rs (complete rs s) :=
  completedWith_resultRegs .ok rs s

/-- An error's completion: the code, and no results (R330). -/
theorem completedWith_raise (e : ErrCode) (s : State) : CompletedWith e [] (raise e s) :=
  completedWith_resultRegs e [] s

theorem sameHostSide_completeWith (e : ErrCode) (r : Vector Word 8) (s : State) :
    SameHostSide s (completeWith e r s) := ⟨rfl, rfl, rfl, rfl, rfl, rfl, rfl, rfl⟩

theorem SameHostSide.trans {s t u : State} (h : SameHostSide s t) (k : SameHostSide t u) : SameHostSide s u := by
  obtain ⟨h1, h2, h3, h4, h5, h6, h7, h8⟩ := h
  obtain ⟨k1, k2, k3, k4, k5, k6, k7, k8⟩ := k
  exact ⟨k1.trans h1, k2.trans h2, k3.trans h3, k4.trans h4, k5.trans h5, k6.trans h6, k7.trans h7, k8.trans h8⟩

/-! ### Regions -/

theorem inRegion_iff (r : Region) (a : Nat) : inRegion r a = true ↔ r.start ≤ a ∧ a < r.start + r.len := by
  simp [inRegion]

theorem inRegions_cons (r : Region) (rs : List Region) (a : Nat) :
    inRegions (r :: rs) a = (inRegion r a || inRegions rs a) := rfl

@[simp] theorem inRegions_nil (a : Nat) : inRegions [] a = false := rfl

/-- Every byte of `BUF` outside a drawn region reads as before (R332, R362). -/
theorem drawRegion_read {s : State} {r : Region} {a : Nat} (h : inRegion r a = false) :
    (drawRegion s r).buf.read a = s.buf.read a := by
  have h' : ¬(r.start ≤ a ∧ a < r.start + r.len) := fun k => by simp [(inRegion_iff r a).2 k] at h
  simp only [drawRegion, Memory.read_writeBytes, List.length_map, List.length_range', clipRegion]
  rw [if_neg (by omega)]

theorem drawRegion_wf {s : State} (h : s.buf.wf) (r : Region) : (drawRegion s r).buf.wf := Memory.wf_writeBytes h _ _

/-- A drawn region lists only addresses of `BUF` besides the old ones (R362). -/
theorem mem_drawRegion {s : State} {r : Region} {c : Host.Cell} (h : c ∈ (drawRegion s r).buf.cells) :
    c ∈ s.buf.cells ∨ c.1 < s.cfg.bufSize := by
  rcases Memory.mem_writeBytes h with h | h
  · exact .inl h
  · simp only [List.length_map, List.length_range', clipRegion] at h
    omega

/-- Drawing regions changes `BUF` inside them and the number of draws, and nothing else (R362). -/
theorem drawRegions_cases (rs : List Region) (s : State) :
    ∃ m k, drawRegions rs s = { s with buf := m, draws := k } ∧
      (∀ a, inRegions rs a = false → m.read a = s.buf.read a) ∧ (s.buf.wf → m.wf) ∧
      ∀ c ∈ m.cells, c ∈ s.buf.cells ∨ c.1 < s.cfg.bufSize := by
  induction rs generalizing s with
  | nil => exact ⟨s.buf, s.draws, rfl, fun _ _ => rfl, id, fun _ => .inl⟩
  | cons r rs ih =>
    obtain ⟨m, k, he, hr, hw, hc⟩ := ih (drawRegion s r)
    refine ⟨m, k, by rw [drawRegions, List.foldl_cons, ← drawRegions, he]; rfl, ?_, ?_, ?_⟩
    · intro a ha
      rw [inRegions_cons, Bool.or_eq_false_iff] at ha
      rw [hr a ha.2, drawRegion_read ha.1]
    · exact fun h => hw (drawRegion_wf h r)
    · intro c h
      rcases hc c h with h | h
      · exact mem_drawRegion h
      · exact .inr h

/-- What the checks of DECOMPRESS say where they all pass (R151). -/
theorem decompressHead_ok {s : State} {b : Bytes} {f : LzFields} (h : decompressHead s = .ok (b, f)) :
    b = readRegion s (opndRegion s 0 1) ∧ lzParse b = some f ∧ inRange s.cfg (opndRegion s 0 1) = true ∧
      f.dlen < opnd s 3 ∧ inRange s.cfg { start := opnd s 2, len := f.dlen } = true ∧
      regionsOverlap (opndRegion s 0 1) { start := opnd s 2, len := f.dlen } = false := by
  simp only [decompressHead] at h
  repeat' split at h
  all_goals cases h
  rename_i hr _ hp hm hd ho
  simp only [Bool.not_eq_true', Bool.not_eq_false, Bool.not_eq_true] at hr hd ho
  exact ⟨rfl, hp, hr, by omega, hd, ho⟩

/-- The claimed size where the checks of DECOMPRESS pass (R151). -/
theorem claimedSize_of_ok {s : State} {b : Bytes} {f : LzFields} (h : decompressHead s = .ok (b, f)) :
    claimedSize s = f.dlen := by
  simp [claimedSize, h]

/-- No size is claimed where a check of DECOMPRESS fails (R151). -/
theorem claimedSize_of_error {s : State} {e : ErrCode} (h : decompressHead s = .error e) : claimedSize s = 0 := by
  simp [claimedSize, h]

/-- The output region of a DECOMPRESS holds every byte of the data that its block claims (R151, R362). -/
theorem inRegions_decompressOutput {s : State} {b : Bytes} {f : LzFields} (h : decompressHead s = .ok (b, f)) {a : Nat}
    (ha : inRegion { start := opnd s 2, len := f.dlen } a = true) : inRegions (decompressOutput s) a = true := by
  rw [inRegion_iff] at ha
  simp only [decompressOutput, claimedSize_of_ok h, inRegions_cons, inRegions_nil, Bool.or_false, inRegion_iff]
  dsimp only at *
  omega

/-! ### The end of a command -/

/-- `finish` answers its rule's state, unless the host wrote into a region of the command (R70). -/
theorem finish_cases {i : Instr} {s n t : State} (h : finish i s n = .next t) :
    s.hazard = false ∧ t = n ∨ s.hazard = true ∧ t = hazardComplete i s := by
  cases hz : s.hazard <;> simp only [finish, hz] at h <;> cases h <;> simp

theorem finish_of_no_hazard {i : Instr} {s n : State} (h : s.hazard = false) : finish i s n = .next n := by
  simp [finish, h]

/-- Only CRYPTO_INIT has an outcome in the crypto state when the host writes into its regions (R70). -/
theorem hazardCrypto_of_ne {i : Instr} (h : i ≠ .cryptoInit) (s : State) : hazardCrypto i s = s := by
  cases i <;> first | rfl | exact absurd rfl h

/-- A CRYPTO_INIT into whose regions the host wrote: the crypto state as before, or keyed with some IV and fake
signature and an empty cache (R70). -/
theorem hazardCrypto_cases (s : State) :
    hazardCrypto .cryptoInit s = { s with draws := s.draws + 3 } ∨
      ∃ iv f, hazardCrypto .cryptoInit s =
        clearCache { s with keyed := true, iv := iv, fakeSig := f, draws := s.draws + 3 } := by
  simp only [hazardCrypto]
  split
  · exact .inr ⟨_, _, rfl⟩
  · exact .inl rfl

/-- A completion under a hazard of a command other than CRYPTO_INIT: `RES`, `ERR` and the output regions are any
values, and nothing else changes (R70). -/
theorem hazardComplete_cases {i : Instr} (h : i ≠ .cryptoInit) (s : State) :
    ∃ e r m k, hazardComplete i s = completeWith e r { s with buf := m, draws := k } ∧
      (∀ a, inRegions (outputRegions i s) a = false → m.read a = s.buf.read a) ∧ (s.buf.wf → m.wf) ∧
      ∀ c ∈ m.cells, c ∈ s.buf.cells ∨ c.1 < s.cfg.bufSize := by
  obtain ⟨m, k, he, hr, hw, hc⟩ := drawRegions_cases (outputRegions i s) s
  exact ⟨_, _, m, k + 1, by simp only [hazardComplete, hazardCrypto_of_ne h, he]; rfl, hr, hw, hc⟩

/-- A CRYPTO_INIT completes under a hazard from the state that `hazardCrypto` gives. -/
theorem hazardComplete_cryptoInit (s : State) :
    ∃ e r k, hazardComplete .cryptoInit s = completeWith e r { hazardCrypto .cryptoInit s with draws := k } :=
  ⟨_, _, _, rfl⟩

/-! ### Resets -/

/-- A soft reset keeps the parameters, the events to come and `BUF` outside the output regions of the aborted command;
everything else takes its power-on value (R362). -/
theorem softReset_cases (s : State) :
    ∃ m k, softReset s = { State.powerOn s.cfg with buf := m, draws := k, events := s.events } ∧
      (∀ a, inRegions (runningOutput s) a = false → m.read a = s.buf.read a) ∧ (s.busy = false → m = s.buf) ∧
      (s.buf.wf → m.wf) ∧ ∀ c ∈ m.cells, c ∈ s.buf.cells ∨ c.1 < s.cfg.bufSize := by
  by_cases hb : s.busy = true
  · obtain ⟨m, k, he, hr, hw, hc⟩ := drawRegions_cases (runningOutput s) s
    exact ⟨m, k, by simp only [softReset, if_pos hb, softResetRest, he], hr, by simp [hb], hw, hc⟩
  · exact ⟨s.buf, s.draws, by simp only [softReset, if_neg hb, softResetRest], fun _ _ => rfl, fun _ => rfl, id,
      fun _ => .inl⟩

/-- The power-on state of any parameters has the values of R361. -/
theorem resetValues_powerOn (c : Config) (m : Memory) (k : Nat) (es : List Event) (b : Option BusResponse) :
    ResetValues { State.powerOn c with buf := m, draws := k, events := es, bus := b } := by
  refine ⟨rfl, by simp [statusWord, State.powerOn, flagBit, errNumber], rfl, ?_, rfl, rfl, ?_, ?_, ?_, ?_, ?_, ?_⟩
  · intro i
    simp [State.powerOn, Vector.get]
  · simp [State.powerOn]
  · simp [State.powerOn]
  · simp [State.powerOn, KEntry.invalid]
  · simp [State.powerOn]
  · simp [State.powerOn]
  · intro q hq
    rw [show q = RQueue.empty c.rqCapacity 0 0 from List.eq_of_mem_replicate hq]
    refine ⟨rfl, rfl, by simp [RQueue.empty, State.powerOn], fun v hv => ?_⟩
    rw [show v = ⟨false, 0⟩ from List.eq_of_mem_replicate hv]
    exact ⟨rfl, rfl⟩

/-! ### The parameters -/

/-- The parameters of `State.reset` are legal (R9). -/
theorem params_legal : Config.params.legal := by
  rw [Config.params]
  split
  · assumption
  · decide

end Sys2Proof.Machine
end

