-- ==== Sys2Proof/Laws/HostPort.lean ====
section
/-! SUPPORT. The host port and the step: which access reaches which register or byte of `BUF`, and what a step does by
the next event. -/

namespace Sys2Proof.Machine

/-! ### The step by its next event -/

theorem step_of_no_event {s : State} (h : s.events = []) :
    step s = if s.busy then engineStep s else .next s := by
  simp only [step, h]

theorem step_of_engine {s : State} {rest : List Event} (h : s.events = .engine :: rest) :
    step s = if s.busy then engineStep { s with events := rest } else .next { s with events := rest } := by
  simp only [step, h]

theorem step_of_access {s : State} {a : Access} {rest : List Event} (h : s.events = .access a :: rest) :
    step s = serveAccess a { s with events := rest } := by
  simp only [step, h]

theorem step_of_powerOn {s : State} {rest : List Event} (h : s.events = .powerOn :: rest) :
    step s = .next (powerOnReset { s with events := rest }) := by
  simp only [step, h]

theorem engineStep_of_decode {s : State} {i : Instr} (h : decode s.cmdL = .ok i) : engineStep s = exec i s := by
  simp only [engineStep, h]

/-- A run is its first step and the run of the rest, for the host's machine as for any. -/
theorem run_succ (M : Host.Core) {k : Nat} {s t : M.State} (h : M.step s = .next t) :
    M.run (k + 1) s = M.run k t := by
  rw [Host.Core.run, h]

/-! ### The two windows -/

/-- The buffer window holds `BUF` (R62). -/
theorem bufSize_le_window {c : Config} (h : c.legal) : c.bufSize ≤ c.bufWindowSize := by
  have := @Nat.lt_log2_self (c.bufSize - 1)
  rw [Config.bufWindowSize]
  have := h.1
  omega

/-- An access in the register window reaches the register window (R61). -/
theorem serveAccess_reg {a : Access} {s : State} {off : Nat} (ha : accessAddr a = s.cfg.regBase + off)
    (h : off < 4096) : serveAccess a s = .next (serveReg a off s) := by
  have hw : inRegWindow s.cfg (accessAddr a) = true := by
    simp only [ha, inRegWindow, regWindowSize, Bool.and_eq_true, decide_eq_true_eq]
    exact ⟨Nat.le_add_right _ _, Nat.add_lt_add_left h _⟩
  rw [serveAccess, if_pos hw, ha, Nat.add_sub_cancel_left]

/-- An access in the buffer window reaches the buffer window, and not the registers (R61, R62). -/
theorem serveAccess_buf {a : Access} {s : State} {off : Nat} (hl : s.cfg.legal)
    (ha : accessAddr a = s.cfg.bufBase + off) (h : off < s.cfg.bufWindowSize) :
    serveAccess a s = .next (serveBuf a off s) := by
  have hd := hl.2.2.2.2.2.2.2
  have hr : ¬inRegWindow s.cfg (accessAddr a) = true := by
    simp only [regWindowSize] at hd
    simp only [ha, inRegWindow, regWindowSize, Bool.and_eq_true, decide_eq_true_eq]
    omega
  have hb : inBufWindow s.cfg (accessAddr a) = true := by
    simp only [ha, inBufWindow, Bool.and_eq_true, decide_eq_true_eq]
    exact ⟨Nat.le_add_right _ _, Nat.add_lt_add_left h _⟩
  rw [serveAccess, if_neg hr, if_pos hb, ha, Nat.add_sub_cancel_left]

/-- An access that is served is served by one of the two windows, whatever the parameters. -/
theorem serveAccess_cases {a : Access} {s t : State} (h : serveAccess a s = .next t) :
    t = serveReg a (accessAddr a - s.cfg.regBase) s ∨ t = serveBuf a (accessAddr a - s.cfg.bufBase) s := by
  rw [serveAccess] at h
  split at h
  · exact .inl (by injection h with h; exact h.symm)
  · split at h
    · exact .inr (by injection h with h; exact h.symm)
    · cases h

/-! ### The registers -/

theorem regAt_arg (i : Fin 8) : regAt (0x020 + 4 * i.val) = .arg i := by
  revert i; decide

theorem regAt_res (i : Fin 8) : regAt (0x040 + 4 * i.val) = .res i := by
  revert i; decide

/-- Every offset past the named registers is reserved (R33). -/
theorem regAt_reserved {off : Nat} (h : off = 0x018 ∨ off = 0x01C ∨ 0x060 ≤ off) : regAt off = .reserved := by
  rcases h with rfl | rfl | h
  · rfl
  · rfl
  · rw [regAt]
    repeat rw [if_neg (by omega)]

/-- Only one offset is `STATUS` (Table 10-1). -/
theorem regAt_eq_status {off : Nat} (h : regAt off = .status) : off = 0x010 := by
  unfold regAt at h
  repeat' split at h
  all_goals first | assumption | cases h

/-- Only one offset is `CTRL` (Table 10-1). -/
theorem regAt_eq_ctrl {off : Nat} (h : regAt off = .ctrl) : off = 0x00C := by
  unfold regAt at h
  repeat' split at h
  all_goals first | assumption | cases h

/-- A register write that R66 admits (R65). -/
theorem serveReg_write {s : State} {addr off : Nat} {v : Word} (h : off % 4 = 0) :
    serveReg (.write .word addr v) off s = respond 0 (writeReg (regAt off) v s) := by
  simp [serveReg, regAccessLegal, h]

/-- A register read that R66 admits (R65). -/
theorem serveReg_read {s : State} {addr off : Nat} (h : off % 4 = 0) :
    serveReg (.read .word addr) off s = readReg (regAt off) s := by
  simp [serveReg, regAccessLegal, h]

/-- A step on a write of the register at an offset. -/
theorem step_writeReg {s : State} {rest : List Event} {off : Nat} {v : Word}
    (h : s.events = .access (.write .word (s.cfg.regBase + off) v) :: rest) (hlt : off < 4096) (h4 : off % 4 = 0) :
    step s = .next (respond 0 (writeReg (regAt off) v { s with events := rest })) := by
  rw [step_of_access h, serveAccess_reg (off := off) (s := { s with events := rest }) rfl hlt, serveReg_write h4]

/-- A step on a read of the register at an offset. -/
theorem step_readReg {s : State} {rest : List Event} {off : Nat}
    (h : s.events = .access (.read .word (s.cfg.regBase + off)) :: rest) (hlt : off < 4096) (h4 : off % 4 = 0) :
    step s = .next (readReg (regAt off) { s with events := rest }) := by
  rw [step_of_access h, serveAccess_reg (off := off) (s := { s with events := rest }) rfl hlt, serveReg_read h4]

/-- A read of a register changes the answer on the bus, and the number of draws where it reads `RES` while busy
(R30, R68). -/
theorem readReg_cases (r : Reg) (s : State) :
    ∃ d k, readReg r s = respond d { s with draws := k } ∧ (s.busy = false → k = s.draws) := by
  cases r with
  | res i =>
    by_cases h : s.busy = true
    · exact ⟨_, _, by simp only [readReg, if_pos h]; rfl, by simp [h]⟩
    · exact ⟨_, s.draws, by simp only [readReg, if_neg h]; rfl, fun _ => rfl⟩
  | _ => exact ⟨_, s.draws, rfl, fun _ => rfl⟩

/-- A read of `BUF` changes the answer on the bus, and the number of draws while busy (R68, R70). -/
theorem readBuf_cases (w : Width) (off : Nat) (s : State) :
    ∃ d k, readBuf w off s = respond d { s with draws := k } ∧ (s.busy = false → k = s.draws) := by
  by_cases h : s.busy = true
  · exact ⟨_, _, by simp only [readBuf, if_pos h]; rfl, by simp [h]⟩
  · exact ⟨_, s.draws, by simp only [readBuf, if_neg h]; rfl, fun _ => rfl⟩

/-- A write of `BUF` stores bytes, may mark a hazard and may raise the claimed size, both only while a command runs, and
does nothing else (R65, R70). -/
theorem writeBuf_cases (w : Width) (off : Nat) (v : Word) (s : State) :
    ∃ b c, writeBuf w off v s = storeBytes off (leBytes (widthBytes w) v.toNat) { s with hazard := b, claimed := c } ∧
      (b = true → s.hazard = true ∨ s.busy = true) ∧ (s.busy = false → c = s.claimed) := by
  refine ⟨_, _, rfl, fun h => ?_, fun h => by simp [runningClaim, h]⟩
  rw [Bool.or_eq_true, Bool.and_eq_true] at h
  exact h.imp id And.left

end Sys2Proof.Machine
end

