-- ==== Sys2Proof/Laws/Lz.lean ====
section
/-! SUPPORT. The lengths of what the codec's decoder makes. -/

namespace Sys2Proof.Machine

@[simp] theorem length_lzCopy (o k : Nat) (d : Bytes) : (lzCopy o k d).length = d.length + k := by
  induction k generalizing o d with
  | zero => rfl
  | succ k ih => rw [lzCopy, ih, List.length_append, List.length_singleton]; omega

theorem lzReadControl_out {b : Bytes} {clen : Nat} {d e : LzDec} (h : lzReadControl b clen d = some e) :
    e.out = d.out := by
  simp only [lzReadControl] at h
  split at h
  · split at h <;> cases h
    rfl
  · cases h
    rfl

/-- A match adds at least one byte and never passes the claimed size (R146). -/
theorem lzDecodeMatch_length {b : Bytes} {clen dlen : Nat} {d e : LzDec}
    (h : lzDecodeMatch b clen dlen d = some e) : d.out.length < e.out.length ∧ e.out.length ≤ dlen := by
  simp only [lzDecodeMatch] at h
  repeat' split at h
  all_goals cases h
  all_goals
    simp only [length_lzCopy]
    omega

/-- A literal adds one byte (R146). -/
theorem lzDecodeLiteral_length {b : Bytes} {clen : Nat} {d e : LzDec} (h : lzDecodeLiteral b clen d = some e) :
    e.out.length = d.out.length + 1 := by
  simp only [lzDecodeLiteral] at h
  split at h
  · cases h
  · cases h
    simp

/-- The tail adds the literals that it is given (R146). -/
theorem lzDecodeTail_length {b : Bytes} {clen k : Nat} {d : LzDec} {out : Bytes}
    (h : lzDecodeTail b clen k d = some out) : out.length = d.out.length + k := by
  induction k generalizing d with
  | zero => cases h; rfl
  | succ k ih =>
    simp only [lzDecodeTail] at h
    repeat' split at h
    all_goals try cases h
    all_goals
      have := ih h
      simp only [List.length_append, List.length_singleton] at this
      omega

/-- The loop of the decoder ends with exactly the claimed size (R146). -/
theorem lzDecodeLoop_length {b : Bytes} {clen dlen fuel : Nat} {d : LzDec} {out : Bytes}
    (h : lzDecodeLoop b clen dlen fuel d = some out) (hd : d.out.length ≤ dlen) (hf : dlen < d.out.length + fuel) :
    out.length = dlen := by
  induction fuel generalizing d with
  | zero => omega
  | succ fuel ih =>
    rw [lzDecodeLoop] at h
    split at h
    · rename_i he
      cases h
      exact he
    · rename_i hne
      split at h
      · cases h
      · rename_i d' hc
        have ho : d'.out.length = d.out.length := by rw [lzReadControl_out hc]
        split at h
        · split at h
          · cases h
          · rename_i e hm
            have := lzDecodeMatch_length hm
            exact ih h this.2 (by omega)
        · split at h
          · split at h
            · cases h
            · rename_i e hl
              have := lzDecodeLiteral_length hl
              exact ih h (by omega) (by omega)
          · have := lzDecodeTail_length h
            omega

/-- What the decoder gives is exactly as long as the block claims (R146). -/
theorem length_lzDecode {b : Bytes} {f : LzFields} {out : Bytes} (h : lzDecode b f = .ok out) :
    out.length = f.dlen := by
  simp only [lzDecode] at h
  split at h
  · cases h
  · split at h
    · cases h
    · rename_i hc
      split at h
      · split at h
        · cases h
        · cases h
          simp only [length_slice]
          omega
      · split at h
        · cases h
        · rename_i he
          cases h
          exact lzDecodeLoop_length he (Nat.zero_le _) (by simp)

/-- The decoder raises only `LEVEL` and `FORMAT` (R147). -/
theorem lzDecode_error {b : Bytes} {f : LzFields} {e : ErrCode} (h : lzDecode b f = .error e) :
    e = .level ∨ e = .format := by
  simp only [lzDecode] at h
  repeat' split at h
  all_goals cases h
  all_goals simp

end Sys2Proof.Machine
end

