-- ==== Sys2Proof/Laws/PerInstr.lean ====
section
/-! SUPPORT. The per-command family `OpcodeKept`: the word of a command is a word of its own row of Table 30-1. -/

namespace Sys2Proof

theorem selFits_lt {v : Nat} (h : selFits v = true) : v < 16 := by simpa [selFits] using h

theorem levelFits_lt {v : Nat} (h : levelFits v = true) : v < 256 := by simpa [levelFits] using h

/-- A field value that fits `LEVEL` leaves the opcode of its row as it is (R100). -/
theorem placeLevel_row : ∀ v < 256,
    (fieldOp (0x03 ||| placeLevel v) = 0x03 ∧ (0x03 ||| placeLevel v) &&& 0xFF00FFFF = 0x03#32) ∧
    (fieldOp (0x10 ||| placeLevel v) = 0x10 ∧ (0x10 ||| placeLevel v) &&& 0xFF00FFFF = 0x10#32) := by
  decide +kernel

/-- The word of a well-formed command has its opcode in bits 7:0, and matches its row's match under the row's mask
(R101, R108). -/
def Laws.OpcodeKept.Statement (i : Instr) : Prop :=
  i.wellFormed = true → fieldOp (encode i) = (opcodeOf i).toNat ∧ encode i &&& maskOf i = opcodeOf i

theorem Laws.OpcodeKept.nop : Laws.OpcodeKept.Statement .nop := by
  intro _; decide

theorem Laws.OpcodeKept.hash (alg : HashAlg) : Laws.OpcodeKept.Statement (.hash alg) := by
  intro _; cases alg <;> decide

theorem Laws.OpcodeKept.powLevel : Laws.OpcodeKept.Statement .powLevel := by
  intro _; decide

theorem Laws.OpcodeKept.powSearch (v : Nat) : Laws.OpcodeKept.Statement (.powSearch v) := fun h =>
  (placeLevel_row v (levelFits_lt h)).1

theorem Laws.OpcodeKept.compress (v : Nat) : Laws.OpcodeKept.Statement (.compress v) := fun h =>
  (placeLevel_row v (levelFits_lt h)).2

theorem Laws.OpcodeKept.decompress : Laws.OpcodeKept.Statement .decompress := by
  intro _; decide

theorem Laws.OpcodeKept.lzCsize : Laws.OpcodeKept.Statement .lzCsize := by
  intro _; decide

theorem Laws.OpcodeKept.lzDsize : Laws.OpcodeKept.Statement .lzDsize := by
  intro _; decide

theorem Laws.OpcodeKept.rqInit (v : Nat) : Laws.OpcodeKept.Statement (.rqInit v) := by
  intro h
  have hv : v < 16 := selFits_lt h
  interval_cases v <;> decide

theorem Laws.OpcodeKept.rqSet (v : Nat) : Laws.OpcodeKept.Statement (.rqSet v) := by
  intro h
  have hv : v < 16 := selFits_lt h
  interval_cases v <;> decide

theorem Laws.OpcodeKept.rqDequeue (v : Nat) : Laws.OpcodeKept.Statement (.rqDequeue v) := by
  intro h
  have hv : v < 16 := selFits_lt h
  interval_cases v <;> decide

theorem Laws.OpcodeKept.rqIsSet (v : Nat) : Laws.OpcodeKept.Statement (.rqIsSet v) := by
  intro h
  have hv : v < 16 := selFits_lt h
  interval_cases v <;> decide

theorem Laws.OpcodeKept.rqGen (v : Nat) : Laws.OpcodeKept.Statement (.rqGen v) := by
  intro h
  have hv : v < 16 := selFits_lt h
  interval_cases v <;> decide

theorem Laws.OpcodeKept.rqStatus (v : Nat) : Laws.OpcodeKept.Statement (.rqStatus v) := by
  intro h
  have hv : v < 16 := selFits_lt h
  interval_cases v <;> decide

theorem Laws.OpcodeKept.seqNext (v : Nat) : Laws.OpcodeKept.Statement (.seqNext v) := by
  intro h
  have hv : v < 16 := selFits_lt h
  interval_cases v <;> decide

theorem Laws.OpcodeKept.seqRead (v : Nat) : Laws.OpcodeKept.Statement (.seqRead v) := by
  intro h
  have hv : v < 16 := selFits_lt h
  interval_cases v <;> decide

theorem Laws.OpcodeKept.seqSet (v : Nat) : Laws.OpcodeKept.Statement (.seqSet v) := by
  intro h
  have hv : v < 16 := selFits_lt h
  interval_cases v <;> decide

theorem Laws.OpcodeKept.seqDiff : Laws.OpcodeKept.Statement .seqDiff := by
  intro _; decide

theorem Laws.OpcodeKept.seqResolve : Laws.OpcodeKept.Statement .seqResolve := by
  intro _; decide

theorem Laws.OpcodeKept.cryptoInit : Laws.OpcodeKept.Statement .cryptoInit := by
  intro _; decide

theorem Laws.OpcodeKept.cryptoReset : Laws.OpcodeKept.Statement .cryptoReset := by
  intro _; decide

theorem Laws.OpcodeKept.deriveKey (v : Nat) (dir : Dir) : Laws.OpcodeKept.Statement (.deriveKey v dir) := by
  intro h
  have hv : v < 16 := selFits_lt h
  interval_cases v <;> cases dir <;> decide

theorem Laws.OpcodeKept.encrypt (dir : Dir) : Laws.OpcodeKept.Statement (.encrypt dir) := by
  intro _; cases dir <;> decide

theorem Laws.OpcodeKept.decrypt (dir : Dir) : Laws.OpcodeKept.Statement (.decrypt dir) := by
  intro _; cases dir <;> decide

end Sys2Proof
end

