-- ==== Sys2Proof/Laws/Units.lean ====
section
/-! SUPPORT. The queues, the counters, the key cache and the keys of a frame: what each shared operation over them can
do, said once. -/

namespace Sys2Proof.Machine

/-! ### Queues and counters -/

/-- A queue after one was put (R47). -/
theorem queueOf_setQueue (s : State) (q p : Nat) (v : RQueue) :
    queueOf (setQueue q v s) p = if p = q ∧ q < s.rq.length then v else queueOf s p := by
  simp only [queueOf, setQueue_rq, List.getD_eq_getElem?_getD, List.getElem?_set]
  split
  · rename_i h
    subst h
    split
    · rename_i h
      rw [if_pos ⟨rfl, h⟩]
      rfl
    · rename_i h
      rw [if_neg (fun k => h k.2), List.getElem?_eq_none (by omega)]
  · rename_i h
    rw [if_neg (fun k => h k.1.symm)]

/-- A slot after one was put (R161). -/
theorem slotOf_setSlot (v : RQueue) (k j : Nat) (x : Slot) :
    slotOf (setSlot k x v) j = if j = k ∧ k < v.slots.length then x else slotOf v j := by
  simp only [slotOf, setSlot, List.getD_eq_getElem?_getD, List.getElem?_set]
  split
  · rename_i h
    subst h
    split
    · rename_i h
      rw [if_pos ⟨rfl, h⟩]
      rfl
    · rename_i h
      rw [if_neg (fun k => h k.2), List.getElem?_eq_none (by omega)]
  · rename_i h
    rw [if_neg (fun k => h k.1.symm)]

/-- A counter after one was put (R45). -/
theorem counterOf_setCounter (s : State) (p j : Nat) (v : TxCounter) :
    counterOf (setCounter p v s) j = if j = p ∧ p ≤ 8 then v else counterOf s j := by
  simp only [counterOf, setCounter_txctr, Vector.getElem?_setIfInBounds]
  split
  · rename_i h
    subst h
    split
    · rw [if_pos ⟨rfl, by omega⟩]
      rfl
    · rename_i h
      rw [if_neg (by omega), Vector.getElem?_eq_none (by omega)]
  · rename_i h
    rw [if_neg (fun k => h k.1.symm)]

/-- A queue of a state of the right shape has RQ_CAPACITY slots (R47). -/
theorem QueueShape.length_slots {s : State} (h : QueueShape s) {q : Nat} (hq : q < s.cfg.rqCount) :
    (queueOf s q).slots.length = s.cfg.rqCapacity := by
  have hq' : q < s.rq.length := by rw [h.1]; exact hq
  refine (h.2 (queueOf s q) ?_).1
  rw [queueOf, List.getD_eq_getElem?_getD, List.getElem?_eq_getElem hq']
  exact List.getElem_mem hq'

/-- Generation and id as one 48-bit number: adding one to the id and counting its wrap adds one (R164, R183). -/
theorem bumpGen_toNat (id : BitVec 16) (gen : BitVec 32) :
    (bumpGen (id + 1) gen).toNat * 65536 + (id + 1).toNat = (gen.toNat * 65536 + id.toNat + 1) % 2 ^ 48 := by
  have hg := gen.isLt
  have hi := id.isLt
  have e : (id + 1).toNat = (id.toNat + 1) % 65536 := by simp [BitVec.toNat_add]
  rw [bumpGen]
  split
  · rename_i h
    have h0 : (id + 1).toNat = 0 := by rw [h]; rfl
    have : (gen + 1).toNat = (gen.toNat + 1) % 2 ^ 32 := by simp [BitVec.toNat_add]
    omega
  · rename_i h
    have h0 : (id + 1).toNat ≠ 0 := fun k => h (BitVec.eq_of_toNat_eq (by simpa using k))
    omega

/-- The class of an id by its distance from the window's start (R160). -/
theorem classOf_eq (n : Nat) (start id : BitVec 16) :
    classOf n start id =
      (let d := (id.toNat + 65536 - start.toNat) % 65536
       if d < n then .inside else if 0x8000 ≤ d then .below else .above) := by
  have := start.isLt
  have e : (id - start).toNat = (id.toNat + 65536 - start.toNat) % 65536 := by
    rw [BitVec.toNat_sub]
    congr 1
    omega
  simp only [classOf, e]

/-! ### The key cache and the keys of a frame -/

theorem length_deriveKN (iv : Bytes) (dir : Dir) (t : Nat) (gen : BitVec 32) :
    (deriveKN iv dir t gen).1.length = 16 ∧ (deriveKN iv dir t gen).2.length = 16 := by
  simp [deriveKN]

theorem length_packetKey {key : Bytes} (h : key.length = 16) (pid : BitVec 16) : (packetKey key pid).length = 16 := by
  simp [packetKey, h]

theorem cacheIndex_inj {d e : Dir} {t u : Nat} (ht : t ≤ 8) (hu : u ≤ 8) (h : cacheIndex d t = cacheIndex e u) :
    d = e ∧ t = u := by
  cases d <;> cases e <;> simp only [cacheIndex] at h
  · exact ⟨rfl, h⟩
  · omega
  · omega
  · exact ⟨rfl, by omega⟩

/-- A coherent cache with every entry invalid. -/
theorem cacheCoherent_clearCache (s : State) : CacheCoherent (clearCache s) := by
  intro dir t ht hv
  simp only [cacheEntry, clearCache_kcache, Vector.getElem?_map] at hv
  cases h : s.kcache[cacheIndex dir t]? <;> rw [h] at hv <;> simp [KEntry.invalid] at hv

/-- A derivation through the cache gives a fresh derivation's pair where the cache is coherent; it changes nothing but
the cache, and keeps it coherent (R43, R287). -/
theorem deriveCached_cases (dir : Dir) (t : Nat) (gen : BitVec 32) (s : State) :
    ∃ c, (deriveCached dir t gen s).2 = { s with kcache := c } ∧
      (CacheCoherent s → t ≤ 8 →
        (deriveCached dir t gen s).1 = deriveKN s.iv.toList dir t gen ∧ CacheCoherent { s with kcache := c }) := by
  by_cases hit : (cacheEntry s dir t).valid ∧ (cacheEntry s dir t).gen = gen
  · refine ⟨s.kcache, by simp only [deriveCached, if_pos hit], fun hc ht => ⟨?_, hc⟩⟩
    simp only [deriveCached, if_pos hit]
    rw [← hit.2]
    exact hc dir t ht hit.1
  · simp only [deriveCached, if_neg hit]
    refine ⟨_, rfl, fun hc ht => ⟨trivial, fun e u hu hv => ?_⟩⟩
    simp only [cacheEntry, Vector.getElem?_setIfInBounds] at hv ⊢
    by_cases hi : cacheIndex dir t = cacheIndex e u
    · obtain ⟨rfl, rfl⟩ := cacheIndex_inj ht hu hi
      have hb : cacheIndex dir t < 18 := by cases dir <;> simp only [cacheIndex] <;> omega
      obtain ⟨h1, h2⟩ := length_deriveKN s.iv.toList dir t gen
      simp only [if_true, hb, Option.getD_some, toList_fixedBytes h1, toList_fixedBytes h2]
    · simp only [if_neg hi] at hv ⊢
      exact hc e u hu hv

/-- A derived pair, cached or not, is two strings of 16 bytes (R285). -/
theorem length_deriveCached (dir : Dir) (t : Nat) (gen : BitVec 32) (s : State) :
    (deriveCached dir t gen s).1.1.length = 16 ∧ (deriveCached dir t gen s).1.2.length = 16 := by
  simp only [deriveCached]
  split
  · simp
  · exact length_deriveKN _ _ _ _

/-- The keys of a frame by the phase (R301); the state changes in the cache alone, which stays coherent. -/
theorem keysFor_cases (dir : Dir) (t : Nat) (pid : BitVec 16) (gen : BitVec 32) (s : State) :
    ∃ c, (keysFor dir t pid gen s).2 = { s with kcache := c } ∧
      (CacheCoherent s → t ≤ 8 →
        (keysFor dir t pid gen s).1 =
          (if s.keyed then
            (packetKey (deriveKN s.iv.toList dir t gen).1 pid, (deriveKN s.iv.toList dir t gen).2)
          else (s.cfg.dummyKey.toList, s.cfg.dummyNonce.toList)) ∧
        CacheCoherent { s with kcache := c }) ∧ (s.keyed = false → c = s.kcache) := by
  by_cases hk : s.keyed = true
  · obtain ⟨c, h1, h2⟩ := deriveCached_cases dir t gen s
    refine ⟨c, by simp only [keysFor, if_pos hk, h1], fun hc ht => ?_, fun h => by rw [hk] at h; cases h⟩
    obtain ⟨h3, h4⟩ := h2 hc ht
    exact ⟨by simp only [keysFor, if_pos hk, h3], h4⟩
  · exact ⟨s.kcache, by simp only [keysFor, if_neg hk], fun hc _ => ⟨by simp only [keysFor, if_neg hk], hc⟩,
      fun _ => rfl⟩

/-- The key of a frame is 16 bytes (R301). -/
theorem length_keysFor (dir : Dir) (t : Nat) (pid : BitVec 16) (gen : BitVec 32) (s : State) :
    (keysFor dir t pid gen s).1.1.length = 16 := by
  simp only [keysFor]
  split
  · exact length_packetKey (length_deriveCached dir t gen s).1 pid
  · simp

end Sys2Proof.Machine
end

