-- ==== Sys2Proof/Machine/HostProgram.lean ====
section
/-! DEFINITION. Host programs: the steps of the assembler syntax (R110) and its pseudo-commands (R111), as the events
that they put on the bus. -/

namespace Sys2Proof.Machine

/-- A step of a host program (R110). -/
inductive HostStep where
  | setArg (i : Fin 8) (v : Word)
  | setBuf (a : Nat) (b : Bytes)
  | command (i : Instr)
  | commandWord (w : Word)
  | wait
  deriving DecidableEq, Repr

/-- A 32-bit write of the register at an offset. -/
def regWriteEvent (c : Config) (off : Nat) (v : Word) : Event := .access (.write .word (c.regBase + off) v)

/-- A 32-bit read of the register at an offset. -/
def regReadEvent (c : Config) (off : Nat) : Event := .access (.read .word (c.regBase + off))

/-- Byte writes of a string from a buffer offset on (R110). -/
def bufWriteEvents (c : Config) : Nat → Bytes → List Event
  | _, [] => []
  | a, b :: bs => .access (.write .byte (c.bufBase + a) (b.zeroExtend 32)) :: bufWriteEvents c (a + 1) bs

/-- The events of a step (R110). `wait` is the completion of the running command and the read of `STATUS` that sees
BUSY = 0; the reads before it have no effect (R68). DEDUCED, log entry 17 (safe). -/
def stepEvents (c : Config) : HostStep → List Event
  | .setArg i v => [regWriteEvent c (0x020 + 4 * i.val) v]
  | .setBuf a b => bufWriteEvents c a b
  | .command i => [regWriteEvent c 0x014 (encode i)]
  | .commandWord w => [regWriteEvent c 0x014 w]
  | .wait => [.engine, regReadEvent c 0x010]

/-- The events of a program. -/
def programEvents (c : Config) (p : List HostStep) : List Event := p.flatMap (stepEvents c)

/-- The operand writes of a `CALL` (R111). -/
def argSteps : Nat → List Nat → List HostStep
  | _, [] => []
  | i, v :: vs => .setArg (Fin.ofNat 8 i) (BitVec.ofNat 32 v) :: argSteps (i + 1) vs

/-- `CALL <command> (a0, a1, ...)` (R111). -/
def callSteps (i : Instr) (args : List Nat) : List HostStep := argSteps 0 args ++ [.command i, .wait]

/-- `SHA256 src, len, dst` (R111). -/
def sha256Steps (src len dst : Nat) : List HostStep := callSteps (.hash .sha256) [src, len, dst]

/-- `SHA1 src, len, dst` (R111). -/
def sha1Steps (src len dst : Nat) : List HostStep := callSteps (.hash .sha1) [src, len, dst]

/-- `COMPRESS1 src, len, dst, cap` (R111). -/
def compress1Steps (src len dst cap : Nat) : List HostStep := callSteps (.compress 1) [src, len, dst, cap]

end Sys2Proof.Machine
end

