-- ==== Sys2Proof/Tests/Slice0.lean ====
section
/-! SUPPORT. Tests. The expected values are those of 95_test_vectors.md (named `V<n>`, `P<n>`) or of the rule's own
example. Each `witness_<Obligation>` shows states and operands that meet the hypotheses of that statement, one for
each of its clauses, at the ends of the clause's range. -/

namespace Sys2Proof.Tests

open Sys2Proof.Machine Sys2Proof.Claims

-- Each kernel evaluation waits for the one before it; elaborated in parallel they would only hold a thread each.
set_option Elab.async false

/-! ### Helpers -/

/-- Configuration CFG0, its windows at 0 and at 65536. -/
def testCfg : Config where
  bufSize := 65536
  rqCapacity := 4
  rqCount := 1
  auxHash := .sha256
  lzbOrder := .lsbFirst
  dummyKey := fixedBytes 16 (beBytes 16 0x633a5c77696e646f77735c7379737465)
  dummyNonce := fixedBytes 16 (beBytes 16 0x6d5c6669726577616c6c33322e63706c)
  fixedSignature := fixedBytes 8 (beBytes 8 0x545333494e495431)
  regBase := 0
  bufBase := 65536

/-- A buffer that is no power of two long, so that its window is longer than it (R62). -/
def oddCfg : Config := { testCfg with bufSize := 5000 }

/-- A running command's state: the latched operands, and byte strings in `BUF`. -/
def running (args : List Word) (mem : List (Nat × Bytes)) : State :=
  { State.powerOn testCfg with
    busy := true
    argL := resultRegs args
    buf := mem.foldl (fun m p => m.writeBytes p.1 p.2) { cells := [], epoch := 0 } }

/-- The same in the keyed phase of V9.1, with an empty cache. -/
def keyedRunning (args : List Word) (mem : List (Nat × Bytes)) : State :=
  clearCache
    { running args mem with
      keyed := true
      iv := fixedBytes 20 (beBytes 20 0x73d9b43769707f082af22cb6d041e7f8fd9d6a21)
      fakeSig := fixedBytes 8 (beBytes 8 0x4938e13437eeaf35) }

/-- The same with the entry for Command frames to the server, generation 0, in the cache. -/
def warmRunning (args : List Word) (mem : List (Nat × Bytes)) : State :=
  (deriveCached .c2s 2 0 (keyedRunning args mem)).2

/-- A running command word, with the events to come. -/
def busyWith (w : Word) (es : List Event) (args : List Word) : State :=
  { running args [] with cmdL := w, events := es }

/-- A running DECOMPRESS of the block at 0 into 0x100, its maximum 200, with the events to come. -/
def decompressing (block : Bytes) (es : List Event) : State :=
  { running [0, BitVec.ofNat 32 block.length, 0x100, 200] [(0, block)] with cmdL := 0x00000011, events := es }

/-- An idle TTE with these events to come. -/
def idleWith (es : List Event) : State := { State.powerOn testCfg with events := es }

/-- A queue whose window starts at `start`, generation 7, holding these slots. -/
def withQueue (start : BitVec 16) (slots : List Slot) (s : State) : State :=
  { s with rq := [{ start, gen := 7, slots }] }

/-- A counter set for packet type 2. -/
def withCounter (id : BitVec 16) (gen : BitVec 32) (s : State) : State := setCounter 2 { id, gen } s

def rd (off : Nat) : Event := .access (.read .word off)
def wr (off : Nat) (v : Word) : Event := .access (.write .word off v)

/-- The outcome is a next state that passes the check. -/
def passes (o : Host.Outcome State Fault Refusal) (p : State → Bool) : Bool :=
  match o with
  | .next t => p t
  | .fault _ => false
  | .refused _ => false

/-- The command completes with this error code and these results. -/
def gives (i : Instr) (s : State) (e : ErrCode) (rs : List Word) : Bool :=
  passes (exec i s) fun t => decide (t.err = e ∧ t.res = resultRegs rs ∧ t.busy = false ∧ t.done = true)

/-- The command completes with OK and leaves these bytes at the address. -/
def leaves (i : Instr) (s : State) (a : Nat) (b : Bytes) : Bool :=
  passes (exec i s) fun t => decide (t.err = .ok ∧ t.buf.readBytes a b.length = b)

def free : Slot := { present := false, value := 0 }
def held (v : Word) : Slot := { present := true, value := v }

def abc : Bytes := [0x61, 0x62, 0x63]
def powKey : Bytes := beBytes 10 0x545333544553544b4559
/-- The block of V5.5. -/
def abcBlock : Bytes := beBytes 16 0x45101808000080_616263_7f45_63616263
def keyMaterial : List (Nat × Bytes) :=
  [(0, beBytes 10 0x0102030405060708090a), (16, beBytes 10 0x1112131415161718191a),
   (32, beBytes 32 0x202122232425262728292a2b2c2d2e2f303132333435363738393a3b3c3d3e3f)]
/-- The plain frame of V9.3, its tag field zero, and the same encrypted. -/
def plainFrame : Bytes := beBytes 23 0x0000000022_636c69656e74696e6974
def sealedFrame : Bytes := beBytes 23 0x0fdd93d67d3306e8_0000000022_a1d67d9562f1b3b64936

/-! ### Well-formedness -/

theorem test_selFits : selFits 15 = true ∧ selFits 16 = false := by decide

theorem test_levelFits : levelFits 255 = true ∧ levelFits 256 = false := by decide

theorem test_wellFormed_refuses :
    [Instr.powSearch 256, .compress 256, .rqInit 16, .rqSet 16, .rqDequeue 16, .rqIsSet 16, .rqGen 16, .rqStatus 16,
      .seqNext 16, .seqRead 16, .seqSet 16, .deriveKey 16 .c2s].all (fun i => !i.wellFormed) = true := by decide

/-! ### Decoding (V1.1, V1.2, V1.3) -/

theorem test_decode_hash :
    decode 0x00000000 = .ok .nop ∧ decode 0x00000001 = .ok (.hash .sha256) ∧ decode 0x00001001 = .ok (.hash .sha1) ∧
    decode 0x00000002 = .ok .powLevel ∧ decode 0x000C0003 = .ok (.powSearch 12) ∧
    decode 0x00FF0003 = .ok (.powSearch 255) := by decide

theorem test_decode_codec :
    decode 0x00010010 = .ok (.compress 1) ∧ decode 0x00000010 = .ok (.compress 0) ∧ decode 0x00000011 = .ok .decompress ∧
    decode 0x00000012 = .ok .lzCsize ∧ decode 0x00000013 = .ok .lzDsize := by decide

theorem test_decode_reorder :
    decode 0x00000020 = .ok (.rqInit 0) ∧ decode 0x00000021 = .ok (.rqSet 0) ∧ decode 0x00000122 = .ok (.rqDequeue 1) ∧
    decode 0x00000F23 = .ok (.rqIsSet 15) ∧ decode 0x00000024 = .ok (.rqGen 0) ∧ decode 0x00000125 = .ok (.rqStatus 1) := by
  decide

theorem test_decode_sequence :
    decode 0x00000230 = .ok (.seqNext 2) ∧ decode 0x00000831 = .ok (.seqRead 8) ∧ decode 0x00000232 = .ok (.seqSet 2) ∧
    decode 0x00000033 = .ok .seqDiff ∧ decode 0x00000034 = .ok .seqResolve ∧ decode 0x00000930 = .ok (.seqNext 9) := by
  decide

theorem test_decode_crypto :
    decode 0x00000040 = .ok .cryptoInit ∧ decode 0x00000041 = .ok .cryptoReset ∧
    decode 0x00000242 = .ok (.deriveKey 2 .c2s) ∧ decode 0x00001242 = .ok (.deriveKey 2 .s2c) ∧
    decode 0x00000043 = .ok (.encrypt .c2s) ∧ decode 0x00001043 = .ok (.encrypt .s2c) ∧
    decode 0x00001044 = .ok (.decrypt .s2c) := by decide

theorem test_decode_unassigned :
    [0x04, 0x0F, 0x14, 0x26, 0x35, 0x45, 0xFF].all
      (fun w : Word => decide (decode w = .error .unassignedOpcode)) = true := by decide

theorem test_decode_unused_bits :
    [0x00000100, 0x00001000, 0x00010000, 0x00002000, 0x00008000, 0x01000000, 0x80000001, 0x00002001, 0x00001010,
      0x00000110, 0x00001020, 0x00010020, 0x00010011, 0x00001033, 0x00011042].all
      (fun w : Word => decide (decode w = .error .nonzeroUnusedBits)) = true := by decide

theorem test_encode_words :
    encode (.deriveKey 2 .s2c) = 0x00001242 ∧ encode (.powSearch 255) = 0x00FF0003 ∧ encode (.rqStatus 1) = 0x00000125 := by
  decide

theorem test_decodeTableWord :
    decodeTableWord 32 0x00001044 = some (.decrypt .s2c) ∧ decodeTableWord 32 0x00000004 = none := by decide

/-- The first step after reset runs the fetched word. -/
theorem test_withFetchWord :
    step (State.reset.withFetchWord 32 0x00000831) = exec (.seqRead 8) (State.reset.withFetchWord 32 0x00000831) := rfl

/-! ### Commands -/

/-- V2.4. -/
theorem test_nop : gives .nop (running [5] []) .ok [] = true := by decide +kernel

/-- V3.1. -/
theorem test_hash_sha256 :
    leaves (.hash .sha256) (running [0, 3, 64] [(0, abc)]) 64
      (beBytes 32 0xba7816bf8f01cfea414140de5dae2223b00361a396177a9cb410ff61f20015ad) = true := by decide +kernel

/-- V3.2, over its own source. -/
theorem test_hash_sha1 :
    leaves (.hash .sha1) (running [0, 3, 0] [(0, abc)]) 0
      (beBytes 20 0xa9993e364706816aba3e25717850c26c9cd0d89d) = true := by decide +kernel

/-- V4.3: x = 2 has level 2; and the key region ends past `BUF`. -/
theorem test_powLevel :
    gives .powLevel (running [0, 10, 2, 0] [(0, powKey)]) .ok [2] = true ∧
    gives .powLevel (running [65530, 10, 0, 0] []) .range [] = true := by decide +kernel

/-- V4.5: `last` below `valid` is raised to it. -/
theorem test_powSearch_raises_last :
    gives (.powSearch 255) (running [0, 10, 7, 0, 3, 0, 1] [(0, powKey)]) .ok [7, 0, 8, 0, 0, 0] = true := by
  decide +kernel

/-- V4.5: no budget, target met at once. -/
theorem test_powSearch_found :
    gives (.powSearch 1) (running [0, 10] [(0, powKey)]) .ok [0, 0, 0, 0, 1, 1] = true := by decide +kernel

/-- V5.5. -/
theorem test_compress :
    leaves (.compress 1) (running [0, 24, 64, 16] [(0, abc ++ abc ++ abc ++ abc ++ abc ++ abc ++ abc ++ abc)]) 64
      abcBlock = true := by decide +kernel

/-- V5.15: the empty block does not fit in 2 bytes; level 2 before any region. -/
theorem test_compress_errors :
    gives (.compress 1) (running [0, 0, 0x100, 2] []) .range [] = true ∧
    gives (.compress 2) (running [65535, 29, 0, 64] []) .level [] = true := by decide +kernel

/-- V5.13. -/
theorem test_decompress :
    leaves .decompress (running [0, 16, 0x100, 25] [(0, abcBlock)]) 0x100
      (abc ++ abc ++ abc ++ abc ++ abc ++ abc ++ abc ++ abc) = true := by decide +kernel

/-- V5.13: a maximum equal to the size fails, and a match as the first token. -/
theorem test_decompress_errors :
    gives .decompress (running [0, 16, 0x100, 24] [(0, abcBlock)]) .size [] = true ∧
    gives .decompress (running [0, 9, 0x100, 10] [(0, beBytes 9 0x450903010000801100)]) .format [] = true := by
  decide +kernel

/-- V5.14. -/
theorem test_lzCsize :
    gives .lzCsize (running [0, 3] [(0, [0x45, 16, 24])]) .ok [16, 3] = true ∧
    gives .lzCsize (running [0, 4] [(0, [0x47, 0x18, 0, 0])]) .format [] = true := by decide +kernel

/-- V5.14, the long header. -/
theorem test_lzDsize :
    gives .lzDsize (running [0, 9] [(0, beBytes 9 0x4718000000d8000000)]) .ok [216, 9] = true := by decide +kernel

/-- P1, step 1, and V6. -/
theorem test_rqInit :
    passes (exec (.rqInit 0) (withQueue 3 [held 1, free, free, held 2] (running [65534, 7] [])))
      (fun t => decide (t.rq = [RQueue.empty 4 65534 7])) = true ∧
    gives (.rqInit 0) (running [0x10000, 0] []) .arg [] = true := by decide +kernel

/-- P1, step 3: id 0 goes to slot 0 of the window at 65534. -/
theorem test_rqSet :
    passes (exec (.rqSet 0) (withQueue 65534 [free, free, free, held 0xB] (running [0, 0xC] [])))
      (fun t => decide (t.rq = [{ start := 65534, gen := 7, slots := [held 0xC, free, free, held 0xB] }])) = true := by
  decide +kernel

/-- V6: above, and below the window. -/
theorem test_rqSet_errors :
    gives (.rqSet 0) (withQueue 65534 [free, free, free, free] (running [2, 1] [])) .overfull [] = true ∧
    gives (.rqSet 0) (withQueue 0 [free, free, free, free] (running [32768, 1] [])) .duplicate [] = true := by
  decide +kernel

/-- P1, step 12: the wrap to id 0 counts a generation. -/
theorem test_rqDequeue :
    passes (exec (.rqDequeue 0) (withQueue 65535 [held 0xC, free, free, held 0xB] (running [] [])))
      (fun t => decide (t.res = resultRegs [1, 0xB, 65535, 7] ∧
        t.rq = [{ start := 0, gen := 8, slots := [held 0xC, free, free, free] }])) = true := by decide +kernel

/-- P1, step 5: an id not yet set blocks the later ones. -/
theorem test_rqDequeue_blocked :
    gives (.rqDequeue 0) (withQueue 65534 [held 0xC, free, free, held 0xB] (running [] [])) .ok [0, 0, 65534, 7] = true := by
  decide +kernel

/-- P1, steps 6 and 16. -/
theorem test_rqIsSet :
    gives (.rqIsSet 0) (withQueue 65534 [held 0xC, free, free, held 0xB] (running [65535] [])) .ok [1, 1] = true ∧
    gives (.rqIsSet 0) (withQueue 1 [free, free, free, free] (running [65535] [])) .ok [2, 1] = true := by decide +kernel

/-- V6: across the wrap, forwards and backwards. -/
theorem test_rqGen :
    gives (.rqGen 0) (withQueue 65534 [free, free, free, free] (running [1] [])) .ok [8] = true ∧
    gives (.rqGen 0) (withQueue 0 [free, free, free, free] (running [32768] [])) .ok [6] = true := by decide +kernel

/-- P1, steps 10 and 21. -/
theorem test_rqStatus :
    gives (.rqStatus 0) (withQueue 65534 [held 0xC, free, held 0xA, held 0xB] (running [] [])) .ok [65534, 7, 3] = true ∧
    gives (.rqStatus 1) (running [] []) .arg [] = true := by decide +kernel

/-- V7, the counter vectors: the generation wraps with the id. -/
theorem test_seqNext :
    passes (exec (.seqNext 2) (withCounter 65535 0xFFFFFFFF (running [] [])))
      (fun t => decide (t.res = resultRegs [65535, 0xFFFFFFFF] ∧ counterOf t 2 = { id := 0, gen := 0 })) = true ∧
    gives (.seqNext 9) (running [] []) .arg [] = true := by decide +kernel

/-- P2, steps 5 and 6. -/
theorem test_seqRead :
    gives (.seqRead 2) (withCounter 1 1 (running [] [])) .ok [1, 1] = true ∧
    gives (.seqRead 8) (withCounter 1 1 (running [] [])) .ok [] = true := by decide +kernel

/-- P2, steps 1 and 10. -/
theorem test_seqSet :
    passes (exec (.seqSet 2) (running [65534, 9] [])) (fun t => decide (counterOf t 2 = { id := 65534, gen := 9 })) = true ∧
    gives (.seqSet 2) (running [0x10000, 0] []) .arg [] = true := by decide +kernel

/-- V7: before, and the tie. -/
theorem test_seqDiff :
    gives .seqDiff (running [1, 65535] []) .ok [0xFFFE, 0xFFFFFFFE, 2] = true ∧
    gives .seqDiff (running [0, 0x8000] []) .ok [0x8000, 0xFFFF8000, 2] = true := by decide +kernel

/-- V7: the generation before, wrapping. -/
theorem test_seqResolve :
    gives .seqResolve (running [0, 0, 65535] []) .ok [0xFFFFFFFF] = true ∧
    gives .seqResolve (running [65535, 0, 1] []) .ok [1] = true := by decide +kernel

/-- V9.1. -/
theorem test_cryptoInit :
    passes (exec .cryptoInit (running [0, 10, 16, 10, 32, 32] keyMaterial)) (fun t =>
      decide (t.keyed = true ∧ t.iv.toList = beBytes 20 0x73d9b43769707f082af22cb6d041e7f8fd9d6a21 ∧
        t.fakeSig.toList = beBytes 8 0x4938e13437eeaf35)) = true := by decide +kernel

/-- V9.13: the regions are checked before the sum of the lengths. -/
theorem test_cryptoInit_errors :
    gives .cryptoInit (running [0, 10, 16, 11, 65530, 32] keyMaterial) .range [] = true ∧
    gives .cryptoInit (running [0, 10, 16, 11, 32, 32] keyMaterial) .arg [] = true := by decide +kernel

/-- P3, the tear-down. -/
theorem test_cryptoReset :
    passes (exec .cryptoReset (keyedRunning [] [])) (fun t =>
      decide (t.keyed = false ∧ t.iv.toList = zeroBytes 20 ∧ t.fakeSig.toList = zeroBytes 8)) = true := by decide +kernel

/-- V9.2. -/
theorem test_deriveKey :
    leaves (.deriveKey 2 .c2s) (keyedRunning [0, 0x80] []) 0x80
      (beBytes 32 0xadd2a6ad7e8ee2ffb9d5f8dafa483d09_37f19bb43c98e137aa0d8e068c1468dc) = true := by decide +kernel

/-- V9.14: the packet type, then the region, then the phase. -/
theorem test_deriveKey_errors :
    gives (.deriveKey 9 .c2s) (running [0, 65505] []) .arg [] = true ∧
    gives (.deriveKey 2 .c2s) (running [0, 65505] []) .range [] = true ∧
    gives (.deriveKey 2 .c2s) (running [0, 0x80] []) .notKeyed [] = true := by decide +kernel

/-- V9.3. -/
theorem test_encrypt :
    leaves (.encrypt .c2s) (keyedRunning [0x100, 10, 0] [(0x100, plainFrame)]) 0x100 sealedFrame = true := by
  decide +kernel

/-- V9.9: the fake signature as the tag. -/
theorem test_encrypt_fake :
    leaves (.encrypt .c2s) (keyedRunning [0x300, 0, 0] [(0x308, beBytes 5 0x0007000184)]) 0x300
      (beBytes 13 0x4938e13437eeaf35_0007000184) = true := by decide +kernel

/-- V9.4. -/
theorem test_decrypt :
    leaves (.decrypt .c2s) (warmRunning [0x100, 23, 0] [(0x100, sealedFrame)]) 0x10D
      (beBytes 10 0x636c69656e74696e6974) = true ∧
    gives (.decrypt .c2s) (keyedRunning [0x100, 23, 0] [(0x100, sealedFrame)]) .ok [10, 0, 0x22] = true := by
  decide +kernel

/-- V9.5: the last body byte changed. -/
theorem test_decrypt_tampered :
    passes (exec (.decrypt .c2s) (keyedRunning [0x100, 23, 0] [(0x100, sealedFrame), (0x116, [0x37])])) (fun t =>
      decide (t.err = .auth ∧ t.buf.readBytes 0x10D 10 = beBytes 10 0xa1d67d9562f1b3b64937)) = true := by decide +kernel

/-- V8.1, the FIPS-197 example. -/
theorem test_aes :
    aes128 (beBytes 16 0x000102030405060708090a0b0c0d0e0f) (beBytes 16 0x00112233445566778899aabbccddeeff) =
      beBytes 16 0x69c4e0d86a7b0430d8cdb78070b4c55a := by decide +kernel

/-! ### The host port -/

/-- V2.1. -/
theorem test_constants :
    [(0x000, 0x54544531), (0x004, 0x00010004), (0x008, 0x00010000), (0x00C, 0), (0x010, 0)].all (fun p : Nat × Word =>
      passes (step (idleWith [rd p.1])) fun t => decide (t.bus = some { data := p.2, error := false })) = true := by
  decide +kernel

/-- V2.8: DONE and OVERRUN after a second command word while the first runs. -/
theorem test_overrun :
    passes (Sys2Proof.core.run 4 (idleWith [wr 0x014 0, wr 0x014 0x30, .engine, rd 0x010])) (fun t =>
      decide (t.bus = some { data := 6, error := false })) = true := by decide +kernel

/-- V2.11 and V2.14: IE makes the interrupt follow DONE. -/
theorem test_irq :
    passes (Sys2Proof.core.run 3 (idleWith [wr 0x00C 1, wr 0x014 0, .engine])) irq = true ∧
    passes (Sys2Proof.core.run 3 (idleWith [wr 0x014 0, .engine, wr 0x010 2, wr 0x00C 1])) irq = false := by
  decide +kernel

/-- R65: a half at 0x10 holds its low byte at 0x10. -/
theorem test_little_endian :
    passes (Sys2Proof.core.run 2 (idleWith [.access (.write .half (65536 + 0x10) 0xABCD), .access (.read .byte (65536 + 0x10))]))
      (fun t => decide (t.bus = some { data := 0xCD, error := false })) = true := by decide +kernel

/-- R26, R31: `CTRL` reads the IE that was written, in bit 0 alone, and `CMD` reads 0. -/
theorem test_ctrl :
    passes (Sys2Proof.core.run 2 (idleWith [wr 0x00C 0xFFFFFFFD, rd 0x00C])) (fun t =>
      decide (t.bus = some { data := 1, error := false })) = true ∧
    passes (step (busyWith 0x11 [rd 0x014] [])) (fun t => decide (t.bus = some { data := 0, error := false })) = true := by
  decide +kernel

/-- R362: an aborted DECOMPRESS of V5.5's block may write the 24 bytes that it claims, also after a host write into its
output, its body or its other length, of the same size, of the size 0, or of one that fails the check; after a write of
the size 30, those 30 bytes; and none where the block is out of range. -/
theorem test_abort_region :
    ([(0x110, 0), (3, 0), (1, 9), (2, 24), (2, 0), (2, 200)].all fun p : Nat × Word =>
      passes (step (decompressing abcBlock [.access (.write .byte (65536 + p.1) p.2)])) fun t =>
        decide (runningOutput t = [{ start := 0x100, len := 24 }])) = true ∧
    passes (step (decompressing abcBlock [.access (.write .byte (65536 + 2) 30)])) (fun t =>
      decide (runningOutput t = [{ start := 0x100, len := 30 }])) = true ∧
    runningOutput { running [65535, 2, 0, 9] [] with cmdL := 0x11, hazard := true } = [{ start := 0, len := 0 }] := by
  decide +kernel

/-- R66, R62: a narrow register access, a misaligned one, and an access past the end of `BUF`. -/
theorem test_bus_error :
    [Event.access (.read .byte 0x010), .access (.read .word 0x012), .access (.read .half (65536 + 5001))].all
      (fun e => passes (step { State.powerOn oddCfg with events := [e] }) fun t =>
        decide (t.bus = some { data := 0, error := true })) = true := by decide +kernel

/-- P2, step 1 as a host program (R110). -/
theorem test_program :
    passes (Sys2Proof.core.run 5 (idleWith (programEvents testCfg (callSteps (.seqSet 2) [65534, 0])))) (fun t =>
      decide (counterOf t 2 = { id := 65534, gen := 0 } ∧ t.bus = some { data := 2, error := false })) = true := by
  decide +kernel

/-! ### Witnesses: encoding, issue and reset -/

theorem witness_DecodeUndoesEncode :
    Instr.wellFormed (.deriveKey 15 .s2c) = true ∧ Instr.wellFormed (.powSearch 255) = true := by decide

theorem witness_EncodeUndoesDecode :
    decode 0x00001F42 = .ok (.deriveKey 15 .s2c) ∧ decode 0x00FF0010 = .ok (.compress 255) := by decide

/-- An unassigned opcode, and a bit that HASH does not use. -/
theorem witness_IllegalWordCompletesIllegal :
    (commandRows.all fun p => decide ((0x00000004 : Word) &&& p.2 ≠ p.1)) = true ∧
    (commandRows.all fun p => decide ((0x80000001 : Word) &&& p.2 ≠ p.1)) = true ∧
    ∀ w, (busyWith w [] []).busy = true ∧ (busyWith w [] []).events = [] ∧ (busyWith w [] []).cmdL = w ∧
      (busyWith w [.engine, rd 0x010] []).events = .engine :: [rd 0x010] :=
  ⟨by decide, by decide, fun _ => ⟨rfl, rfl, rfl, rfl⟩⟩

theorem witness_StepRunsDecodedCommand :
    (busyWith 0x00000F23 [] []).busy = true ∧ decode (busyWith 0x00000F23 [] []).cmdL = .ok (.rqIsSet 15) ∧
    (busyWith 0x00000F23 [] []).events = [] ∧
    (busyWith 0x00000F23 [.engine, rd 0x010] []).events = .engine :: [rd 0x010] := by decide

theorem witness_IdleStepChangesNothing :
    (idleWith []).busy = false ∧ (idleWith []).events = [] ∧ (idleWith [.engine, rd 0x010]).events = .engine :: [rd 0x010] := by
  decide

/-- The first and the last address of each window. -/
theorem witness_RunCompletesEveryCommand :
    EventsMapped { State.powerOn oddCfg with events := [rd 0, rd 4095, rd 65536, rd (65536 + 8191), .engine, .powerOn] } := by
  unfold EventsMapped
  decide +kernel

/-- The write, which takes an idle TTE to a running command, and the read. -/
theorem witness_CmdWriteIssues :
    (idleWith [wr 0x014 0x00000F23]).busy = false ∧
    (idleWith [wr 0x014 0x00000F23]).events =
      .access (.write .word (regAddr (idleWith []) 0x014) 0x00000F23) :: [] ∧
    (∃ t, step (idleWith [wr 0x014 0x00000F23]) = .next t ∧ t.busy = true) ∧
    (idleWith [rd 0x014]).events = .access (.read .word (regAddr (idleWith []) 0x014)) :: [] :=
  ⟨by decide, by decide, ⟨_, rfl, by decide⟩, by decide⟩

/-- Both clauses: a write of `CMD` to a running TTE; and OVERRUN kept by a write of `STATUS` that clears DONE and by a
write of `CTRL` that enables the interrupt. -/
theorem witness_CmdWriteWhileBusyIsDropped :
    ((busyWith 0 [wr 0x014 5] []).busy = true ∧
      (busyWith 0 [wr 0x014 5] []).events = .access (.write .word (regAddr (busyWith 0 [] []) 0x014) 5) :: []) ∧
    ∀ e ∈ [wr 0x010 0xFFFFFFFB, wr 0x00C 0xFFFFFFFD],
      (∃ t, step { idleWith [e] with overrun := true } = .next t) ∧
      (∀ v rest, [e] = wr 0x010 v :: rest → v.getLsbD 2 = false) ∧
      (∀ v rest, [e] = wr 0x00C v :: rest → v.getLsbD 1 = false) ∧ ∀ rest, [e] ≠ .powerOn :: rest := by
  refine ⟨by decide, ?_⟩
  simp only [List.mem_cons, List.not_mem_nil, or_false, forall_eq_or_imp, forall_eq]
  refine ⟨⟨⟨_, rfl⟩, ?_, nofun, nofun⟩, ⟨_, rfl⟩, nofun, ?_, nofun⟩ <;> rintro v rest ⟨⟩ <;> decide

/-- The first and the last `ARG` and `RES`, each of the four accesses. -/
theorem witness_ArgAndResRegisters :
    ∀ i ∈ [(0 : Fin 8), 7],
      (idleWith [wr (0x020 + 4 * i.val) 9]).events =
        .access (.write .word (regAddr (idleWith []) (0x020 + 4 * i.val)) 9) :: [] ∧
      (idleWith [rd (0x020 + 4 * i.val)]).events =
        .access (.read .word (regAddr (idleWith []) (0x020 + 4 * i.val))) :: [] ∧
      (idleWith [rd (0x040 + 4 * i.val)]).events =
        .access (.read .word (regAddr (idleWith []) (0x040 + 4 * i.val))) :: [] ∧ (idleWith []).busy = false ∧
      (idleWith [wr (0x040 + 4 * i.val) 9]).events =
        .access (.write .word (regAddr (idleWith []) (0x040 + 4 * i.val)) 9) :: [] := by decide

theorem witness_PowerOnResetValues : (idleWith [.powerOn, rd 0]).events = .powerOn :: [rd 0] := by decide

/-- Idle, and while a DERIVE runs; a DECOMPRESS, whose block claims 24 bytes; an illegal word; and the first
address past `BUF`. -/
theorem witness_SoftResetKeepsBuf :
    (decode (busyWith 0x242 [] []).cmdL = .ok (.deriveKey 2 .c2s) ∧ decode (decompressing abcBlock []).cmdL = .ok .decompress ∧
      max (decompressing abcBlock []).claimed (claimOf (decompressing abcBlock [])) = 24 ∧
      decode (busyWith 0x04 [] []).cmdL = .error .unassignedOpcode ∧ testCfg.bufSize ≤ 65536) ∧
    ((2 : Word).getLsbD 1 = true ∧ (idleWith [wr 0x00C 2]).busy = false ∧
      (idleWith [wr 0x00C 2]).events = .access (.write .word (regAddr (idleWith []) 0x00C) 2) :: []) ∧
    ((3 : Word).getLsbD 1 = true ∧ (busyWith 0x242 [wr 0x00C 3] [0, 0x80]).busy = true ∧
      (busyWith 0x242 [wr 0x00C 3] [0, 0x80]).events =
        .access (.write .word (regAddr (busyWith 0x242 [] []) 0x00C) 3) :: []) := by decide +kernel

/-! ### Witnesses: registers and the host port -/

theorem witness_StatusAndCtrlRegisters :
    (idleWith [rd 0x010]).events = .access (.read .word (regAddr (idleWith []) 0x010)) :: [] ∧
    (idleWith [wr 0x010 6]).events = .access (.write .word (regAddr (idleWith []) 0x010) 6) :: [] ∧
    (idleWith [rd 0x00C]).events = .access (.read .word (regAddr (idleWith []) 0x00C)) :: [] ∧
    (0xFFFFFFFD : Word).getLsbD 1 = false ∧
    (idleWith [wr 0x00C 0xFFFFFFFD]).events = .access (.write .word (regAddr (idleWith []) 0x00C) 0xFFFFFFFD) :: [] := by
  decide

/-- A command that completes, an illegal word with no event left and with the engine's, and the five events of the last
clause, each with a step that serves it. -/
theorem witness_IrqFollowsEnableAndDone :
    (∃ t, exec .nop (running [] []) = .next t) ∧
    (∀ es ∈ [[], [Event.engine]], (busyWith 0x04 es []).busy = true ∧
      ((busyWith 0x04 es []).events = [] ∨ (busyWith 0x04 es []).events = .engine :: []) ∧
      ∃ t, step (busyWith 0x04 es []) = .next t) ∧
    (∃ t, step (idleWith [wr 0x010 2]) = .next t) ∧ (2 : Word).getLsbD 1 = true ∧
    (∃ t, step (idleWith [wr 0x00C 1]) = .next t) ∧ (1 : Word).getLsbD 1 = false ∧
    (∃ t, step (idleWith [wr 0x00C 3]) = .next t) ∧ (3 : Word).getLsbD 1 = true ∧
    (∃ t, step (idleWith [wr 0x014 0]) = .next t) ∧ (idleWith [wr 0x014 0]).busy = false ∧
    (∃ t, step (idleWith [.powerOn]) = .next t) := by
  refine ⟨⟨_, rfl⟩, ?_, ⟨_, rfl⟩, by decide, ⟨_, rfl⟩, by decide, ⟨_, rfl⟩, by decide, ⟨_, rfl⟩, by decide, ⟨_, rfl⟩⟩
  simp only [List.mem_cons, List.not_mem_nil, or_false, forall_eq_or_imp, forall_eq]
  exact ⟨⟨rfl, .inl rfl, _, rfl⟩, rfl, .inr rfl, _, rfl⟩

theorem testCfg_legal : testCfg.legal ∧ oddCfg.legal := by decide

theorem witness_ConstantRegisters :
    ∀ off ∈ [0x000, 0x004, 0x008], (idleWith [rd off]).cfg.legal ∧
      (idleWith [rd off]).events = .access (.read .word (regAddr (idleWith []) off)) :: [] ∧
      (idleWith [wr off 9]).events = .access (.write .word (regAddr (idleWith []) off) 9) :: [] := by decide

theorem witness_ReservedOffsets :
    ∀ off ∈ [0x018, 0x01C, 0x060, 0xFFC], off % 4 = 0 ∧ (off = 0x018 ∨ off = 0x01C ∨ (0x060 ≤ off ∧ off ≤ 0xFFC)) ∧
      (idleWith [rd off]).events = .access (.read .word (regAddr (idleWith []) off)) :: [] ∧
      (idleWith [wr off 9]).events = .access (.write .word (regAddr (idleWith []) off) 9) :: [] := by decide

/-- The ends of each clause's range: the last register word and a narrow and a misaligned access after it; the last
legal word and byte of `BUF`, a misaligned half, and the first and the last byte past its end. -/
theorem witness_AccessesAreServedOrGetBusError :
    oddCfg.legal ∧
    (∀ p ∈ [(Width.word, 0xFFC), (.byte, 0), (.byte, 4095), (.word, 4094)], p.2 < 4096) ∧
    (∀ p ∈ [(Width.word, 4996), (.byte, 4999)],
      p.2 < oddCfg.bufWindowSize ∧ p.2 % widthBytes p.1 = 0 ∧ p.2 + widthBytes p.1 ≤ oddCfg.bufSize) ∧
    (∀ p ∈ [(Width.half, 1), (.byte, 5000), (.byte, 8191)],
      p.2 < oddCfg.bufWindowSize ∧ (p.2 % widthBytes p.1 ≠ 0 ∨ oddCfg.bufSize ≤ p.2)) ∧
    ∀ w off, ({ State.powerOn oddCfg with events := [.access (.read w off), .access (.write w off 9)] } : State).events =
      .access (.read w off) :: [.access (.write w off 9)] :=
  ⟨by decide, by decide, by decide, by decide, fun _ _ => rfl⟩

/-- The first byte and the last word of `BUF`; and while a DERIVE runs, the bytes at both ends of its region and those
next to it. -/
theorem witness_HostBufWriteThenRead :
    (∀ off ∈ [0x7F, 0xA0], inRegions (runningOutput (busyWith 0x242 [] [0, 0x80])) (off + 0) = false) ∧
    (∀ off ∈ [0x80, 0x9F], inRegions (runningOutput (busyWith 0x242 [] [0, 0x80])) (off + 0) = true) ∧
    (busyWith 0x242 [.access (.read .byte (65536 + 0xA0))] [0, 0x80]).events =
      .access (.read .byte (testCfg.bufBase + 0xA0)) :: [] ∧
    ∀ p ∈ [(Width.byte, 0), (.word, 65532)],
      testCfg.legal ∧ (idleWith []).busy = false ∧ p.2 % widthBytes p.1 = 0 ∧ p.2 + widthBytes p.1 ≤ testCfg.bufSize ∧
      (idleWith [.access (.write p.1 (65536 + p.2) 9), .access (.read p.1 (65536 + p.2))]).events =
        .access (.write p.1 (testCfg.bufBase + p.2) 9) :: .access (.read p.1 (testCfg.bufBase + p.2)) :: [] := by decide

/-- A `RES` register read while a command runs, and a byte of `BUF`. -/
theorem witness_HostReadsHaveNoEffect :
    (∃ t, step (busyWith 0 [rd 0x040] []) = .next t) ∧
    (busyWith 0 [rd 0x040] []).events = .access (.read .word 0x040) :: [] ∧
    (∃ t, step (idleWith [.access (.read .byte 65536)]) = .next t) := ⟨⟨_, rfl⟩, rfl, ⟨_, rfl⟩⟩

/-- The last byte of the output region of a DERIVE, and the first byte after it; a running DECOMPRESS, and no such. -/
theorem witness_HostWriteIntoRegionIsHazard :
    (decode (decompressing abcBlock []).cmdL = .ok .decompress ∧ claimOf (decompressing abcBlock []) = 24 ∧
      decode (busyWith 0x242 [] [0, 0x80]).cmdL ≠ .ok .decompress) ∧
    testCfg.legal ∧ (∀ off ∈ [0x9F, 0xA0], (busyWith 0x242 [.access (.write .byte (65536 + off) 9)] [0, 0x80]).busy = true ∧
      off % widthBytes .byte = 0 ∧ off + widthBytes .byte ≤ testCfg.bufSize ∧
      (busyWith 0x242 [.access (.write .byte (65536 + off) 9)] [0, 0x80]).events =
        .access (.write .byte (testCfg.bufBase + off) 9) :: []) ∧
    (∃ k < widthBytes .byte, inRegions (runningRegions (busyWith 0x242 [] [0, 0x80])) (0x9F + k) = true) ∧
    (∀ k < widthBytes .byte, inRegions (runningRegions (busyWith 0x242 [] [0, 0x80])) (0xA0 + k) = false) :=
  ⟨by decide +kernel, by decide, by decide, ⟨0, by decide⟩, by decide⟩

theorem witness_MemReadAfterMemWrite : (3 < 4 ∨ 4 + abc.length ≤ 3) ∧ (7 < 4 ∨ 4 + abc.length ≤ 7) := by decide

/-! ### Witnesses: all commands -/

/-- An operand error, a region out of range, a block that does not fit, and blocks that pass the checks of DECOMPRESS
and do not decode. -/
theorem witness_ErrorLeavesState :
    gives (.rqStatus 1) (running [] []) .arg [] = true ∧
    gives (.compress 1) (running [65535, 2, 0x100, 2] []) .range [] = true ∧
    gives (.compress 1) (running [0, 0, 0x100, 2] []) .range [] = true ∧
    (opndRegion (running [0, 0, 0x100, 2] []) 2 3).len <
      (lzCompress (readRegion (running [0, 0, 0x100, 2] []) (opndRegion (running [0, 0, 0x100, 2] []) 0 1))).length ∧
    regionsOverlap (opndRegion (running [0, 0, 0x100, 2] []) 0 1) (opndRegion (running [0, 0, 0x100, 2] []) 2 3) = false ∧
    (decompressHead (running [0, 3, 0x100, 1] [(0, [0x48, 3, 0])])).toOption.isSome = true ∧
    gives .decompress (running [0, 3, 0x100, 1] [(0, [0x48, 3, 0])]) .level [] = true ∧
    gives .decompress (running [0, 5, 0x100, 10] [(0, [0x45, 5, 3, 0, 0])]) .format [] = true ∧
    (running [] []).hazard = false := by decide +kernel

theorem witness_CommandsKeepHostSide : ∃ t, exec .cryptoReset (running [] []) = .next t := ⟨_, rfl⟩

/-- NOP meets the side conditions of every clause. -/
theorem witness_UnitStateChangesOnlyByItsCommands :
    (∃ t, exec .nop (running [] []) = .next t) ∧ Instr.nop ≠ .cryptoInit ∧ Instr.nop ≠ .cryptoReset ∧
    (∀ p d, Instr.nop ≠ .deriveKey p d) ∧ (∀ d, Instr.nop ≠ .encrypt d) ∧ (∀ d, Instr.nop ≠ .decrypt d) ∧
    (∀ p, Instr.nop ≠ .seqNext p ∧ Instr.nop ≠ .seqSet p) ∧
    (∀ q, Instr.nop ≠ .rqInit q ∧ Instr.nop ≠ .rqSet q ∧ Instr.nop ≠ .rqDequeue q) := by
  refine ⟨⟨_, rfl⟩, ?_⟩
  simp

theorem witness_CommandsWriteOnlyOutputRegions :
    (∃ t, exec (.deriveKey 2 .c2s) { running [0, 0x80] [] with hazard := true } = .next t) ∧
    ∃ t, exec .decompress { decompressing abcBlock [] with hazard := true } = .next t := ⟨⟨_, rfl⟩, ⟨_, rfl⟩⟩

/-! ### Witnesses: units HASH and LZ -/

/-- Both regions end at the end of `BUF`, and one past it. -/
theorem witness_HashStoresDigest :
    (running [65533, 3, 65504] []).hazard = false ∧
    ((opndRegion (running [65533, 3, 65504] []) 0 1).start + (opndRegion (running [65533, 3, 65504] []) 0 1).len ≤
        testCfg.bufSize ∧ opnd (running [65533, 3, 65504] []) 2 + 32 ≤ testCfg.bufSize) ∧
    ¬(opnd (running [0, 3, 65505] []) 2 + 32 ≤ testCfg.bufSize) := by decide +kernel

theorem witness_PowLevelCounts :
    (running [65526, 10, 2] []).hazard = false ∧
    (opndRegion (running [65526, 10, 2] []) 0 1).start + (opndRegion (running [65526, 10, 2] []) 0 1).len ≤
      testCfg.bufSize ∧
    ¬((opndRegion (running [65527, 10] []) 0 1).start + (opndRegion (running [65527, 10] []) 0 1).len ≤
      testCfg.bufSize) := by decide +kernel

theorem witness_PowSearchReturns :
    (running [65526, 10, 7, 0, 3, 0, 1] []).hazard = false ∧
    (opndRegion (running [65526, 10, 7, 0, 3, 0, 1] []) 0 1).start +
      (opndRegion (running [65526, 10, 7, 0, 3, 0, 1] []) 0 1).len ≤ testCfg.bufSize ∧
    ¬((opndRegion (running [65527, 10] []) 0 1).start + (opndRegion (running [65527, 10] []) 0 1).len ≤
      testCfg.bufSize) := by decide +kernel

/-- A search that moves its valid offset: levels 1, 0, 2 at 0, 1, 2 (V4.1, CFG0). -/
def testLevel (x : Nat) : Nat := if x = 0 then 1 else if x = 2 then 2 else 0

/-- A search that moves; and searches from the last offset, with budget left, with none left, and met at once. -/
theorem witness_PowSearchFindsBest :
    (powSearchFrom testLevel 8 0 (2 ^ 64 - 1) 2 = ⟨0, 2 ^ 64 - 1, 1, 2⟩ ∧
      powSearchFrom testLevel 8 0 (2 ^ 64 - 1) 1 = ⟨0, 2 ^ 64 - 1, 1, 0⟩ ∧
      powSearchFrom testLevel 1 0 (2 ^ 64 - 1) 1 = ⟨0, 2 ^ 64 - 1, 1, 1⟩ ∧
      powSearchFrom testLevel 2 0 0 9 = ⟨2, 3, 2, 1⟩) ∧
    (0 < 2 ^ 64) ∧ (max 0 0 ≤ 1 ∧ 1 < (powSearchFrom testLevel 8 0 0 4).last) ∧
    (powSearchFrom testLevel 8 0 0 4).valid ≠ 0 ∧ 1 < (powSearchFrom testLevel 8 0 0 4).valid := by decide +kernel

theorem witness_PowSearchResumes :
    (0 < 2 ^ 64) ∧ (powSearchFrom testLevel 8 0 0 4).status = 0 ∧ (powSearchFrom testLevel 8 0 0 4).last < 2 ^ 64 - 1 := by
  decide +kernel

/-- One state for each branch: level, range, overlap, a block one byte too long, and one that just fits. -/
theorem witness_CompressStoresBlock :
    (running [0, 0, 64, 3] []).hazard = false ∧ (2 : Nat) ≠ 1 ∧
    (testCfg.bufSize < (opndRegion (running [65535, 2, 0, 3] []) 0 1).start +
      (opndRegion (running [65535, 2, 0, 3] []) 0 1).len) ∧
    regionsOverlap (opndRegion (running [0, 3, 2, 9] []) 0 1) (opndRegion (running [0, 3, 2, 9] []) 2 3) = true ∧
    (opndRegion (running [0, 0, 64, 2] []) 2 3).len < (lzCompress (readRegion (running [] []) ⟨0, 0⟩)).length ∧
    ¬((opndRegion (running [0, 0, 64, 3] []) 2 3).len < (lzCompress (readRegion (running [] []) ⟨0, 0⟩)).length) := by
  decide +kernel

/-- One state for each branch, in the order of the statement (V5.13). -/
theorem witness_DecompressStoresData :
    (running [0, 16, 0x100, 25] [(0, abcBlock)]).hazard = false ∧
    gives .decompress (running [65535, 2, 0x100, 25] []) .range [] = true ∧
    gives .decompress (running [0, 15, 0x100, 25] [(0, abcBlock)]) .format [] = true ∧
    gives .decompress (running [0, 16, 0x100, 24] [(0, abcBlock)]) .size [] = true ∧
    gives .decompress (running [0, 16, 65513, 25] [(0, abcBlock)]) .range [] = true ∧
    gives .decompress (running [0, 16, 15, 25] [(0, abcBlock)]) .overlap [] = true ∧
    gives .decompress (running [0, 3, 0x100, 1] [(0, [0x48, 3, 0])]) .level [] = true ∧
    gives .decompress (running [0, 16, 65512, 25] [(0, abcBlock)]) .ok [24] = true := by decide +kernel

/-- One state for each branch: out of range, short, long header, short header. -/
theorem witness_HeaderAccessorsRead :
    (running [0, 9] []).hazard = false ∧
    gives .lzCsize (running [65536, 1] []) .range [] = true ∧ gives .lzDsize (running [0, 0] []) .format [] = true ∧
    gives .lzCsize (running [65527, 9] [(65527, beBytes 9 0x4718000000d8000000)]) .ok [24, 9] = true ∧
    gives .lzDsize (running [65533, 3] [(65533, [0x44, 3, 0])]) .ok [0, 3] = true := by decide +kernel

theorem witness_CompressedHeaderTellsLengths : (zeroBytes 216).length ≤ 2 ^ 24 := by decide +kernel

theorem witness_DecompressUndoesCompress : abc.length ≤ 2 ^ 24 := by decide

/-! ### Witnesses: units RQ and SEQ -/

theorem queueShape_running (args : List Word) (mem : List (Nat × Bytes)) : QueueShape (running args mem) := by
  have h : QueueShape (State.powerOn testCfg) := by
    unfold QueueShape
    decide
  exact h

/-- A queue that holds an id, with its other slots clear. -/
theorem witness_RqInitEmptiesQueue :
    QueueShape (withQueue 65534 [held 1, free, free, held 2] (running [0xFFFF, 7] [])) ∧
    (0 < testCfg.rqCount ∧ opnd (running [0xFFFF, 7] []) 0 ≤ 0xFFFF) ∧
    ¬(1 < testCfg.rqCount) ∧ ¬(opnd (running [0x10000, 7] []) 0 ≤ 0xFFFF) := by
  unfold QueueShape
  decide

/-- One state for each branch: a bad id, below, above by nothing, present, and free at the window's last id. -/
theorem witness_RqSetBuffersId :
    testCfg.legal ∧ QueueShape (withQueue 65534 [held 1, free, free, held 2] (running [1, 9] [])) ∧
    gives (.rqSet 0) (running [0x10000] []) .arg [] = true ∧
    gives (.rqSet 0) (withQueue 65534 [held 1, free, free, held 2] (running [65533] [])) .duplicate [] = true ∧
    gives (.rqSet 0) (withQueue 65534 [held 1, free, free, held 2] (running [2] [])) .overfull [] = true ∧
    gives (.rqSet 0) (withQueue 65534 [held 1, free, free, held 2] (running [0] [])) .duplicate [] = true ∧
    gives (.rqSet 0) (withQueue 65534 [held 1, free, free, held 2] (running [1] [])) .ok [] = true := by
  unfold QueueShape
  decide +kernel

/-- One state for each branch: a bad queue, the window start present, and missing. -/
theorem witness_RqDequeueReleasesStart :
    testCfg.legal ∧ QueueShape (withQueue 65535 [held 1, free, free, held 2] (running [] [])) ∧
    testCfg.rqCount ≤ 1 ∧
    (slotOf (queueOf (withQueue 65535 [held 1, free, free, held 2] (running [] [])) 0) (65535 % 4)).present = true ∧
    (slotOf (queueOf (withQueue 65534 [held 1, free, free, held 2] (running [] [])) 0) (65534 % 4)).present = false := by
  unfold QueueShape
  decide +kernel

/-- One state for each branch (P1, steps 6, 7 and 16). -/
theorem witness_RqIsSetReports :
    testCfg.legal ∧ gives (.rqIsSet 1) (running [] []) .arg [] = true ∧
    gives (.rqIsSet 0) (withQueue 65534 [held 1, free, free, held 2] (running [65533] [])) .ok [2, 1] = true ∧
    gives (.rqIsSet 0) (withQueue 65534 [held 1, free, free, held 2] (running [0] [])) .ok [1, 1] = true ∧
    gives (.rqIsSet 0) (withQueue 65534 [held 1, free, free, held 2] (running [1] [])) .ok [] = true := by decide +kernel

theorem witness_RqStatusReports :
    QueueShape (withQueue 65534 [held 1, free, free, held 2] (running [] [])) ∧ ¬(testCfg.rqCount ≤ 0) ∧
    testCfg.rqCount ≤ 1 := by
  unfold QueueShape
  decide

/-- The window at 65534 of four slots: its last id. -/
theorem witness_WindowSlotsAreDistinct :
    testCfg.legal ∧ classOf testCfg.rqCapacity 65534 1 = .inside ∧
    slotIndex testCfg.rqCapacity 1 = slotIndex testCfg.rqCapacity (65533 + 4) := by decide

/-! ### Witnesses: unit AEAD -/

theorem cacheCoherent_running (args : List Word) (mem : List (Nat × Bytes)) : CacheCoherent (running args mem) := by
  intro dir t ht hv
  have : cacheIndex dir t < 18 := by cases dir <;> simp only [cacheIndex] <;> omega
  simp [cacheEntry, running, State.powerOn, KEntry.invalid, this] at hv

/-- A cache with a valid entry is coherent too. -/
theorem cacheCoherent_warm (args : List Word) (mem : List (Nat × Bytes)) : CacheCoherent (warmRunning args mem) := by
  obtain ⟨c, h, k⟩ := deriveCached_cases .c2s 2 0 (keyedRunning args mem)
  rw [warmRunning, h]
  exact (k (cacheCoherent_clearCache _) (by decide)).2

theorem hazard_warm (args : List Word) (mem : List (Nat × Bytes)) : (warmRunning args mem).hazard = false := by
  obtain ⟨c, h, -⟩ := deriveCached_cases .c2s 2 0 (keyedRunning args mem)
  rw [warmRunning, h]
  rfl

/-- One state for each branch: a region one byte out of range, lengths that sum to 21, and the good one. -/
theorem witness_CryptoInitEntersKeyed :
    (running [0, 10, 16, 10, 32, 32] []).hazard = false ∧
    testCfg.bufSize < (opndRegion (running [0, 10, 16, 10, 65505, 32] []) 4 5).start +
      (opndRegion (running [0, 10, 16, 10, 65505, 32] []) 4 5).len ∧
    (opndRegion (running [0, 10, 16, 11, 65504, 32] []) 0 1).len +
      (opndRegion (running [0, 10, 16, 11, 65504, 32] []) 2 3).len ≠ 20 ∧
    (opndRegion (running [0, 10, 16, 10, 65504, 32] []) 0 1).len +
      (opndRegion (running [0, 10, 16, 10, 65504, 32] []) 2 3).len = 20 := by decide +kernel

/-- One state for each branch. -/
theorem witness_DeriveWritesKeyAndNonce :
    (CacheCoherent (warmRunning [0, 65504] []) ∧ (warmRunning [0, 65504] []).hazard = false) ∧
    (CacheCoherent (running [0, 65504] []) ∧ (running [0, 65504] []).hazard = false) ∧
    gives (.deriveKey 9 .c2s) (running [0, 65505] []) .arg [] = true ∧
    gives (.deriveKey 8 .c2s) (running [0, 65505] []) .range [] = true ∧
    gives (.deriveKey 8 .c2s) (running [0, 65504] []) .notKeyed [] = true ∧
    gives (.deriveKey 2 .c2s) (warmRunning [0, 65504] []) .ok [] = true :=
  ⟨⟨cacheCoherent_warm _ _, hazard_warm _ _⟩, ⟨cacheCoherent_running _ _, by decide⟩, by decide +kernel,
    by decide +kernel, by decide +kernel, by decide +kernel⟩

theorem witness_CacheIsTransparent :
    CacheCoherent (warmRunning [] []) ∧ CacheCoherent { warmRunning [] [] with kcache := (keyedRunning [] []).kcache } := by
  refine ⟨cacheCoherent_warm _ _, ?_⟩
  obtain ⟨c, h, -⟩ := deriveCached_cases .c2s 2 0 (keyedRunning [] [])
  rw [warmRunning, h]
  exact cacheCoherent_clearCache _

/-- One state for each branch (V9.10, V9.11, V9.12). -/
theorem witness_EncryptMakesFrame :
    (CacheCoherent (warmRunning [65523, 0, 0] []) ∧ (warmRunning [65523, 0, 0] []).hazard = false) ∧
    gives (.encrypt .c2s) (running [65524, 0, 0] []) .range [] = true ∧
    gives (.encrypt .c2s) (running [0x300, 0, 0] [(0x308, beBytes 5 0x0002000009)]) .arg [] = true ∧
    gives (.encrypt .c2s) (running [0x300, 0, 0] [(0x308, beBytes 5 0x0065000008)]) .ok [13] = true ∧
    gives (.encrypt .c2s) (warmRunning [65523, 0, 0] [(65531, beBytes 5 0x0002000002)]) .ok [13] = true :=
  ⟨⟨cacheCoherent_warm _ _, hazard_warm _ _⟩, by decide +kernel, by decide +kernel, by decide +kernel,
    by decide +kernel⟩

/-- One state for each branch (V9.5, V9.9, V9.11, V10). -/
theorem witness_DecryptVerifiesFrame :
    (CacheCoherent (warmRunning [65523, 13, 0] []) ∧ (warmRunning [65523, 13, 0] []).hazard = false) ∧
    gives (.decrypt .c2s) (running [65524, 13, 0] []) .range [] = true ∧
    gives (.decrypt .c2s) (running [0x300, 12, 0] []) .format [] = true ∧
    gives (.decrypt .c2s) (running [0x300, 13, 0] [(0x300, zeroBytes 8), (0x308, beBytes 5 0x0002000009)]) .arg [] = true ∧
    gives (.decrypt .c2s) (running [0x300, 13, 0] [(0x300, beBytes 13 0x545333494e495431_0007000184)]) .ok
      [0, 7, 0x84] = true ∧
    gives (.decrypt .c2s) (warmRunning [0x300, 13, 0] [(0x300, beBytes 13 0xeb7b44b52aa08374_0002000002)]) .auth [] = true ∧
    gives (.decrypt .c2s) (warmRunning [65523, 13, 0] [(65523, beBytes 13 0xeb7b44b52aa08375_0002000002)]) .ok
      [0, 2, 2] = true :=
  ⟨⟨cacheCoherent_warm _ _, hazard_warm _ _⟩, by decide +kernel, by decide +kernel, by decide +kernel,
    by decide +kernel, by decide +kernel, by decide +kernel⟩

/-- The hypotheses of DecryptUndoesEncrypt on a state, with the operands of the DECRYPT that follows. -/
def roundTrips (s : State) (args : List Word) : Prop :=
  ∃ t, exec (.encrypt .c2s) s = .next t ∧ t.err = .ok ∧ s.hazard = false ∧ CacheCoherent s ∧ s.cfg.bufSize ≤ 2 ^ 24 ∧
    ({ t with argL := resultRegs args } : State).argL.get 0 = s.argL.get 0 ∧
    ({ t with argL := resultRegs args } : State).argL.get 1 = t.res.get 0 ∧
    ({ t with argL := resultRegs args } : State).argL.get 2 = s.argL.get 2

/-- An unkeyed Init1 frame, and the keyed frame of V9.3, encrypted by EAX, with a body of 10 bytes. -/
theorem witness_DecryptUndoesEncrypt :
    roundTrips (running [0x300, 0, 0] [(0x308, beBytes 5 0x0065000088)]) [0x300, 13, 0] ∧
    roundTrips (keyedRunning [0x100, 10, 0] [(0x100, plainFrame)]) [0x100, 23, 0] :=
  ⟨⟨_, rfl, by decide +kernel, by decide, cacheCoherent_running _ _, by decide, by decide +kernel, by decide +kernel,
      by decide +kernel⟩,
    ⟨_, rfl, by decide +kernel, by decide, cacheCoherent_clearCache _, by decide, by decide +kernel, by decide +kernel,
      by decide +kernel⟩⟩

/-- A running command in a state of the invariant's shape steps. -/
theorem witness_InvariantKeptByStep :
    State.Inv (idleWith [wr 0x014 0]) ∧ ∃ t, step (idleWith [wr 0x014 0]) = .next t := by
  refine ⟨⟨by decide, queueShape_running [] [], ?_, fun _ => ⟨rfl, rfl, by decide⟩, ⟨List.Pairwise.nil, nofun⟩, nofun, nofun, fun _ => rfl⟩,
    _, rfl⟩
  exact cacheCoherent_running [] []

end Sys2Proof.Tests
end

section
/-! The scope statements: the slot map of a reorder window is one-to-one for every legal capacity (O45), and the
power-on state has the shape of every state of a run (O59). -/

namespace Sys2Proof.Machine

/-! ### The slots of a window -/

/-- A legal capacity divides the id space (R10). -/
theorem Config.legal.rqCapacity_dvd {c : Config} (h : c.legal) : c.rqCapacity ∣ 2 ^ 16 := by
  obtain ⟨-, -, hcap, -⟩ := h
  obtain ⟨k, hk, hpow⟩ := List.mem_map.mp hcap
  rw [← hpow]
  exact pow_dvd_pow 2 (List.mem_range.mp hk).le

/-- An id is in the window when its distance from the window's start is below the capacity (R160). -/
theorem classOf_eq_inside_iff {n : Nat} {start id : BitVec 16} :
    classOf n start id = .inside ↔ (id - start).toNat < n := by
  simp only [classOf]
  split
  case isTrue hd => simp only [hd]
  case isFalse hd => split <;> simp only [hd, reduceCtorEq]

/-- The slot of an id by its distance from any window start: where the capacity divides the id space, the wrap from
65535 to 0 does not disturb the slots (R161). -/
theorem slotIndex_eq_distance {n : Nat} (hn : n ∣ 2 ^ 16) (start id : BitVec 16) :
    slotIndex n id = ((id - start).toNat + start.toNat) % n := by
  calc slotIndex n id = (id - start + start).toNat % n := by rw [slotIndex, BitVec.sub_add_cancel]
    _ = ((id - start).toNat + start.toNat) % 2 ^ 16 % n := by rw [BitVec.toNat_add]
    _ = ((id - start).toNat + start.toNat) % n := Nat.mod_mod_of_dvd _ hn

/-- Settles O45: two ids in one slot have distances from the start that agree modulo the capacity, and inside the
window both distances are below it. -/
theorem windowSlotsAreDistinct : Obligations.WindowSlotsAreDistinct := by
  intro c start x y hc hx hy hslot
  have hdvd := Config.legal.rqCapacity_dvd hc
  rw [slotIndex_eq_distance hdvd start x, slotIndex_eq_distance hdvd start y] at hslot
  have hmod : (x - start).toNat ≡ (y - start).toNat [MOD c.rqCapacity] := Nat.ModEq.add_right_cancel' _ hslot
  have hdist : (x - start).toNat = (y - start).toNat :=
    hmod.eq_of_lt_of_lt (classOf_eq_inside_iff.mp hx) (classOf_eq_inside_iff.mp hy)
  exact sub_left_injective (BitVec.eq_of_toNat_eq hdist)

/-! ### The shape of the power-on state -/

/-- The values of R361 give the queues their shape (R47). -/
theorem ResetValues.queueShape {s : State} (h : ResetValues s) : QueueShape s := by
  obtain ⟨-, -, -, -, -, -, -, -, -, -, hcount, hqueues⟩ := h
  refine ⟨hcount, fun q hq => ?_⟩
  obtain ⟨-, -, hslots, hclear⟩ := hqueues q hq
  exact ⟨hslots, fun v hv _ => (hclear v hv).2⟩

theorem ResetValues.cache_invalid {s : State} (h : ResetValues s) : ∀ e ∈ s.kcache.toList, e.valid = false := by
  obtain ⟨-, -, -, -, -, -, -, -, hcache, -⟩ := h
  exact hcache

/-- An entry that the cache does not have reads as an invalid one, so a cache of invalid entries has no valid one. -/
theorem cacheEntry_valid_of_all_invalid {s : State} (h : ∀ e ∈ s.kcache.toList, e.valid = false) (dir : Dir) (t : Nat) :
    (cacheEntry s dir t).valid = false := by
  rw [cacheEntry]
  cases he : s.kcache[cacheIndex dir t]? with
  | none => rfl
  | some e => exact h e (Vector.mem_toList_iff.mpr (Vector.mem_of_getElem? he))

/-- A cache with every entry invalid is coherent (R43). -/
theorem cacheCoherent_of_all_invalid {s : State} (h : ∀ e ∈ s.kcache.toList, e.valid = false) : CacheCoherent s := by
  intro dir t _ hvalid
  rw [cacheEntry_valid_of_all_invalid h dir t] at hvalid
  cases hvalid

/-- The power-on values of R361 have the shape of a run's states for any legal parameters and any memory in its
canonical form inside `BUF`: the shape that every reset, not only the first, starts from. -/
theorem inv_powerOn {c : Config} (hc : c.legal) {m : Memory} (hwf : m.wf) (hin : ∀ e ∈ m.cells, e.1 < c.bufSize)
    (k : Nat) (es : List Event) (b : Option BusResponse) :
    State.Inv { State.powerOn c with buf := m, draws := k, events := es, bus := b } := by
  have hreset := resetValues_powerOn c m k es b
  have hflags : FlagShape { State.powerOn c with buf := m, draws := k, events := es, bus := b } :=
    ⟨fun _ => rfl, fun hazard => hazard, fun _ => rfl⟩
  exact ⟨hc, hreset.queueShape, cacheCoherent_of_all_invalid hreset.cache_invalid,
    fun _ => ⟨rfl, rfl, hreset.cache_invalid⟩, ⟨hwf, hin⟩, hflags⟩

/-- Settles O59: the machine starts with legal parameters and an empty list of memory cells. -/
theorem invariantHoldsAtReset : Obligations.InvariantHoldsAtReset :=
  inv_powerOn params_legal State.reset_buf_wf nofun 0 [] none

end Sys2Proof.Machine
end

section
/-! What a command can do, said once: `Effect` lists every change that a command makes before its completion, and
`exec_cases` says that each command ends in a completion after one of them, hazard or not. The frames, the completion
and the invariant of all commands are cases of it. -/

namespace Sys2Proof.Machine

/-! ### Changes of `BUF` -/

theorem inRegions_of_mem {rs : List Region} {r : Region} (hr : r ∈ rs) {a : Nat} (ha : inRegion r a = true) :
    inRegions rs a = true :=
  List.any_eq_true.mpr ⟨r, hr, ha⟩

/-- The change of a memory of `size` bytes by a command with the output regions `rs`: no byte outside them changes
(R332), the canonical form is kept, and no address past the end is listed (R60). -/
structure BufChange (rs : List Region) (size : Nat) (m m' : Memory) : Prop where
  read_outside : ∀ a, inRegions rs a = false → m'.read a = m.read a
  wf : m.wf → m'.wf
  cells : ∀ c ∈ m'.cells, c ∈ m.cells ∨ c.1 < size

theorem BufChange.refl (rs : List Region) (size : Nat) (m : Memory) : BufChange rs size m m :=
  ⟨fun _ _ => rfl, id, fun _ => .inl⟩

theorem BufChange.trans {rs : List Region} {size : Nat} {m m' m'' : Memory} (h : BufChange rs size m m')
    (k : BufChange rs size m' m'') : BufChange rs size m m'' where
  read_outside a ha := (k.read_outside a ha).trans (h.read_outside a ha)
  wf := k.wf ∘ h.wf
  cells c hc := (k.cells c hc).elim (h.cells c) .inr

/-- A store inside `BUF` and inside the output regions. -/
theorem BufChange.writeBytes {rs : List Region} {size a : Nat} {b : Bytes}
    (hr : ∀ x, inRegion { start := a, len := b.length } x = true → inRegions rs x = true) (hb : a + b.length ≤ size)
    (m : Memory) : BufChange rs size m (m.writeBytes a b) where
  read_outside x hx := by
    have hout : ¬(a ≤ x ∧ x < a + b.length) := fun k => by
      rw [hr x ((inRegion_iff _ x).mpr k)] at hx
      cases hx
    rw [Memory.read_writeBytes, if_neg hout]
  wf h := Memory.wf_writeBytes h a b
  cells c hc := (Memory.mem_writeBytes hc).imp id fun h => by omega

/-- A drawn region among the output regions (R332); what of it is past the end of `BUF` is not drawn. -/
theorem BufChange.drawRegion {rs : List Region} {r : Region} (hr : ∀ x, inRegion r x = true → inRegions rs x = true)
    (s : State) : BufChange rs s.cfg.bufSize s.buf (drawRegion s r).buf where
  read_outside x hx := drawRegion_read (Bool.eq_false_iff.mpr fun k => by simp [hr x k] at hx)
  wf h := drawRegion_wf h r
  cells _ := mem_drawRegion

/-- A memory in the shape that `BufShape` asks keeps it (R60). -/
theorem BufChange.shape {rs : List Region} {size : Nat} {m m' : Memory} (h : BufChange rs size m m')
    (hm : m.wf ∧ ∀ c ∈ m.cells, c.1 < size) : m'.wf ∧ ∀ c ∈ m'.cells, c.1 < size :=
  ⟨h.wf hm.1, fun c hc => (h.cells c hc).elim (hm.2 c) id⟩

/-! ### Changes of the cache by a derivation -/

/-- What a derivation may do to the cache: it stays coherent, and the unkeyed phase derives nothing (R287, R301). -/
structure CacheFill (s : State) (c : Vector KEntry 18) : Prop where
  coherent : CacheCoherent s → CacheCoherent { s with kcache := c }
  unkeyed : s.keyed = false → c = s.kcache

theorem CacheFill.refl (s : State) : CacheFill s s.kcache := ⟨id, fun _ => rfl⟩

/-- A frame in EAX mode has a packet type below 9, which the cache has entries for (R43, R300). -/
theorem typeOf_le_of_eax {s : State} {tf : Byte} (h : frameMode s tf = .eax) : typeOf tf ≤ 8 := by
  by_contra hlt
  rw [frameMode, if_pos (by omega)] at h
  cases h

theorem deriveCached_fill {dir : Dir} {t : Nat} {gen : BitVec 32} {s : State} (hk : s.keyed = true) (ht : t ≤ 8) :
    ∃ c, (deriveCached dir t gen s).2 = { s with kcache := c } ∧ CacheFill s c := by
  obtain ⟨c, hstate, hcoh⟩ := deriveCached_cases dir t gen s
  exact ⟨c, hstate, fun hc => (hcoh hc ht).2, fun hu => by rw [hk] at hu; cases hu⟩

theorem keysFor_fill {dir : Dir} {t : Nat} {pid : BitVec 16} {gen : BitVec 32} {s : State} (ht : t ≤ 8) :
    ∃ c, (keysFor dir t pid gen s).2 = { s with kcache := c } ∧ CacheFill s c := by
  obtain ⟨c, hstate, hcoh, hu⟩ := keysFor_cases dir t pid gen s
  exact ⟨c, hstate, fun hc => (hcoh hc ht).2, hu⟩

/-! ### The effects of the commands -/

/-- The three commands that derive a key and a nonce (R301, R307). -/
def derives : Instr → Bool
  | .deriveKey _ _ => true
  | .encrypt _ => true
  | .decrypt _ => true
  | _ => false

/-- The state that a command completes from: `BUF` and the draws by any command, inside its output regions; the cache by
a command that derives; and the unit state by the commands whose rules change it. -/
inductive Effect (s : State) : Instr → State → Prop
  | buf {i : Instr} {m : Memory} (k : Nat) (hm : BufChange (outputRegions i s) s.cfg.bufSize s.buf m) :
      Effect s i { s with buf := m, draws := k }
  | derived {i : Instr} {m : Memory} {c : Vector KEntry 18} (hi : derives i = true) (hc : CacheFill s c)
      (hm : BufChange (outputRegions i s) s.cfg.bufSize s.buf m) : Effect s i { s with kcache := c, buf := m }
  | seqNext (p : Nat) (v : TxCounter) : Effect s (.seqNext p) (setCounter p v s)
  | seqSet (p : Nat) (v : TxCounter) : Effect s (.seqSet p) (setCounter p v s)
  | rqInit {q : Nat} (start : BitVec 16) (gen : BitVec 32) :
      Effect s (.rqInit q) (setQueue q (RQueue.empty s.cfg.rqCapacity start gen) s)
  | rqSet {q : Nat} (k : Nat) (v : Word) (hq : q < s.cfg.rqCount) :
      Effect s (.rqSet q) (setQueue q (setSlot k ⟨true, v⟩ (queueOf s q)) s)
  | rqDequeue {q : Nat} (hq : q < s.cfg.rqCount) :
      Effect s (.rqDequeue q) (setQueue q (dequeued s.cfg.rqCapacity (queueOf s q)) s)
  | cryptoInit (iv : Vector Byte 20) (f : Vector Byte 8) (k : Nat) :
      Effect s .cryptoInit (clearCache { s with keyed := true, iv := iv, fakeSig := f, draws := k })
  | cryptoReset :
      Effect s .cryptoReset
        (clearCache { s with keyed := false, iv := Vector.replicate 20 0, fakeSig := Vector.replicate 8 0 })

/-- The state is a completion after an effect of the command (R121). -/
def CompletedBy (i : Instr) (s t : State) : Prop := ∃ e r u, Effect s i u ∧ t = completeWith e r u

theorem Effect.completedBy {i : Instr} {s u : State} (h : Effect s i u) (e : ErrCode) (r : Vector Word 8) :
    CompletedBy i s (completeWith e r u) := ⟨e, r, u, h, rfl⟩

/-- A completion that changes nothing else: every early error, and every command that only reports. -/
theorem CompletedBy.unchanged {i : Instr} {s : State} (e : ErrCode) (r : Vector Word 8) :
    CompletedBy i s (completeWith e r s) :=
  (Effect.buf s.draws (.refl _ _ _)).completedBy e r

theorem CompletedBy.raised {i : Instr} {s : State} (e : ErrCode) : CompletedBy i s (raise e s) := .unchanged e _

theorem CompletedBy.reported {i : Instr} {s : State} (rs : List Word) : CompletedBy i s (complete rs s) :=
  .unchanged .ok _

/-- A completion after a store into the output regions. -/
theorem CompletedBy.stored {i : Instr} {s : State} {a : Nat} {b : Bytes} (rs : List Word)
    (hr : ∀ x, inRegion { start := a, len := b.length } x = true → inRegions (outputRegions i s) x = true)
    (hb : a + b.length ≤ s.cfg.bufSize) : CompletedBy i s (complete rs (storeBytes a b s)) :=
  (Effect.buf s.draws (.writeBytes hr hb s.buf)).completedBy .ok _

/-- An error after which an output region holds any value (R332). -/
theorem CompletedBy.drawn {i : Instr} {s : State} {r : Region} (e : ErrCode)
    (hr : ∀ x, inRegion r x = true → inRegions (outputRegions i s) x = true) :
    CompletedBy i s (raise e (drawRegion s r)) :=
  (Effect.buf (s.draws + 1) (.drawRegion hr s)).completedBy e _

/-- A completion under a hazard: CRYPTO_INIT alone may change more than `BUF` and the draws (R70). -/
theorem hazardComplete_completedBy (i : Instr) (s : State) : CompletedBy i s (hazardComplete i s) := by
  by_cases hi : i = .cryptoInit
  · subst hi
    obtain ⟨e, r, k, heq⟩ := hazardComplete_cryptoInit s
    rw [heq]
    rcases hazardCrypto_cases s with h | ⟨iv, f, h⟩
    · rw [h]
      exact (Effect.buf k (.refl _ _ _)).completedBy e r
    · rw [h]
      exact (Effect.cryptoInit iv f k).completedBy e r
  · obtain ⟨e, r, m, k, heq, hread, hwf, hcells⟩ := hazardComplete_cases hi s
    rw [heq]
    exact (Effect.buf k ⟨hread, hwf, hcells⟩).completedBy e r

/-- A check that the rule makes first (R334): where it fails the command ends with the error. -/
theorem CompletedBy.checked {i : Instr} {s t : State} {e : ErrCode} {ok : Bool} (h : ok = true → CompletedBy i s t) :
    CompletedBy i s (if !ok then raise e s else t) := by
  cases ok
  · exact .raised e
  · exact h rfl

/-- The same check, said by the condition of the error. -/
theorem CompletedBy.unless {i : Instr} {s t : State} {e : ErrCode} {bad : Prop} [Decidable bad]
    (h : ¬bad → CompletedBy i s t) : CompletedBy i s (if bad then raise e s else t) := by
  split
  case isTrue => exact .raised e
  case isFalse hok => exact h hok

/-- The outcome is a next state in which the command has completed. -/
def Completes (i : Instr) (s : State) (o : Host.Outcome State Fault Refusal) : Prop :=
  ∃ t, o = .next t ∧ CompletedBy i s t

theorem Completes.next {i : Instr} {s t : State} (h : CompletedBy i s t) : Completes i s (.next t) := ⟨t, rfl, h⟩

theorem Completes.finish {i : Instr} {s n : State} (h : CompletedBy i s n) : Completes i s (finish i s n) := by
  rw [Machine.finish]
  split
  · exact .next (hazardComplete_completedBy i s)
  · exact .next h

theorem inRange_iff (c : Config) (r : Region) : inRange c r = true ↔ r.start + r.len ≤ c.bufSize := decide_eq_true_iff

/-! ### The commands that store to `BUF` -/

theorem execHash_completes (alg : HashAlg) (s : State) : Completes (.hash alg) s (execHash alg s) := by
  refine Completes.finish (.checked fun _ => .checked fun hdst => .stored _ (fun x hx => ?_) ?_)
  · rw [length_hashWith] at hx
    cases alg <;> exact inRegions_of_mem (List.mem_singleton.mpr rfl) hx
  · rw [length_hashWith]
    exact (inRange_iff _ _).mp hdst

theorem execCompress_completes (level : Nat) (s : State) : Completes (.compress level) s (execCompress level s) := by
  have hcover {x n : Nat} (hn : n ≤ opnd s 3) (hx : inRegion { start := opnd s 2, len := n } x = true) :
      inRegions (outputRegions (.compress level) s) x = true := by
    refine inRegions_of_mem (List.mem_singleton.mpr rfl) ?_
    rw [inRegion_iff] at hx ⊢
    exact ⟨hx.1, Nat.lt_of_lt_of_le hx.2 (Nat.add_le_add_left hn _)⟩
  refine Completes.finish (.unless fun _ => .checked fun _ => .checked fun hdst => .unless fun _ => ?_)
  dsimp only
  split
  case isTrue => exact .drawn _ fun x hx => hcover (Nat.le_refl _) hx
  case isFalse hfits =>
    have hlen := Nat.not_lt.mp hfits
    exact .stored _ (fun x hx => hcover hlen hx)
      (Nat.le_trans (Nat.add_le_add_left hlen _) ((inRange_iff _ _).mp hdst))

theorem execDecompress_completes (s : State) : Completes .decompress s (execDecompress s) := by
  refine Completes.finish ?_
  cases hhead : decompressHead s with
  | error e => exact .raised e
  | ok bf =>
    obtain ⟨b, f⟩ := bf
    have hcover (x : Nat) (hx : inRegion { start := opnd s 2, len := f.dlen } x = true) :
        inRegions (outputRegions .decompress s) x = true := inRegions_decompressOutput hhead hx
    obtain ⟨-, -, -, -, hdst, -⟩ := decompressHead_ok hhead
    dsimp only
    cases hdec : lzDecode b f with
    | error e => exact .drawn e hcover
    | ok d =>
      rw [inRange_iff, ← length_lzDecode hdec] at hdst
      exact .stored _ (by rw [length_lzDecode hdec]; exact hcover) hdst

/-! ### The commands that derive -/

theorem execDeriveKey_completes (p : Nat) (dir : Dir) (s : State) :
    Completes (.deriveKey p dir) s (execDeriveKey p dir s) := by
  refine Completes.finish (.checked fun hp => .checked fun hdst => .checked fun hk => ?_)
  obtain ⟨c, hstate, hfill⟩ := deriveCached_fill (dir := dir) (gen := s.argL.get 0) hk (of_decide_eq_true hp)
  obtain ⟨hkey, hnonce⟩ := length_deriveCached dir p (s.argL.get 0) s
  have hlen : ((deriveCached dir p (s.argL.get 0) s).1.1 ++ (deriveCached dir p (s.argL.get 0) s).1.2).length = 32 := by
    rw [List.length_append, hkey, hnonce]
  dsimp only
  rw [hstate]
  refine (Effect.derived rfl hfill (.writeBytes (fun x hx => ?_) ?_ s.buf)).completedBy .ok _
  · rw [hlen] at hx
    exact inRegions_of_mem (List.mem_singleton.mpr rfl) hx
  · rw [hlen]
    exact (inRange_iff _ _).mp hdst

/-- A signature is 8 bytes (R9, R42). -/
theorem length_of_fake {s : State} {tf : Byte} {tag : Bytes} (h : frameMode s tf = .fake tag) : tag.length = 8 := by
  simp only [frameMode] at h
  repeat' split at h
  all_goals cases h
  all_goals exact Vector.length_toList

/-- The tag is stored in the first output region, and the body of an EAX frame in the second (R310). -/
theorem execEncrypt_completes (dir : Dir) (s : State) : Completes (.encrypt dir) s (execEncrypt dir s) := by
  have htag {x n : Nat} (hn : n = 8) (hx : inRegion { start := opnd s 0, len := n } x = true) :
      inRegions (outputRegions (.encrypt dir) s) x = true := by
    subst hn
    exact inRegions_of_mem (List.mem_cons_self ..) hx
  have hbody {x n : Nat} (hn : n = opnd s 1)
      (hx : inRegion { start := opnd s 0 + 8 + headerLen dir, len := n } x = true) :
      inRegions (outputRegions (.encrypt dir) s) x = true := by
    subst hn
    exact inRegions_of_mem (List.mem_cons_of_mem _ (List.mem_singleton.mpr rfl)) hx
  refine Completes.finish (.checked fun hrange => ?_)
  rw [inRange_iff] at hrange
  dsimp only at hrange ⊢
  split
  case h_1 => exact .raised _
  case h_2 tag hmode =>
    have hlen := length_of_fake hmode
    exact .stored _ (fun x hx => htag hlen hx) (by omega)
  case h_3 hmode =>
    obtain ⟨c, hstate, hfill⟩ := keysFor_fill (typeOf_le_of_eax hmode)
    obtain ⟨hct, ht⟩ := length_eaxEnc (length_keysFor ..) _ _ _
    rw [Memory.length_readBytes] at hct
    rw [hstate]
    refine (Effect.derived rfl hfill (.trans (.writeBytes (fun x hx => htag ht hx) ?_ s.buf)
      (.writeBytes (fun x hx => hbody hct hx) ?_ _))).completedBy .ok _
    · omega
    · omega

theorem execDecrypt_completes (dir : Dir) (s : State) : Completes (.decrypt dir) s (execDecrypt dir s) := by
  refine Completes.finish (.checked fun hrange => .unless fun hlong => ?_)
  rw [inRange_iff] at hrange
  dsimp only at hrange ⊢
  split
  case h_1 => exact .raised _
  case h_2 =>
    split
    · exact .reported _
    · exact .raised _
  case h_3 hmode =>
    obtain ⟨c, hstate, hfill⟩ := keysFor_fill (typeOf_le_of_eax hmode)
    rw [hstate]
    split
    case h_1 => exact (Effect.derived rfl hfill (.refl _ _ _)).completedBy .auth _
    case h_2 p hp =>
      have hlen := length_eaxDec (length_keysFor ..) hp
      rw [Memory.length_readBytes] at hlen
      refine (Effect.derived rfl hfill (.writeBytes (fun x hx => ?_) (by omega) s.buf)).completedBy .ok _
      rw [hlen] at hx
      rw [outputRegions, if_pos (Nat.not_lt.mp hlong)]
      exact inRegions_of_mem (List.mem_singleton.mpr rfl) hx

/-! ### The queues -/

theorem execRqSet_completes (q : Nat) (s : State) : Completes (.rqSet q) s (execRqSet q s) := by
  refine Completes.next (.checked fun hq => .checked fun _ => ?_)
  dsimp only
  split
  case h_1 => exact .raised _
  case h_2 => exact .raised _
  case h_3 => exact .unless fun _ => (Effect.rqSet _ _ (of_decide_eq_true hq)).completedBy .ok _

theorem execRqDequeue_completes (q : Nat) (s : State) : Completes (.rqDequeue q) s (execRqDequeue q s) := by
  refine Completes.next (.checked fun hq => ?_)
  dsimp only
  split
  · exact (Effect.rqDequeue (of_decide_eq_true hq)).completedBy .ok _
  · exact .reported _

/-! ### The header fields of a block -/

theorem execLzCsize_completes (s : State) : Completes .lzCsize s (execLzCsize s) := by
  refine Completes.finish ?_
  cases headerFields s with
  | error e => exact .raised e
  | ok f => exact .reported _

theorem execLzDsize_completes (s : State) : Completes .lzDsize s (execLzDsize s) := by
  refine Completes.finish ?_
  cases headerFields s with
  | error e => exact .raised e
  | ok f => exact .reported _

/-- Every command completes after one of its effects, whatever its operands, hazard or not (R121, R335). -/
theorem exec_completes (i : Instr) (s : State) : Completes i s (exec i s) := by
  cases i with
  | nop => exact .next (.reported _)
  | hash alg => exact execHash_completes alg s
  | powLevel => exact .finish (.checked fun _ => .reported _)
  | powSearch target => exact .finish (.checked fun _ => .reported _)
  | compress level => exact execCompress_completes level s
  | decompress => exact execDecompress_completes s
  | lzCsize => exact execLzCsize_completes s
  | lzDsize => exact execLzDsize_completes s
  | rqInit q => exact .next (.checked fun _ => .checked fun _ => (Effect.rqInit _ _).completedBy .ok _)
  | rqSet q => exact execRqSet_completes q s
  | rqDequeue q => exact execRqDequeue_completes q s
  | rqIsSet q => exact .next (.checked fun _ => .checked fun _ => .reported _)
  | rqGen q => exact .next (.checked fun _ => .checked fun _ => .reported _)
  | rqStatus q => exact .next (.checked fun _ => .reported _)
  | seqNext p => exact .next (.checked fun _ => (Effect.seqNext p _).completedBy .ok _)
  | seqRead p => exact .next (.checked fun _ => .reported _)
  | seqSet p => exact .next (.checked fun _ => .checked fun _ => (Effect.seqSet p _).completedBy .ok _)
  | seqDiff => exact .next (.unless fun _ => .reported _)
  | seqResolve => exact .next (.unless fun _ => .reported _)
  | cryptoInit =>
    exact .finish (.checked fun _ => .checked fun _ => .checked fun _ => .unless fun _ =>
      (Effect.cryptoInit _ _ s.draws).completedBy .ok _)
  | cryptoReset => exact .next (Effect.cryptoReset.completedBy .ok _)
  | deriveKey p dir => exact execDeriveKey_completes p dir s
  | encrypt dir => exact execEncrypt_completes dir s
  | decrypt dir => exact execDecrypt_completes dir s

/-- The one next state of a command is a completion after one of its effects. -/
theorem exec_cases {i : Instr} {s t : State} (h : exec i s = .next t) : CompletedBy i s t := by
  obtain ⟨u, hu, hby⟩ := exec_completes i s
  rw [hu] at h
  cases h
  exact hby

end Sys2Proof.Machine
end

section
/-! The statements about every command's completion and frame (O7, O24, O25): cases of `exec_completes`. -/

namespace Sys2Proof.Machine

/-- Settles O7: every command ends in a completion, whichever effect it had before. -/
theorem commandAlwaysCompletes : Obligations.CommandAlwaysCompletes := by
  intro i s
  obtain ⟨t, ht, e, r, u, -, rfl⟩ := exec_completes i s
  exact ⟨_, ht, rfl, rfl, rfl⟩

/-! ### The host's side -/

theorem Effect.sameHostSide {i : Instr} {s u : State} (h : Effect s i u) : SameHostSide s u := by
  cases h <;> exact ⟨rfl, rfl, rfl, rfl, rfl, rfl, rfl, rfl⟩

/-- Settles O24: no effect and no completion touches the host's side. -/
theorem commandsKeepHostSide : Obligations.CommandsKeepHostSide := by
  intro i s t h
  obtain ⟨e, r, u, heff, rfl⟩ := exec_cases h
  exact heff.sameHostSide.trans (sameHostSide_completeWith e r u)

/-! ### The unit state -/

theorem Effect.sameCrypto {i : Instr} {s u : State} (h : Effect s i u) (hinit : i ≠ .cryptoInit)
    (hreset : i ≠ .cryptoReset) : SameCrypto s u := by
  cases h with
  | cryptoInit => exact absurd rfl hinit
  | cryptoReset => exact absurd rfl hreset
  | _ => exact ⟨rfl, rfl, rfl⟩

theorem derives_cases {i : Instr} (h : derives i = true) :
    (∃ p d, i = .deriveKey p d) ∨ (∃ d, i = .encrypt d) ∨ ∃ d, i = .decrypt d := by
  cases i with
  | deriveKey p d => exact .inl ⟨p, d, rfl⟩
  | encrypt d => exact .inr (.inl ⟨d, rfl⟩)
  | decrypt d => exact .inr (.inr ⟨d, rfl⟩)
  | _ => cases h

theorem Effect.kcache {i : Instr} {s u : State} (h : Effect s i u) (hinit : i ≠ .cryptoInit)
    (hreset : i ≠ .cryptoReset) (hderive : derives i = false) : u.kcache = s.kcache := by
  cases h with
  | derived hi => rw [hi] at hderive; cases hderive
  | cryptoInit => exact absurd rfl hinit
  | cryptoReset => exact absurd rfl hreset
  | _ => rfl

theorem Effect.txctr {i : Instr} {s u : State} (h : Effect s i u) (hnext : ∀ p, i ≠ .seqNext p)
    (hset : ∀ p, i ≠ .seqSet p) : u.txctr = s.txctr := by
  cases h with
  | seqNext p => exact absurd rfl (hnext p)
  | seqSet p => exact absurd rfl (hset p)
  | _ => rfl

theorem Effect.rq {i : Instr} {s u : State} (h : Effect s i u) (hinit : ∀ q, i ≠ .rqInit q)
    (hset : ∀ q, i ≠ .rqSet q) (hdequeue : ∀ q, i ≠ .rqDequeue q) : u.rq = s.rq := by
  cases h with
  | rqInit => exact absurd rfl (hinit _)
  | rqSet => exact absurd rfl (hset _)
  | rqDequeue => exact absurd rfl (hdequeue _)
  | _ => rfl

/-- RQ_SET puts a slot and leaves the window where it is, so only RQ_INIT and RQ_DEQUEUE move a window (R168). -/
theorem Effect.window {i : Instr} {s u : State} (h : Effect s i u) (hinit : ∀ q, i ≠ .rqInit q)
    (hdequeue : ∀ q, i ≠ .rqDequeue q) (q : Nat) :
    (queueOf u q).start = (queueOf s q).start ∧ (queueOf u q).gen = (queueOf s q).gen := by
  cases h with
  | rqInit => exact absurd rfl (hinit _)
  | rqDequeue => exact absurd rfl (hdequeue _)
  | rqSet =>
    rw [queueOf_setQueue]
    split
    case isTrue hq =>
      obtain ⟨rfl, -⟩ := hq
      exact ⟨rfl, rfl⟩
    case isFalse => exact ⟨rfl, rfl⟩
  | _ => exact ⟨rfl, rfl⟩

/-- Settles O25: each part of the unit state by the effects that change it. -/
theorem unitStateChangesOnlyByItsCommands : Obligations.UnitStateChangesOnlyByItsCommands := by
  intro i s t h
  obtain ⟨e, r, u, heff, rfl⟩ := exec_cases h
  refine ⟨heff.sameCrypto, fun hinit hreset hkey henc hdec => heff.kcache hinit hreset ?_, heff.txctr, heff.rq,
    heff.window⟩
  refine Bool.eq_false_iff.mpr fun hi => ?_
  rcases derives_cases hi with ⟨p, d, rfl⟩ | ⟨d, rfl⟩ | ⟨d, rfl⟩
  · exact hkey p d rfl
  · exact henc d rfl
  · exact hdec d rfl

end Sys2Proof.Machine
end

section
/-! The invariant of every run (O60): each effect of a command keeps each part of `State.Inv`, and so does everything
else that a step can do. -/

namespace Sys2Proof.Machine

/-! ### What a step can do -/

/-- A step serves the next event, or with none left ends the running command: an idle TTE stays as it is, a running
command completes, an access is served, or the power-on reset is taken (R70, R121, R355, R361). -/
theorem step_cases {s t : State} (h : step s = .next t) :
    ∃ rest, (s.busy = false ∧ t = { s with events := rest }) ∨
      (s.busy = true ∧ engineStep { s with events := rest } = .next t) ∨
      (∃ a, s.events = .access a :: rest ∧ serveAccess a { s with events := rest } = .next t) ∨
      t = powerOnReset { s with events := rest } := by
  have hengine (rest : List Event)
      (h : (if s.busy then engineStep { s with events := rest } else .next { s with events := rest }) = .next t) :
      (s.busy = false ∧ t = { s with events := rest }) ∨
        (s.busy = true ∧ engineStep { s with events := rest } = .next t) := by
    split at h
    case isTrue hb => exact .inr ⟨hb, h⟩
    case isFalse hb =>
      cases h
      exact .inl ⟨Bool.eq_false_iff.mpr hb, rfl⟩
  cases hev : s.events with
  | nil =>
    rw [step_of_no_event hev] at h
    refine ⟨[], (hengine [] ?_).imp_right .inl⟩
    rw [← hev]
    exact h
  | cons e rest =>
    cases e with
    | access a =>
      rw [step_of_access hev] at h
      exact ⟨rest, .inr (.inr (.inl ⟨a, rfl, h⟩))⟩
    | engine =>
      rw [step_of_engine hev] at h
      exact ⟨rest, (hengine rest h).imp_right .inl⟩
    | powerOn =>
      rw [step_of_powerOn hev] at h
      cases h
      exact ⟨rest, .inr (.inr (.inr rfl))⟩

/-- The running command completes: its effect, or none where the word is illegal (R107, R121). -/
theorem engineStep_cases {s t : State} (h : engineStep s = .next t) :
    (∃ i, decode s.cmdL = .ok i ∧ CompletedBy i s t) ∨ (∃ e, decode s.cmdL = .error e) ∧ t = raise .illegal s := by
  cases hd : decode s.cmdL with
  | ok i =>
    rw [engineStep_of_decode hd] at h
    exact .inl ⟨i, rfl, exec_cases h⟩
  | error e =>
    simp only [engineStep, hd] at h
    cases h
    exact .inr ⟨⟨e, rfl⟩, rfl⟩

/-! ### The queues -/

/-- Putting a queue of the right shape keeps the shape (R47). -/
theorem QueueShape.setQueue {s : State} (h : QueueShape s) (q : Nat) {v : RQueue}
    (hlen : v.slots.length = s.cfg.rqCapacity) (hclear : ∀ x ∈ v.slots, x.present = false → x.value = 0) :
    QueueShape (setQueue q v s) := by
  obtain ⟨hcount, hall⟩ := h
  refine ⟨List.length_set.trans hcount, fun p hp => ?_⟩
  rcases List.mem_or_eq_of_mem_set hp with hp | rfl
  · exact hall p hp
  · exact ⟨hlen, hclear⟩

theorem queueOf_mem {s : State} (h : QueueShape s) {q : Nat} (hq : q < s.cfg.rqCount) : queueOf s q ∈ s.rq := by
  have hlt : q < s.rq.length := by rw [h.1]; exact hq
  rw [queueOf, List.getD_eq_getElem?_getD, List.getElem?_eq_getElem hlt]
  exact List.getElem_mem hlt

/-- A slot that is present, or holds 0, put into a queue of the right shape. -/
theorem setSlot_clear {v : RQueue} (hclear : ∀ x ∈ v.slots, x.present = false → x.value = 0) (k : Nat) {y : Slot}
    (hy : y.present = false → y.value = 0) : ∀ x ∈ (setSlot k y v).slots, x.present = false → x.value = 0 := by
  intro x hx
  rcases List.mem_or_eq_of_mem_set hx with hx | rfl
  · exact hclear x hx
  · exact hy

theorem Effect.queueShape {i : Instr} {s u : State} (h : Effect s i u) (hs : QueueShape s) : QueueShape u := by
  cases h with
  | rqInit start gen =>
    refine hs.setQueue _ List.length_replicate fun x hx _ => ?_
    rw [List.eq_of_mem_replicate hx]
  | rqSet k v hq =>
    obtain ⟨hlen, hclear⟩ := hs.2 _ (queueOf_mem hs hq)
    exact hs.setQueue _ (List.length_set.trans hlen) (setSlot_clear hclear k nofun)
  | rqDequeue hq =>
    obtain ⟨hlen, hclear⟩ := hs.2 _ (queueOf_mem hs hq)
    exact hs.setQueue _ (List.length_set.trans hlen) (setSlot_clear hclear _ fun _ => rfl)
  | _ => exact hs

/-! ### The cache and the unkeyed phase -/

theorem clearCache_invalid (s : State) : ∀ e ∈ (clearCache s).kcache.toList, e.valid = false := by
  simp

theorem Effect.cacheCoherent {i : Instr} {s u : State} (h : Effect s i u) (hs : CacheCoherent s) :
    CacheCoherent u := by
  cases h with
  | derived _ hc => exact hc.coherent hs
  | cryptoInit => exact cacheCoherent_clearCache _
  | cryptoReset => exact cacheCoherent_clearCache _
  | _ => exact hs

theorem Effect.unkeyedClear {i : Instr} {s u : State} (h : Effect s i u) (hs : UnkeyedClear s) : UnkeyedClear u := by
  cases h with
  | derived _ hc =>
    intro hk
    obtain ⟨hiv, hsig, hcache⟩ := hs hk
    refine ⟨hiv, hsig, ?_⟩
    rw [hc.unkeyed hk]
    exact hcache
  | cryptoInit => exact nofun
  | cryptoReset => exact fun _ => ⟨rfl, rfl, clearCache_invalid _⟩
  | _ => exact hs

/-! ### `BUF` -/

theorem Effect.bufShape {i : Instr} {s u : State} (h : Effect s i u) (hs : BufShape s) : BufShape u := by
  cases h with
  | buf _ hm => exact hm.shape hs
  | derived _ _ hm => exact hm.shape hs
  | _ => exact hs

/-- A host write inside `BUF` keeps its shape (R60, R65). -/
theorem BufShape.storeBytes {s : State} (h : BufShape s) {a : Nat} {b : Bytes} (hb : a + b.length ≤ s.cfg.bufSize) :
    BufShape (storeBytes a b s) :=
  (BufChange.writeBytes (fun _ hx => inRegions_of_mem (List.mem_singleton.mpr rfl) hx) hb s.buf).shape h

/-! ### The invariant -/

/-- A completion leaves the flags in shape, so its invariant is that of the state before, but for its flags (R28). -/
theorem inv_completeWith {s : State} (hcfg : s.cfg.legal) (hrq : QueueShape s) (hcache : CacheCoherent s)
    (hclear : UnkeyedClear s) (hbuf : BufShape s) (e : ErrCode) (r : Vector Word 8) :
    State.Inv (completeWith e r s) :=
  ⟨hcfg, hrq, hcache, hclear, hbuf, nofun, nofun, fun _ => rfl⟩

theorem CompletedBy.inv {i : Instr} {s t : State} (h : CompletedBy i s t) (hs : State.Inv s) : State.Inv t := by
  obtain ⟨e, r, u, heff, rfl⟩ := h
  obtain ⟨hcfg, hrq, hcache, hclear, hbuf, -⟩ := hs
  obtain ⟨hsame, -⟩ := heff.sameHostSide
  exact inv_completeWith (hsame ▸ hcfg) (heff.queueShape hrq) (heff.cacheCoherent hcache) (heff.unkeyedClear hclear)
    (heff.bufShape hbuf) e r

theorem inv_engineStep {s t : State} (h : engineStep s = .next t) (hs : State.Inv s) : State.Inv t := by
  rcases engineStep_cases h with ⟨i, -, hby⟩ | ⟨-, rfl⟩
  · exact hby.inv hs
  · exact (CompletedBy.raised (i := .nop) .illegal).inv hs

/-- A soft reset starts again from the shape of the power-on state, with the `BUF` that it leaves (R362). -/
theorem inv_softReset {s : State} (hs : State.Inv s) : State.Inv (softReset s) := by
  obtain ⟨m, k, heq, -, -, hwf, hcells⟩ := softReset_cases s
  obtain ⟨hcfg, -, -, -, ⟨hbuf, hin⟩, -⟩ := hs
  rw [heq]
  exact inv_powerOn hcfg (hwf hbuf) (fun c hc => (hcells c hc).elim (hin c) id) k s.events none

theorem inv_powerOnReset {s : State} (hs : State.Inv s) : State.Inv (powerOnReset s) :=
  inv_powerOn (m := { cells := [], epoch := s.buf.epoch + 1 }) hs.1 .nil nofun s.draws s.events none

theorem inv_issue {s : State} (hs : State.Inv s) (w : Word) : State.Inv (issue w s) := by
  obtain ⟨hcfg, hrq, hcache, hclear, hbuf, -⟩ := hs
  exact ⟨hcfg, hrq, hcache, hclear, hbuf, fun _ => rfl, nofun, nofun⟩

theorem inv_writeStatus {s : State} (hs : State.Inv s) (v : Word) : State.Inv (writeStatus v s) := by
  obtain ⟨hcfg, hrq, hcache, hclear, hbuf, hdone, hflags⟩ := hs
  refine ⟨hcfg, hrq, hcache, hclear, hbuf, fun hb => ?_, hflags⟩
  rw [writeStatus_done, hdone hb, Bool.false_and]

/-- A write of `CTRL`, `STATUS` or `CMD` is a reset, a change of flags or an issue; no other register write reaches a
field that the invariant speaks of. -/
theorem inv_writeReg {s : State} (hs : State.Inv s) (r : Reg) (v : Word) : State.Inv (writeReg r v s) := by
  cases r with
  | ctrl =>
    rw [writeReg, writeCtrl]
    split
    · exact inv_softReset hs
    · exact hs
  | status => exact inv_writeStatus hs v
  | cmd =>
    rw [writeReg, writeCmd]
    split
    · exact hs
    · exact inv_issue hs v
  | _ => exact hs

/-- The answer on the bus and the number of draws are no part of the invariant. -/
theorem inv_respond {s : State} (hs : State.Inv s) (d : Word) (k : Nat) : State.Inv (respond d { s with draws := k }) :=
  hs

theorem inv_serveReg {s : State} (hs : State.Inv s) (a : Access) (off : Nat) : State.Inv (serveReg a off s) := by
  cases a with
  | read w addr =>
    rw [serveReg]
    split
    · obtain ⟨d, k, heq, -⟩ := readReg_cases (regAt off) s
      rw [heq]
      exact inv_respond hs d k
    · exact hs
  | write w addr v =>
    rw [serveReg]
    split
    · exact inv_writeReg hs (regAt off) v
    · exact hs

/-- A host write inside `BUF` stores bytes there and marks a hazard only while a command runs (R70). -/
theorem inv_writeBuf {s : State} (hs : State.Inv s) {w : Width} {off : Nat} (hoff : off + widthBytes w ≤ s.cfg.bufSize)
    (v : Word) : State.Inv (writeBuf w off v s) := by
  obtain ⟨b, c, heq, hhazard, hclaimed⟩ := writeBuf_cases w off v s
  obtain ⟨hcfg, hrq, hcache, hclear, hbuf, hdone, hrun, hidle⟩ := hs
  rw [heq]
  refine ⟨hcfg, hrq, hcache, hclear, BufShape.storeBytes hbuf ?_, hdone, fun hb => (hhazard hb).elim hrun id,
    fun hb => (hclaimed hb).trans (hidle hb)⟩
  rw [length_leBytes]
  exact hoff

theorem inv_serveBuf {s : State} (hs : State.Inv s) (a : Access) (off : Nat) : State.Inv (serveBuf a off s) := by
  cases a with
  | read w addr =>
    rw [serveBuf]
    split
    · obtain ⟨d, k, heq, -⟩ := readBuf_cases w off s
      rw [heq]
      exact inv_respond hs d k
    · exact hs
  | write w addr v =>
    rw [serveBuf]
    split
    case isTrue hlegal =>
      rw [bufAccessLegal, Bool.and_eq_true, decide_eq_true_eq, decide_eq_true_eq] at hlegal
      exact inv_writeBuf hs hlegal.2 v
    case isFalse => exact hs

/-- Settles O60: the invariant does not speak of the events to come, so a step keeps it where serving its event does. -/
theorem invariantKeptByStep : Obligations.InvariantKeptByStep := by
  intro s t hs h
  obtain ⟨rest, ⟨-, rfl⟩ | ⟨-, hrun⟩ | ⟨a, -, hserve⟩ | rfl⟩ := step_cases h
  · exact hs
  · exact inv_engineStep hrun hs
  · have hrest : State.Inv { s with events := rest } := hs
    rcases serveAccess_cases hserve with rfl | rfl
    · exact inv_serveReg hrest a _
    · exact inv_serveBuf hrest a _
  · exact inv_powerOnReset hs

end Sys2Proof.Machine
end

section
/-! The cache is transparent (O55): states that differ in the cache alone are carried along every command, and a
derivation gives both the same pair because both caches are coherent. -/

namespace Sys2Proof.Machine

/-- The state with another cache. -/
def withCache (c : Vector KEntry 18) (s : State) : State := { s with kcache := c }

/-- The second state is the first with another cache. -/
def SameButCache (t u : State) : Prop := ∃ c, u = withCache c t

/-- Both outcomes are next states, which differ in the cache alone. -/
def AgreeButCache (o o' : Host.Outcome State Fault Refusal) : Prop :=
  ∃ t u, o = .next t ∧ o' = .next u ∧ SameButCache t u

theorem AgreeButCache.next {t u : State} (h : SameButCache t u) : AgreeButCache (.next t) (.next u) :=
  ⟨t, u, rfl, rfl, h⟩

theorem SameButCache.ite {p : Prop} [Decidable p] {a a' b b' : State} (ha : SameButCache a a')
    (hb : ¬p → SameButCache b b') : SameButCache (if p then a else b) (if p then a' else b') := by
  split
  case isTrue => exact ha
  case isFalse hp => exact hb hp

/-- A check that does not look at the cache, made before the rest of the rule (R334). -/
theorem SameButCache.checked {p : Prop} [Decidable p] {e : ErrCode} {s t u : State} {c : Vector KEntry 18}
    (h : ¬p → SameButCache t u) :
    SameButCache (if p then Machine.raise e s else t) (if p then Machine.raise e (withCache c s) else u) :=
  .ite ⟨c, rfl⟩ h

theorem SameButCache.raise {t u : State} (h : SameButCache t u) (e : ErrCode) :
    SameButCache (raise e t) (raise e u) := by
  obtain ⟨c, rfl⟩ := h
  exact ⟨c, rfl⟩

theorem SameButCache.complete {t u : State} (h : SameButCache t u) (rs : List Word) :
    SameButCache (complete rs t) (complete rs u) := by
  obtain ⟨c, rfl⟩ := h
  exact ⟨c, rfl⟩

theorem SameButCache.storeBytes {t u : State} (h : SameButCache t u) (a : Nat) (b : Bytes) :
    SameButCache (storeBytes a b t) (storeBytes a b u) := by
  obtain ⟨c, rfl⟩ := h
  exact ⟨c, rfl⟩

/-! ### The hazard -/

theorem outputRegions_withCache (i : Instr) (c : Vector KEntry 18) (s : State) :
    outputRegions i (withCache c s) = outputRegions i s := by
  cases i <;> rfl

theorem drawRegions_withCache (rs : List Region) (c : Vector KEntry 18) (s : State) :
    drawRegions rs (withCache c s) = withCache c (drawRegions rs s) := by
  induction rs generalizing s with
  | nil => rfl
  | cons r rs ih => exact ih (drawRegion s r)

theorem hazardCrypto_withCache (i : Instr) (c : Vector KEntry 18) (s : State) :
    SameButCache (hazardCrypto i s) (hazardCrypto i (withCache c s)) := by
  by_cases hi : i = .cryptoInit
  · subst hi
    by_cases hb : Config.freeBool s.draws = true
    · exact ⟨_, by rw [hazardCrypto, hazardCrypto, if_pos hb, withCache, if_pos hb]; rfl⟩
    · exact ⟨c, by rw [hazardCrypto, hazardCrypto, if_neg hb, withCache, if_neg hb]; rfl⟩
  · exact ⟨c, by rw [hazardCrypto_of_ne hi, hazardCrypto_of_ne hi]⟩

/-- The free values of a completion under a hazard do not look at the cache (R70). -/
theorem hazardComplete_withCache (i : Instr) (c : Vector KEntry 18) (s : State) :
    SameButCache (hazardComplete i s) (hazardComplete i (withCache c s)) := by
  obtain ⟨c', h⟩ := hazardCrypto_withCache i c (drawRegions (outputRegions i s) s)
  refine ⟨c', ?_⟩
  rw [hazardComplete, outputRegions_withCache, drawRegions_withCache, h]
  rfl

theorem AgreeButCache.finish {s n n' : State} {c : Vector KEntry 18} (h : SameButCache n n') (i : Instr) :
    AgreeButCache (finish i s n) (finish i (withCache c s) n') :=
  .next (.ite (hazardComplete_withCache i c s) fun _ => h)

/-! ### Derivations -/

theorem deriveCached_sameButCache {s u : State} (h : SameButCache s u) (hs : CacheCoherent s) (hu : CacheCoherent u)
    (dir : Dir) {t : Nat} (ht : t ≤ 8) (gen : BitVec 32) :
    (deriveCached dir t gen u).1 = (deriveCached dir t gen s).1 ∧
      SameButCache (deriveCached dir t gen s).2 (deriveCached dir t gen u).2 := by
  obtain ⟨c, rfl⟩ := h
  obtain ⟨c₁, hstate₁, hfresh₁⟩ := deriveCached_cases dir t gen s
  obtain ⟨c₂, hstate₂, hfresh₂⟩ := deriveCached_cases dir t gen (withCache c s)
  refine ⟨(hfresh₂ hu ht).1.trans (hfresh₁ hs ht).1.symm, c₂, ?_⟩
  rw [hstate₁, hstate₂]
  rfl

/-- The keys of a frame are those of a fresh derivation in both states (R301). -/
theorem keysFor_sameButCache {s u : State} (h : SameButCache s u) (hs : CacheCoherent s) (hu : CacheCoherent u)
    (dir : Dir) {t : Nat} (ht : t ≤ 8) (pid : BitVec 16) (gen : BitVec 32) :
    (keysFor dir t pid gen u).1 = (keysFor dir t pid gen s).1 ∧
      SameButCache (keysFor dir t pid gen s).2 (keysFor dir t pid gen u).2 := by
  obtain ⟨c, rfl⟩ := h
  obtain ⟨c₁, hstate₁, hfresh₁, -⟩ := keysFor_cases dir t pid gen s
  obtain ⟨c₂, hstate₂, hfresh₂, -⟩ := keysFor_cases dir t pid gen (withCache c s)
  refine ⟨(hfresh₂ hu ht).1.trans (hfresh₁ hs ht).1.symm, c₂, ?_⟩
  rw [hstate₁, hstate₂]
  rfl

theorem execDeriveKey_withCache (p : Nat) (dir : Dir) {s : State} {c : Vector KEntry 18} (hs : CacheCoherent s)
    (hc : CacheCoherent (withCache c s)) :
    AgreeButCache (execDeriveKey p dir s) (execDeriveKey p dir (withCache c s)) := by
  refine .finish (.checked fun hp => .checked fun _ => .checked fun _ => ?_) _
  rw [Bool.not_eq_true', Bool.not_eq_false, ptypeLegal, decide_eq_true_eq] at hp
  obtain ⟨hkn, hstate⟩ := deriveCached_sameButCache ⟨c, rfl⟩ hs hc dir hp (s.argL.get 0)
  dsimp only
  rw [show (withCache c s).argL = s.argL from rfl, hkn]
  exact (hstate.storeBytes _ _).complete _

/-- The frame and its mode do not depend on the cache (R300). -/
theorem frame_withCache (c : Vector KEntry 18) (s : State) :
    (withCache c s).buf = s.buf ∧ (withCache c s).argL = s.argL ∧ opnd (withCache c s) = opnd s ∧
      frameMode (withCache c s) = frameMode s := ⟨rfl, rfl, rfl, rfl⟩

theorem execEncrypt_withCache (dir : Dir) {s : State} {c : Vector KEntry 18} (hs : CacheCoherent s)
    (hc : CacheCoherent (withCache c s)) : AgreeButCache (execEncrypt dir s) (execEncrypt dir (withCache c s)) := by
  obtain ⟨hbuf, hargL, hopnd, hmode⟩ := frame_withCache c s
  refine .finish (.checked fun _ => ?_) _
  dsimp only
  rw [hbuf, hargL, hopnd, hmode]
  cases hm : frameMode s (headerType dir (s.buf.readBytes (opnd s 0 + 8) (headerLen dir))) with
  | badType => exact ⟨c, rfl⟩
  | fake tag => exact ⟨c, rfl⟩
  | eax =>
    obtain ⟨hkn, hstate⟩ := keysFor_sameButCache ⟨c, rfl⟩ hs hc dir (typeOf_le_of_eax hm)
      (headerId (s.buf.readBytes (opnd s 0 + 8) (headerLen dir))) (s.argL.get 2)
    dsimp only
    rw [hkn]
    exact ((hstate.storeBytes _ _).storeBytes _ _).complete _

theorem execDecrypt_withCache (dir : Dir) {s : State} {c : Vector KEntry 18} (hs : CacheCoherent s)
    (hc : CacheCoherent (withCache c s)) : AgreeButCache (execDecrypt dir s) (execDecrypt dir (withCache c s)) := by
  obtain ⟨hbuf, hargL, hopnd, hmode⟩ := frame_withCache c s
  refine .finish (.checked fun _ => .checked fun _ => ?_) _
  dsimp only
  rw [hbuf, hargL, hopnd, hmode]
  cases hm : frameMode s (headerType dir (s.buf.readBytes (opnd s 0 + 8) (headerLen dir))) with
  | badType => exact ⟨c, rfl⟩
  | fake tag => exact .ite ⟨c, rfl⟩ fun _ => ⟨c, rfl⟩
  | eax =>
    obtain ⟨hkn, hstate⟩ := keysFor_sameButCache ⟨c, rfl⟩ hs hc dir (typeOf_le_of_eax hm)
      (headerId (s.buf.readBytes (opnd s 0 + 8) (headerLen dir))) (s.argL.get 2)
    dsimp only
    rw [hkn]
    generalize eaxDec _ _ _ _ _ = plain
    cases plain with
    | none => exact hstate.raise _
    | some p => exact (hstate.storeBytes _ _).complete _

/-! ### The commands -/

theorem execDecompress_withCache (c : Vector KEntry 18) (s : State) :
    AgreeButCache (execDecompress s) (execDecompress (withCache c s)) := by
  refine .finish ?_ _
  rw [show decompressHead (withCache c s) = decompressHead s from rfl]
  cases decompressHead s with
  | error e => exact ⟨c, rfl⟩
  | ok bf =>
    dsimp only
    cases lzDecode bf.1 bf.2 with
    | error e => exact ⟨c, rfl⟩
    | ok d => exact ⟨c, rfl⟩

theorem execLzCsize_withCache (c : Vector KEntry 18) (s : State) :
    AgreeButCache (execLzCsize s) (execLzCsize (withCache c s)) := by
  refine .finish ?_ _
  rw [show headerFields (withCache c s) = headerFields s from rfl]
  cases headerFields s with
  | error e => exact ⟨c, rfl⟩
  | ok f => exact ⟨c, rfl⟩

theorem execLzDsize_withCache (c : Vector KEntry 18) (s : State) :
    AgreeButCache (execLzDsize s) (execLzDsize (withCache c s)) := by
  refine .finish ?_ _
  rw [show headerFields (withCache c s) = headerFields s from rfl]
  cases headerFields s with
  | error e => exact ⟨c, rfl⟩
  | ok f => exact ⟨c, rfl⟩

theorem execRqSet_withCache (q : Nat) (c : Vector KEntry 18) (s : State) :
    AgreeButCache (execRqSet q s) (execRqSet q (withCache c s)) := by
  refine .next (.checked fun _ => .checked fun _ => ?_)
  dsimp only
  rw [show (withCache c s).cfg = s.cfg from rfl, show queueOf (withCache c s) q = queueOf s q from rfl,
    show opndId (withCache c s) 0 = opndId s 0 from rfl]
  cases classOf s.cfg.rqCapacity (queueOf s q).start (opndId s 0) with
  | inside => exact .checked fun _ => ⟨c, rfl⟩
  | below => exact ⟨c, rfl⟩
  | above => exact ⟨c, rfl⟩

/-- Every command carries two states that differ only in a coherent cache to two such states; only the four that read
or clear the cache leave different caches. -/
theorem exec_withCache (i : Instr) {s : State} {c : Vector KEntry 18} (hs : CacheCoherent s)
    (hc : CacheCoherent (withCache c s)) : AgreeButCache (exec i s) (exec i (withCache c s)) := by
  cases i with
  | nop => exact .next ⟨c, rfl⟩
  | hash alg => exact .finish (.checked fun _ => .checked fun _ => ⟨c, rfl⟩) _
  | powLevel => exact .finish (.checked fun _ => ⟨c, rfl⟩) _
  | powSearch target => exact .finish (.checked fun _ => ⟨c, rfl⟩) _
  | compress level =>
    exact .finish (.checked fun _ => .checked fun _ => .checked fun _ => .checked fun _ =>
      .ite ⟨c, rfl⟩ fun _ => ⟨c, rfl⟩) _
  | decompress => exact execDecompress_withCache c s
  | lzCsize => exact execLzCsize_withCache c s
  | lzDsize => exact execLzDsize_withCache c s
  | rqInit q => exact .next (.checked fun _ => .checked fun _ => ⟨c, rfl⟩)
  | rqSet q => exact execRqSet_withCache q c s
  | rqDequeue q => exact .next (.checked fun _ => .ite ⟨c, rfl⟩ fun _ => ⟨c, rfl⟩)
  | rqIsSet q => exact .next (.checked fun _ => .checked fun _ => ⟨c, rfl⟩)
  | rqGen q => exact .next (.checked fun _ => .checked fun _ => ⟨c, rfl⟩)
  | rqStatus q => exact .next (.checked fun _ => ⟨c, rfl⟩)
  | seqNext p => exact .next (.checked fun _ => ⟨c, rfl⟩)
  | seqRead p => exact .next (.checked fun _ => ⟨c, rfl⟩)
  | seqSet p => exact .next (.checked fun _ => .checked fun _ => ⟨c, rfl⟩)
  | seqDiff => exact .next (.checked fun _ => ⟨c, rfl⟩)
  | seqResolve => exact .next (.checked fun _ => ⟨c, rfl⟩)
  | cryptoInit =>
    exact .finish (.checked fun _ => .checked fun _ => .checked fun _ => .checked fun _ => ⟨_, rfl⟩) _
  | cryptoReset => exact .next ⟨_, rfl⟩
  | deriveKey p dir => exact execDeriveKey_withCache p dir hs hc
  | encrypt dir => exact execEncrypt_withCache dir hs hc
  | decrypt dir => exact execDecrypt_withCache dir hs hc

/-- Settles O55: the two next states are one state with two caches. -/
theorem cacheIsTransparent : Obligations.CacheIsTransparent := by
  intro i s c hs hc
  obtain ⟨t, u, ht, hu, c', rfl⟩ := exec_withCache i hs hc
  exact ⟨t, _, ht, hu, rfl⟩

end Sys2Proof.Machine
end

section
/-! The registers (O9, O11, O14, O16, O17) and the soft reset (O13): each access is a step on one register, and what is
left is the register's own rule. -/

namespace Sys2Proof.Machine

open Sys2Proof.Claims

/-! ### The register window -/

/-- A read of a register but `RES` answers on the bus and does nothing else (R68). -/
theorem step_read_answers {s : State} {rest : List Event} {off : Nat} {d : Word}
    (h : s.events = .access (.read .word (regAddr s off)) :: rest) (hlt : off < 4096) (h4 : off % 4 = 0)
    (hd : readReg (regAt off) { s with events := rest } = respond d { s with events := rest }) :
    step s = .next (answered s rest d false) := by
  rw [step_readReg h hlt h4, hd]
  rfl

/-- A write of a register that ignores it answers on the bus and does nothing else (R23, R24, R32, R33). -/
theorem step_write_ignored {s : State} {rest : List Event} {off : Nat} {v : Word}
    (h : s.events = .access (.write .word (regAddr s off) v) :: rest) (hlt : off < 4096) (h4 : off % 4 = 0)
    (hw : writeReg (regAt off) v { s with events := rest } = { s with events := rest }) :
    step s = .next (answered s rest 0 false) := by
  rw [step_writeReg h hlt h4, hw]
  rfl

/-- Settles O17: a reserved register reads 0 and ignores a write. -/
theorem reservedOffsets : Obligations.ReservedOffsets := by
  intro s off v rest h4 hoff
  have hreg : regAt off = .reserved := regAt_reserved (by omega)
  have hlt : off < 4096 := by omega
  exact ⟨fun h => step_read_answers h hlt h4 (by rw [hreg]; rfl),
    fun h => step_write_ignored h hlt h4 (by rw [hreg]; rfl)⟩

/-- Settles O11: while no command runs a read of `RES` is no draw. -/
theorem argAndResRegisters : Obligations.ArgAndResRegisters := by
  intro s i v rest
  have hi := i.isLt
  refine ⟨fun h => ?_, fun h => ?_, fun h hidle => ?_, fun h => ?_⟩
  · rw [step_writeReg h (by omega) (by omega), regAt_arg]
    rfl
  · exact step_read_answers h (by omega) (by omega) (by rw [regAt_arg]; rfl)
  · refine step_read_answers h (by omega) (by omega) ?_
    rw [regAt_res, readReg, if_neg (by simp [hidle])]
  · exact step_write_ignored h (by omega) (by omega) (by rw [regAt_res]; rfl)

/-! ### Issue -/

theorem regAt_eq_cmd {off : Nat} (h : regAt off = .cmd) : off = 0x014 := by
  by_contra hne
  simp only [regAt, if_neg hne] at h
  repeat' split at h
  all_goals cases h

theorem softReset_busy (s : State) : (softReset s).busy = false := rfl

/-- Only a write of `CMD` sets BUSY (R120). -/
theorem writeReg_busy {r : Reg} (hr : r ≠ .cmd) {v : Word} {s : State} (hidle : s.busy = false) :
    (writeReg r v s).busy = false := by
  cases r with
  | cmd => exact absurd rfl hr
  | ctrl =>
    rw [writeReg, writeCtrl]
    split
    · exact softReset_busy s
    · exact hidle
  | _ => exact hidle

/-- An access that takes the TTE from idle to busy is a 32-bit write of `CMD` (R31, R120). -/
theorem serveReg_starts {a : Access} {off : Nat} {s : State} (hidle : s.busy = false)
    (hbusy : (serveReg a off s).busy = true) :
    ∃ w, a = .write .word (accessAddr a) w ∧ off = 0x014 := by
  cases a with
  | read w addr =>
    rw [serveReg] at hbusy
    split at hbusy
    · obtain ⟨d, k, heq, -⟩ := readReg_cases (regAt off) s
      rw [heq, respond_busy, hidle] at hbusy
      cases hbusy
    · rw [busError_busy, hidle] at hbusy
      cases hbusy
  | write w addr v =>
    rw [serveReg] at hbusy
    split at hbusy
    case isTrue hlegal =>
      rw [regAccessLegal, Bool.and_eq_true, decide_eq_true_eq] at hlegal
      obtain ⟨rfl, -⟩ := hlegal
      refine ⟨v, rfl, regAt_eq_cmd ?_⟩
      by_contra hne
      rw [respond_busy, writeReg_busy hne hidle] at hbusy
      cases hbusy
    case isFalse =>
      rw [busError_busy, hidle] at hbusy
      cases hbusy

/-- An access to `BUF` starts no command. -/
theorem serveBuf_busy (a : Access) (off : Nat) (s : State) : (serveBuf a off s).busy = s.busy := by
  cases a with
  | read w addr =>
    rw [serveBuf]
    split
    · obtain ⟨d, k, heq, -⟩ := readBuf_cases w off s
      rw [heq, respond_busy]
    · rfl
  | write w addr v =>
    rw [serveBuf]
    split <;> rfl

/-- A step from idle to busy served a 32-bit write at the address of `CMD` (R31, R120). -/
theorem step_starts {s t : State} (h : step s = .next t) (hidle : s.busy = false) (hbusy : t.busy = true) :
    ∃ w rest, s.events = .access (.write .word (regAddr s 0x014) w) :: rest := by
  obtain ⟨rest, ⟨-, rfl⟩ | ⟨hrun, -⟩ | ⟨a, hev, hserve⟩ | rfl⟩ := step_cases h
  · rw [hidle] at hbusy
    cases hbusy
  · rw [hidle] at hrun
    cases hrun
  · rcases serveAccess_cases hserve with rfl | rfl
    · obtain ⟨w, ha, hoff⟩ := serveReg_starts (s := { s with events := rest }) hidle hbusy
      have haddr : accessAddr a = regAddr s 0x014 := by
        rw [regAddr]
        dsimp only at hoff
        omega
      rw [haddr] at ha
      exact ⟨w, rest, ha ▸ hev⟩
    · rw [serveBuf_busy, hidle] at hbusy
      cases hbusy
  · cases hbusy

/-- Settles O9: the write is accepted while idle, nothing else starts a command, and a read of `CMD` answers 0. -/
theorem cmdWriteIssues : Obligations.CmdWriteIssues := by
  refine ⟨fun s w rest hidle h => ?_, fun s t h hidle hbusy => step_starts h hidle hbusy,
    fun s rest h => step_read_answers h (by omega) (by omega) rfl⟩
  have hstep : step s = .next (respond 0 (issue w { s with events := rest })) := by
    rw [step_writeReg h (by omega) (by omega), show regAt 0x014 = .cmd from rfl, writeReg, writeCmd,
      if_neg (by simp [hidle])]
  exact ⟨_, hstep, rfl, rfl, rfl, rfl, rfl, rfl, rfl, rfl, rfl, rfl, ⟨⟨rfl, rfl, rfl⟩, rfl, rfl⟩, rfl, fun _ => rfl,
    rfl, rfl, rfl⟩

/-! ### The soft reset -/

theorem drawRegion_read_of_ge (s : State) (r : Region) {a : Nat} (ha : s.cfg.bufSize ≤ a) :
    (drawRegion s r).buf.read a = s.buf.read a := by
  simp only [drawRegion, Memory.read_writeBytes, List.length_map, List.length_range', clipRegion]
  rw [if_neg (by omega)]

/-- Drawing regions reaches nothing past the end of `BUF` (R362). -/
theorem drawRegions_read_of_ge (rs : List Region) (s : State) {a : Nat} (ha : s.cfg.bufSize ≤ a) :
    (drawRegions rs s).buf.read a = s.buf.read a := by
  induction rs generalizing s with
  | nil => rfl
  | cons r rs ih => exact (ih (drawRegion s r) ha).trans (drawRegion_read_of_ge s r ha)

theorem softReset_read_of_ge (s : State) {a : Nat} (ha : s.cfg.bufSize ≤ a) :
    (softReset s).buf.read a = s.buf.read a := by
  rw [softReset]
  split
  · exact drawRegions_read_of_ge (runningOutput s) s ha
  · rfl

/-- The conditions of R151 let DECOMPRESS read its block. -/
theorem decompressHead_of_checks {s : State} {f : LzFields}
    (hp : lzParse (readRegion s (opndRegion s 0 1)) = some f) (hsrc : opnd s 0 + opnd s 1 ≤ s.cfg.bufSize)
    (hmax : f.dlen < opnd s 3) (hdst : opnd s 2 + f.dlen ≤ s.cfg.bufSize)
    (hov : regionsOverlap (opndRegion s 0 1) { start := opnd s 2, len := f.dlen } = false) :
    decompressHead s = .ok (readRegion s (opndRegion s 0 1), f) := by
  have hsrc' : inRange s.cfg (opndRegion s 0 1) = true := decide_eq_true hsrc
  have hdst' : inRange s.cfg { start := opnd s 2, len := f.dlen } = true := decide_eq_true hdst
  simp only [decompressHead, hsrc', hp, if_neg (Nat.not_le.mpr hmax), hdst', hov]
  rfl

/-- The size that R151's conditions give is the size that the model claims. -/
theorem claimOf_eq_claimedSize (s : State) : claimOf s = claimedSize s := by
  cases hhead : decompressHead s with
  | ok bf =>
    obtain ⟨b, f⟩ := bf
    obtain ⟨rfl, hp, hsrc, hmax, hdst, hov⟩ := decompressHead_ok hhead
    rw [claimedSize_of_ok hhead]
    simp only [claimOf, hp]
    exact if_pos ⟨of_decide_eq_true hsrc, hmax, of_decide_eq_true hdst, hov⟩
  | error e =>
    rw [claimedSize_of_error hhead]
    cases hp : lzParse (readRegion s (opndRegion s 0 1)) with
    | none => simp only [claimOf, hp]
    | some f =>
      simp only [claimOf, hp]
      refine if_neg fun ⟨hsrc, hmax, hdst, hov⟩ => ?_
      rw [decompressHead_of_checks hp hsrc hmax hdst hov] at hhead
      cases hhead

/-- The regions of R362's table are the output regions. -/
theorem abortRegions_eq_outputRegions (i : Instr) (s : State) : abortRegions i s = outputRegions i s := by
  cases i with
  | hash alg => cases alg <;> rfl
  | decompress => rw [abortRegions, claimOf_eq_claimedSize]; rfl
  | encrypt dir => cases dir <;> rfl
  | decrypt dir => cases dir <;> rfl
  | _ => rfl

theorem runningOutput_of_decode {s : State} {i : Instr} (h : decode s.cmdL = .ok i) :
    runningOutput s = outputRegions i s := by
  simp only [runningOutput, h]

theorem runningOutput_of_illegal {s : State} {e : DecodeError} (h : decode s.cmdL = .error e) :
    runningOutput s = [] := by
  simp only [runningOutput, h]

/-- Settles O13: the aborted command's regions are those of R362's table, and none for an illegal word. -/
theorem softResetKeepsBuf : Obligations.SoftResetKeepsBuf := by
  intro s v rest hv h
  have hstep : step s = .next (respond 0 (softReset { s with events := rest })) := by
    rw [step_writeReg h (by omega) (by omega), show regAt 0x00C = .ctrl from rfl, writeReg, writeCtrl, if_pos hv]
  obtain ⟨m, k, heq, hread, hidle, -, -⟩ := softReset_cases { s with events := rest }
  have hout : SameBufOutside (runningOutput s) s (respond 0 (softReset { s with events := rest })) := by
    rw [heq]
    exact hread
  refine ⟨_, hstep, ?_, ?_, ?_, fun hb a => ?_, hout, fun i hi => ?_, fun e he a => hout a ?_, fun a ha => ?_⟩
  · rw [heq]
    exact resetValues_powerOn s.cfg m k rest _
  · rw [heq]
    rfl
  · rw [heq]
    rfl
  · rw [heq, respond_buf, hidle hb]
  · rw [abortRegions_eq_outputRegions, ← runningOutput_of_decode hi]
    exact hout
  · rw [runningOutput_of_illegal he, inRegions_nil]
  · exact softReset_read_of_ge { s with events := rest } ha

/-! ### The fields of a register word -/

/-- A flag's word has the flag at its place and 0 elsewhere. -/
theorem getLsbD_flagBit (b : Bool) (k j : Nat) :
    (flagBit b k).getLsbD j = (b && (decide (k < 32) && decide (k = j))) := by
  cases b with
  | false => simp [flagBit]
  | true => rw [flagBit, if_pos rfl, ← BitVec.twoPow_eq, BitVec.getLsbD_twoPow, Bool.true_and]

/-- A field that does not hold a flag's place is 0 in the flag's word. -/
theorem extractLsb'_flagBit (b : Bool) {k i n : Nat} (h : k < i ∨ i + n ≤ k) :
    (flagBit b k).extractLsb' i n = 0 := by
  apply BitVec.eq_of_getLsbD_eq
  intro j hj
  rw [BitVec.getLsbD_extractLsb', getLsbD_flagBit, decide_eq_false (by omega : ¬k = i + j)]
  simp

/-! ### `STATUS` and `CTRL` -/

/-- The error's number stands in bits 15:8 and no other (R27, R331). -/
theorem errField (e : ErrCode) :
    let w := BitVec.ofNat 32 (errNumber e) <<< 8
    w.extractLsb' 4 4 = 0 ∧ w.extractLsb' 8 8 = BitVec.ofNat 8 (errNumber e) ∧ w.extractLsb' 16 16 = 0 := by
  cases e <;> decide

theorem statusWord_flags (s : State) :
    (statusWord s).getLsbD 0 = s.busy ∧ (statusWord s).getLsbD 1 = s.done ∧ (statusWord s).getLsbD 2 = s.overrun ∧
      (statusWord s).getLsbD 3 = s.keyed := by
  simp [statusWord, BitVec.getLsbD_or, getLsbD_flagBit, BitVec.getLsbD_shiftLeft, -BitVec.getLsbD_eq_getElem]

theorem statusWord_fields (s : State) :
    (statusWord s).extractLsb' 4 4 = 0 ∧ (statusWord s).extractLsb' 8 8 = BitVec.ofNat 8 (errNumber s.err) ∧
      (statusWord s).extractLsb' 16 16 = 0 := by
  obtain ⟨h4, h8, h16⟩ := errField s.err
  simp [statusWord, BitVec.extractLsb'_or, extractLsb'_flagBit, h4, h8, h16]

theorem ctrlWord_eq (s : State) : ctrlWord s = if s.ie then 1 else 0 := by
  rw [ctrlWord]
  cases s.ie <;> rfl

/-- A flag that a write of 1 clears (R27). -/
theorem and_not_eq_ite (flag written : Bool) : (flag && !written) = if written then false else flag := by
  cases written
  · exact Bool.and_true flag
  · exact Bool.and_false flag

theorem writeStatus_eq (v : Word) (s : State) :
    writeStatus v s =
      { s with
        done := if v.getLsbD 1 then false else s.done
        overrun := if v.getLsbD 2 then false else s.overrun } := by
  rw [writeStatus, and_not_eq_ite, and_not_eq_ite]

/-- Settles O14: the words that the two registers read, and what a write of each does. -/
theorem statusAndCtrlRegisters : Obligations.StatusAndCtrlRegisters := by
  intro s rest
  refine ⟨fun h => ?_, fun v h => ?_, fun h => ?_, fun v hv h => ?_⟩
  · obtain ⟨hbusy, hdone, hoverrun, hkeyed⟩ := statusWord_flags s
    obtain ⟨h4, h8, h16⟩ := statusWord_fields s
    refine ⟨statusWord s, step_read_answers h (by omega) (by omega) rfl, hbusy, hdone, hoverrun, hkeyed, h4, ?_, h16⟩
    rw [h8]
    cases s.err <;> rfl
  · rw [step_writeReg h (by omega) (by omega), show regAt 0x010 = .status from rfl, writeReg, writeStatus_eq]
    rfl
  · rw [← ctrlWord_eq]
    exact step_read_answers h (by omega) (by omega) rfl
  · rw [step_writeReg h (by omega) (by omega), show regAt 0x00C = .ctrl from rfl, writeReg, writeCtrl,
      if_neg (Bool.eq_false_iff.mp hv)]
    rfl

/-! ### The constant registers -/

/-- A capacity of R10 fills bits 15:0 and no other (R24). -/
theorem capacityField : ∀ k < 16,
    let w := BitVec.ofNat 32 (2 ^ k % 65536)
    (w.extractLsb' 0 16).toNat = 2 ^ k ∧ w.extractLsb' 16 4 = 0 ∧ w.getLsbD 20 = false ∧ w.getLsbD 21 = false ∧
      w.extractLsb' 22 10 = 0 := by decide

/-- A count of R9 fills bits 19:16 and no other (R24). -/
theorem countField : ∀ n < 16,
    let w := BitVec.ofNat 32 n <<< 16
    w.extractLsb' 0 16 = 0 ∧ (w.extractLsb' 16 4).toNat = n ∧ w.getLsbD 20 = false ∧ w.getLsbD 21 = false ∧
      w.extractLsb' 22 10 = 0 := by decide

theorem param0_fields {c : Config} (h : c.legal) :
    ((param0 c).extractLsb' 0 16).toNat = c.rqCapacity ∧ ((param0 c).extractLsb' 16 4).toNat = c.rqCount ∧
      (param0 c).getLsbD 20 = decide (c.auxHash = .sha1) ∧ (param0 c).getLsbD 21 = decide (c.lzbOrder = .msbFirst) ∧
      (param0 c).extractLsb' 22 10 = 0 := by
  obtain ⟨-, -, hcap, -, hcount, -⟩ := h
  obtain ⟨k, hk, hpow⟩ := List.mem_map.mp hcap
  obtain ⟨cap0, cap16, cap20, cap21, cap22⟩ := capacityField k (List.mem_range.mp hk)
  obtain ⟨cnt0, cnt16, cnt20, cnt21, cnt22⟩ := countField c.rqCount (by omega)
  rw [hpow] at cap0 cap16 cap20 cap21 cap22
  refine ⟨?_, ?_, ?_, ?_, ?_⟩
  · simp [param0, BitVec.extractLsb'_or, extractLsb'_flagBit, cap0, cnt0]
  · simp [param0, BitVec.extractLsb'_or, extractLsb'_flagBit, cap16, cnt16]
  · simp [param0, BitVec.getLsbD_or, getLsbD_flagBit, cap20, cnt20, -BitVec.getLsbD_eq_getElem]
  · simp [param0, BitVec.getLsbD_or, getLsbD_flagBit, cap21, cnt21, -BitVec.getLsbD_eq_getElem]
  · simp [param0, BitVec.extractLsb'_or, extractLsb'_flagBit, cap22, cnt22]

/-- `PARAM1` holds any legal BUF_SIZE (R25). -/
theorem param1_toNat {c : Config} (h : c.legal) : (BitVec.ofNat 32 c.bufSize).toNat = c.bufSize := by
  obtain ⟨-, hsize, -⟩ := h
  rw [BitVec.toNat_ofNat, Nat.mod_eq_of_lt (by omega)]
/-- Settles O16: the constants fit their fields for every legal choice of the parameters. -/
theorem constantRegisters : Obligations.ConstantRegisters := by
  intro s v rest hlegal
  refine ⟨fun h => step_read_answers h (by omega) (by omega) rfl, fun h => ?_, fun h => ?_, fun off hoff h => ?_⟩
  · exact ⟨param0 s.cfg, step_read_answers h (by omega) (by omega) rfl, param0_fields hlegal⟩
  · exact ⟨BitVec.ofNat 32 s.cfg.bufSize, step_read_answers h (by omega) (by omega) rfl, param1_toNat hlegal⟩
  · rcases hoff with rfl | rfl | rfl
    · exact step_write_ignored h (by omega) (by omega) rfl
    · exact step_write_ignored h (by omega) (by omega) rfl
    · exact step_write_ignored h (by omega) (by omega) rfl

end Sys2Proof.Machine
end

section
/-! The bytes of a little-endian word, and what a string stored in `BUF` reads back as (O22): the laws that the host's
accesses to `BUF` and the commands that store a string share. -/

namespace Sys2Proof.Machine

/-! ### Little-endian strings (R11) -/

/-- Byte `k` of a little-endian string is digit `k` of its number in base 256. -/
theorem getD_leBytes {n k : Nat} (h : k < n) (v : Nat) : (leBytes n v).getD k 0 = BitVec.ofNat 8 (v / 256 ^ k) := by
  induction n generalizing v k with
  | zero => omega
  | succ n ih =>
    cases k with
    | zero => simp [leBytes]
    | succ k =>
      rw [leBytes, List.getD_cons_succ, ih (by omega), Nat.div_div_eq_div_mul, Nat.pow_succ']

/-- The bits of byte `k` of a word are digit `k` of its number in base 256 (R65). -/
theorem extractLsb'_eq_digit (v : Word) (k : Nat) : v.extractLsb' (8 * k) 8 = BitVec.ofNat 8 (v.toNat / 256 ^ k) := by
  rw [BitVec.extractLsb', Nat.shiftRight_eq_div_pow, Nat.pow_mul]

theorem uLE_cons (b : Byte) (s : Bytes) : uLE (b :: s) = b.toNat + 256 * uLE s := rfl

theorem uLE_lt (s : Bytes) : uLE s < 256 ^ s.length := by
  induction s with
  | nil => exact Nat.one_pos
  | cons b s ih =>
    have hb := b.isLt
    rw [uLE_cons, List.length_cons, Nat.pow_succ']
    omega

/-- The digits in base 256 of the number of a little-endian string are its bytes. -/
theorem digit_uLE (s : Bytes) (k : Nat) : BitVec.ofNat 8 (uLE s / 256 ^ k) = s.getD k 0 := by
  induction s generalizing k with
  | nil => simp [uLE]
  | cons b s ih =>
    have hb := b.isLt
    rw [uLE_cons]
    cases k with
    | zero =>
      refine BitVec.eq_of_toNat_eq ?_
      rw [BitVec.toNat_ofNat, List.getD_cons_zero]
      omega
    | succ k =>
      rw [List.getD_cons_succ, ← ih k, Nat.pow_succ', ← Nat.div_div_eq_div_mul]
      congr 2
      omega

/-! ### Strings in `BUF` (R63, R75) -/

/-- A stored string is read back. -/
theorem Memory.readBytes_writeBytes (m : Memory) (a : Nat) (b : Bytes) :
    (m.writeBytes a b).readBytes a b.length = b := by
  refine List.ext_getElem (Memory.length_readBytes _ _ _) fun k hk hb => ?_
  rw [← List.getD_eq_getElem _ 0 hk, ← List.getD_eq_getElem _ 0 hb, Memory.getD_readBytes _ _ _ _ hb,
    Memory.read_writeBytes, if_pos (by omega), Nat.add_sub_cancel_left]

/-- A byte inside a stored string. -/
theorem Memory.read_writeBytes_add (m : Memory) (a : Nat) (b : Bytes) {k : Nat} (h : k < b.length) :
    (m.writeBytes a b).read (a + k) = b.getD k 0 := by
  rw [Memory.read_writeBytes, if_pos (by omega), Nat.add_sub_cancel_left]

/-- A byte outside a stored string. -/
theorem Memory.read_writeBytes_outside (m : Memory) {a x : Nat} {b : Bytes} (h : x < a ∨ a + b.length ≤ x) :
    (m.writeBytes a b).read x = m.read x := by
  rw [Memory.read_writeBytes, if_neg (by omega)]

/-- Settles O22: the bytes of the string and those around it. -/
theorem memReadAfterMemWrite : Obligations.MemReadAfterMemWrite := fun m a b =>
  ⟨Memory.readBytes_writeBytes m a b, fun _ h => Memory.read_writeBytes_outside m h⟩

/-- A store changes no byte outside the region that it fills. -/
theorem sameBufOutside_storeBytes {a n : Nat} {b : Bytes} (hn : b.length = n) (s : State) :
    SameBufOutside [{ start := a, len := n }] s (storeBytes a b s) := by
  subst hn
  exact (BufChange.writeBytes (fun x hx => inRegions_of_mem (List.mem_singleton.mpr rfl) hx) (Nat.le_refl _)
    s.buf).read_outside

/-- A drawn region changes no byte outside it (R332). -/
theorem sameBufOutside_drawRegion (r : Region) (s : State) : SameBufOutside [r] s (drawRegion s r) :=
  (BufChange.drawRegion (fun _ hx => inRegions_of_mem (List.mem_singleton.mpr rfl) hx) s).read_outside

end Sys2Proof.Machine
end

section
/-! The host's accesses to the two windows (O18, O20), its reads and writes of `BUF` (O19, O21), and the power-on reset
(O12). -/

namespace Sys2Proof.Machine

open Sys2Proof.Claims

/-- Settles O12: both resets are the power-on state of their parameters, with nothing listed in `BUF`. -/
theorem powerOnResetValues : Obligations.PowerOnResetValues := by
  refine ⟨resetValues_powerOn Config.params { cells := [], epoch := 0 } 0 [] none, rfl, fun s rest h => ?_⟩
  have hvalues := resetValues_powerOn s.cfg { cells := [], epoch := s.buf.epoch + 1 } s.draws rest none
  exact ⟨_, step_of_powerOn h, hvalues, rfl, rfl, rfl⟩

/-! ### Which accesses are served (R62, R66) -/

theorem accessAddr_eq {a : Access} {w : Width} {addr : Nat} {v : Word} (ha : a = .read w addr ∨ a = .write w addr v) :
    accessAddr a = addr := by
  rcases ha with rfl | rfl <;> rfl

theorem widthBytes_pos (w : Width) : 0 < widthBytes w := by cases w <;> decide

/-- A word of the host's bus has the bytes of every access (R65). -/
theorem widthBytes_le (w : Width) : widthBytes w ≤ 4 := by cases w <;> decide

theorem regAccessLegal_iff (w : Width) (off : Nat) : regAccessLegal w off = true ↔ w = .word ∧ off % 4 = 0 := by
  rw [regAccessLegal, Bool.and_eq_true, decide_eq_true_eq, decide_eq_true_eq]

theorem bufAccessLegal_iff (c : Config) (w : Width) (off : Nat) :
    bufAccessLegal c w off = true ↔ off % widthBytes w = 0 ∧ off + widthBytes w ≤ c.bufSize := by
  rw [bufAccessLegal, Bool.and_eq_true, decide_eq_true_eq, decide_eq_true_eq]

/-- An access to the register window is answered: served where R66 admits it, the bus error response otherwise. -/
theorem serveReg_answers {a : Access} {w : Width} {addr : Nat} {v : Word} (ha : a = .read w addr ∨ a = .write w addr v)
    (off : Nat) (s : State) :
    (regAccessLegal w off = true → ∃ d, (serveReg a off s).bus = some { data := d, error := false }) ∧
      (¬regAccessLegal w off = true → serveReg a off s = busError s) := by
  rcases ha with rfl | rfl
  · refine ⟨fun h => ?_, fun h => if_neg h⟩
    obtain ⟨d, k, heq, -⟩ := readReg_cases (regAt off) s
    rw [serveReg, if_pos h, heq]
    exact ⟨d, rfl⟩
  · exact ⟨fun h => ⟨0, by rw [serveReg, if_pos h]; rfl⟩, fun h => if_neg h⟩

/-- An access to the buffer window is answered: served where it is aligned and inside `BUF`, the bus error response
otherwise. -/
theorem serveBuf_answers {a : Access} {w : Width} {addr : Nat} {v : Word} (ha : a = .read w addr ∨ a = .write w addr v)
    (off : Nat) (s : State) :
    (bufAccessLegal s.cfg w off = true → ∃ d, (serveBuf a off s).bus = some { data := d, error := false }) ∧
      (¬bufAccessLegal s.cfg w off = true → serveBuf a off s = busError s) := by
  rcases ha with rfl | rfl
  · refine ⟨fun h => ?_, fun h => if_neg h⟩
    obtain ⟨d, k, heq, -⟩ := readBuf_cases w off s
    rw [serveBuf, if_pos h, heq]
    exact ⟨d, rfl⟩
  · exact ⟨fun h => ⟨0, by rw [serveBuf, if_pos h]; rfl⟩, fun h => if_neg h⟩

theorem step_serveReg {s : State} {a : Access} {rest : List Event} {off : Nat} (h : s.events = .access a :: rest)
    (ha : accessAddr a = regAddr s off) (hlt : off < 4096) :
    step s = .next (serveReg a off { s with events := rest }) := by
  rw [step_of_access h, serveAccess_reg (s := { s with events := rest }) ha hlt]

theorem step_serveBuf {s : State} {a : Access} {rest : List Event} {off : Nat} (hlegal : s.cfg.legal)
    (h : s.events = .access a :: rest) (ha : accessAddr a = s.cfg.bufBase + off) (hlt : off < s.cfg.bufWindowSize) :
    step s = .next (serveBuf a off { s with events := rest }) := by
  rw [step_of_access h, serveAccess_buf (s := { s with events := rest }) hlegal ha hlt]

/-- Settles O18: each window answers an access by its own rule. -/
theorem accessesAreServedOrGetBusError : Obligations.AccessesAreServedOrGetBusError := by
  intro s w off v a rest hlegal h
  refine ⟨fun hlt ha => ?_, fun hlt ha => ?_⟩
  · obtain ⟨hserved, herror⟩ := serveReg_answers ha off { s with events := rest }
    rw [step_serveReg h (accessAddr_eq ha) hlt]
    split
    case isTrue hok =>
      obtain ⟨d, hd⟩ := hserved ((regAccessLegal_iff w off).mpr hok)
      exact ⟨_, d, rfl, hd⟩
    case isFalse hbad =>
      rw [herror (hbad ∘ (regAccessLegal_iff w off).mp)]
      rfl
  · obtain ⟨hserved, herror⟩ := serveBuf_answers ha off { s with events := rest }
    rw [step_serveBuf hlegal h (accessAddr_eq ha) hlt]
    refine ⟨fun haligned hfits => ?_, fun hbad => ?_⟩
    · obtain ⟨d, hd⟩ := hserved ((bufAccessLegal_iff _ w off).mpr ⟨haligned, hfits⟩)
      exact ⟨_, d, rfl, hd⟩
    · have hpos := widthBytes_pos w
      rw [herror fun hok => by
        obtain ⟨haligned, hfits⟩ := (bufAccessLegal_iff _ w off).mp hok
        dsimp only at hfits
        omega]
      rfl

/-- Settles O20: a read that is served is a read of a register or of `BUF`, and the bus error response changes no more
than they do. -/
theorem hostReadsHaveNoEffect : Obligations.HostReadsHaveNoEffect := by
  intro s t w addr rest h hstep
  rw [step_of_access h] at hstep
  rcases serveAccess_cases hstep with rfl | rfl
  · rw [serveReg]
    split
    · obtain ⟨d, k, heq, -⟩ :=
        readReg_cases (regAt (accessAddr (.read w addr) - s.cfg.regBase)) { s with events := rest }
      rw [heq]
      rfl
    · rfl
  · rw [serveBuf]
    split
    · obtain ⟨d, k, heq, -⟩ :=
        readBuf_cases w (accessAddr (.read w addr) - s.cfg.bufBase) { s with events := rest }
      rw [heq]
      rfl
    · rfl

/-! ### Reads and writes of `BUF` (R65, R70) -/

section legalAccess

variable {s : State} {w : Width} {off : Nat} {rest : List Event}

theorem lt_bufWindowSize (hlegal : s.cfg.legal) (hfits : off + widthBytes w ≤ s.cfg.bufSize) :
    off < s.cfg.bufWindowSize := by
  have hpos := widthBytes_pos w
  have hwindow := bufSize_le_window hlegal
  omega

/-- A step on a legal read of `BUF`. -/
theorem step_readBuf (hlegal : s.cfg.legal) (haligned : off % widthBytes w = 0)
    (hfits : off + widthBytes w ≤ s.cfg.bufSize)
    (h : s.events = .access (.read w (s.cfg.bufBase + off)) :: rest) :
    step s = .next (readBuf w off { s with events := rest }) := by
  rw [step_serveBuf hlegal h rfl (lt_bufWindowSize hlegal hfits), serveBuf,
    if_pos ((bufAccessLegal_iff _ w off).mpr ⟨haligned, hfits⟩)]

/-- A step on a legal write of `BUF`. -/
theorem step_writeBuf {v : Word} (hlegal : s.cfg.legal) (haligned : off % widthBytes w = 0)
    (hfits : off + widthBytes w ≤ s.cfg.bufSize)
    (h : s.events = .access (.write w (s.cfg.bufBase + off) v) :: rest) :
    step s = .next (respond 0 (writeBuf w off v { s with events := rest })) := by
  rw [step_serveBuf hlegal h rfl (lt_bufWindowSize hlegal hfits), serveBuf,
    if_pos ((bufAccessLegal_iff _ w off).mpr ⟨haligned, hfits⟩)]

end legalAccess

/-- A host write stores byte `k` of its data at `off + k`, low byte first, and changes no other byte of `BUF` (R65). -/
theorem writeBuf_stores (w : Width) (off : Nat) (v : Word) (s : State) :
    (∀ k < widthBytes w, (writeBuf w off v s).buf.read (off + k) = v.extractLsb' (8 * k) 8) ∧
      SameBufOutside [{ start := off, len := widthBytes w }] s (writeBuf w off v s) := by
  have hlen : (leBytes (widthBytes w) v.toNat).length = widthBytes w := length_leBytes _ _
  refine ⟨fun k hk => ?_, sameBufOutside_storeBytes hlen _⟩
  rw [writeBuf, storeBytes_buf, Memory.read_writeBytes_add _ _ _ (by rw [hlen]; exact hk), getD_leBytes hk,
    extractLsb'_eq_digit]

/-- Outside the regions that a running command writes a host read returns the stored byte (R70). -/
theorem hostByte_eq_read {s : State} {a : Nat} (h : s.busy = false ∨ inRegions (runningOutput s) a = false) :
    hostByte s a = s.buf.read a := by
  refine if_neg fun hdrawn => ?_
  rw [Bool.and_eq_true] at hdrawn
  rcases h with h | h
  · simp [h] at hdrawn
  · simp [h] at hdrawn

/-- The bytes that a host read of a width returns. -/
def hostBytes (s : State) (w : Width) (off : Nat) : Bytes := (List.range' off (widthBytes w)).map (hostByte s)

theorem length_hostBytes (s : State) (w : Width) (off : Nat) : (hostBytes s w off).length = widthBytes w := by
  rw [hostBytes, List.length_map, List.length_range']

theorem getD_hostBytes (s : State) {w : Width} (off : Nat) {k : Nat} (h : k < widthBytes w) :
    (hostBytes s w off).getD k 0 = hostByte s (off + k) := by
  simp [hostBytes, List.getD_eq_getElem?_getD, h]

theorem hostBytes_of_idle {s : State} (h : s.busy = false) (w : Width) (off : Nat) :
    hostBytes s w off = s.buf.readBytes off (widthBytes w) :=
  List.map_congr_left fun _ _ => hostByte_eq_read (.inl h)

theorem uLE_hostBytes_lt (s : State) (w : Width) (off : Nat) : uLE (hostBytes s w off) < 2 ^ (8 * widthBytes w) := by
  have h := uLE_lt (hostBytes s w off)
  rw [length_hostBytes] at h
  rw [Nat.pow_mul]
  exact h

/-- A host read answers the little-endian number of its bytes, which fits the bus's word, and changes nothing else but
the number of draws (R65, R68). -/
theorem readBuf_answers (w : Width) (off : Nat) (s : State) :
    ∃ d k, readBuf w off s = respond d { s with draws := k } ∧ d.toNat = uLE (hostBytes s w off) := by
  have hfits : (resWord (uLE (hostBytes s w off))).toNat = uLE (hostBytes s w off) := by
    have hwidth := widthBytes_le w
    refine Nat.mod_eq_of_lt (Nat.lt_of_lt_of_le (uLE_hostBytes_lt s w off) (Nat.pow_le_pow_right Nat.two_pos ?_))
    omega
  by_cases h : s.busy = true
  · exact ⟨_, _, by simp only [readBuf, if_pos h]; rfl, hfits⟩
  · exact ⟨_, s.draws, by simp only [readBuf, if_neg h]; rfl, hfits⟩

/-- While no command runs, a host read of what the host has just written answers the bits that it wrote (R65). -/
theorem step_readBuf_of_written {s t : State} {w : Width} {off : Nat} {v : Word} {rest : List Event}
    (hbuf : t.buf = (writeBuf w off v s).buf) (hidle : t.busy = false) (hlegal : t.cfg.legal)
    (haligned : off % widthBytes w = 0) (hfits : off + widthBytes w ≤ t.cfg.bufSize)
    (h : t.events = .access (.read w (t.cfg.bufBase + off)) :: rest) :
    ∃ u, step t = .next u ∧
      u.bus = some { data := BitVec.ofNat 32 (v.toNat % 2 ^ (8 * widthBytes w)), error := false } ∧ SameBuf t u := by
  have hstored := Memory.readBytes_writeBytes s.buf off (leBytes (widthBytes w) v.toNat)
  rw [length_leBytes] at hstored
  have hbytes : hostBytes { t with events := rest } w off = leBytes (widthBytes w) v.toNat :=
    calc hostBytes { t with events := rest } w off
      _ = t.buf.readBytes off (widthBytes w) := hostBytes_of_idle hidle w off
      _ = leBytes (widthBytes w) v.toNat := by rw [hbuf, writeBuf, storeBytes_buf, hstored]
  obtain ⟨d, k, heq, hd⟩ := readBuf_answers w off { t with events := rest }
  rw [hbytes, uLE_leBytes, ← show 2 ^ (8 * widthBytes w) = 256 ^ widthBytes w from Nat.pow_mul 2 8 _] at hd
  have hread := step_readBuf hlegal haligned hfits h
  rw [heq] at hread
  refine ⟨_, hread, ?_, fun _ => rfl⟩
  rw [← hd, BitVec.ofNat_toNat, BitVec.setWidth_eq]
  rfl

/-- Settles O19: the write stores the digits of its data in base 256, and a read puts the digits together again. -/
theorem hostBufWriteThenRead : Obligations.HostBufWriteThenRead := by
  refine ⟨fun s w off v rest hlegal hidle haligned hfits h => ?_, fun s w off rest hlegal haligned hfits h => ?_⟩
  · have hwrite := step_writeBuf hlegal haligned hfits h
    obtain ⟨hstored, houtside⟩ := writeBuf_stores w off v { s with events := _ }
    obtain ⟨u, hread, hbus, hsame⟩ := step_readBuf_of_written (rest := rest)
      (t := respond 0 (writeBuf w off v { s with events := .access (.read w (s.cfg.bufBase + off)) :: rest }))
      rfl hidle hlegal haligned hfits rfl
    exact ⟨_, u, hwrite, hread, hstored, houtside, ⟨⟨rfl, rfl, rfl⟩, rfl, rfl⟩, hidle, hbus, hsame⟩
  · have hread := step_readBuf hlegal haligned hfits h
    obtain ⟨d, k, heq, hd⟩ := readBuf_answers w off { s with events := rest }
    rw [heq] at hread
    refine ⟨_, d, hread, rfl, fun _ => rfl, ?_, fun j hj hplain => ?_⟩
    · rw [hd]
      exact uLE_hostBytes_lt _ w off
    · calc d.extractLsb' (8 * j) 8
        _ = (hostBytes { s with events := rest } w off).getD j 0 := by rw [extractLsb'_eq_digit, hd, digit_uLE]
        _ = hostByte { s with events := rest } (off + j) := getD_hostBytes _ off hj
        _ = s.buf.read (off + j) := hostByte_eq_read hplain

/-! ### A host write while a command runs (R70) -/

theorem any_range'_iff (p : Nat → Bool) (off n : Nat) :
    (List.range' off n).any p = true ↔ ∃ k < n, p (off + k) = true := by
  simp only [List.any_eq_true, List.mem_range', Nat.one_mul]
  exact ⟨fun ⟨_, ⟨k, hk, hx⟩, hp⟩ => ⟨k, hk, hx ▸ hp⟩, fun ⟨k, hk, hp⟩ => ⟨_, ⟨k, hk, rfl⟩, hp⟩⟩

/-- The hazard mark after a host write while a command runs: set where a byte is in a region of the command, as before
where none is. -/
theorem writeBuf_hazard {s : State} (hbusy : s.busy = true) (w : Width) (off : Nat) (v : Word) :
    ((∃ k < widthBytes w, inRegions (runningRegions s) (off + k) = true) → (writeBuf w off v s).hazard = true) ∧
      ((∀ k < widthBytes w, inRegions (runningRegions s) (off + k) = false) →
        (writeBuf w off v s).hazard = s.hazard) := by
  have heq : (writeBuf w off v s).hazard =
      (s.hazard || (List.range' off (widthBytes w)).any (inRegions (runningRegions s))) := by
    rw [writeBuf, hbusy, Bool.true_and, storeBytes_hazard]
  rw [heq]
  refine ⟨fun hhit => ?_, fun hmiss => ?_⟩
  · rw [(any_range'_iff _ off _).mpr hhit, Bool.or_true]
  · have hnone : (List.range' off (widthBytes w)).any (inRegions (runningRegions s)) = false := by
      refine Bool.eq_false_iff.mpr fun hany => ?_
      obtain ⟨k, hk, hin⟩ := (any_range'_iff _ off _).mp hany
      rw [hmiss k hk] at hin
      cases hin
    rw [hnone, Bool.or_false]

/-- The claimed size after a host write while a command runs: raised to what the block of a DECOMPRESS claims before the
write, and as before for every other command (log entry 7). -/
theorem writeBuf_claimed {s : State} (hbusy : s.busy = true) (w : Width) (off : Nat) (v : Word) :
    (decode s.cmdL = .ok .decompress → (writeBuf w off v s).claimed = max s.claimed (claimOf s)) ∧
      (decode s.cmdL ≠ .ok .decompress → (writeBuf w off v s).claimed = s.claimed) := by
  have heq : (writeBuf w off v s).claimed = max s.claimed (runningClaim s) := rfl
  rw [heq]
  refine ⟨fun hd => ?_, fun hd => ?_⟩
  · rw [runningClaim, if_pos ⟨hbusy, hd⟩, claimOf_eq_claimedSize]
  · rw [runningClaim, if_neg fun h => hd h.2, Nat.max_zero]

/-- Settles O21: the bytes, the mark and the claimed size of one host write; the event taken off is in none of them. -/
theorem hostWriteIntoRegionIsHazard : Obligations.HostWriteIntoRegionIsHazard := by
  intro s w off v rest hlegal hbusy haligned hfits h
  obtain ⟨hstored, houtside⟩ := writeBuf_stores w off v { s with events := rest }
  obtain ⟨hhit, hmiss⟩ := writeBuf_hazard (s := { s with events := rest }) hbusy w off v
  obtain ⟨hdecompress, hother⟩ := writeBuf_claimed (s := { s with events := rest }) hbusy w off v
  exact ⟨_, step_writeBuf hlegal haligned hfits h, hstored, houtside, hbusy, rfl, rfl, ⟨⟨rfl, rfl, rfl⟩, rfl, rfl⟩,
    hhit, hmiss, hdecompress, hother⟩

end Sys2Proof.Machine
end

section
/-! What commands write: only their output regions (O26), the digest of HASH (O28) and the block of COMPRESS (O33). -/

namespace Sys2Proof.Machine

/-! ### All commands -/

theorem Effect.sameBufOutside {i : Instr} {s u : State} (h : Effect s i u) :
    SameBufOutside (outputRegions i s) s u := by
  cases h with
  | buf _ hm => exact hm.read_outside
  | derived _ _ hm => exact hm.read_outside
  | _ => exact fun _ _ => rfl

/-- Settles O26: an effect writes inside the output regions, which are those of R362's table. -/
theorem commandsWriteOnlyOutputRegions : Obligations.CommandsWriteOnlyOutputRegions := by
  intro i s t h
  obtain ⟨e, r, u, heff, rfl⟩ := exec_cases h
  rw [abortRegions_eq_outputRegions]
  exact ⟨heff.sameBufOutside, heff.sameBufOutside⟩

/-- The commands of units HASH and LZC, and NOP: no rule of theirs names a unit's state. -/
def keepsUnits : Instr → Bool
  | .nop | .hash _ | .powLevel | .powSearch _ | .compress _ | .decompress | .lzCsize | .lzDsize => true
  | _ => false

/-- Such a command changes at most `BUF`, the results, the error code and the flags of its completion. -/
theorem exec_frame_of_keepsUnits {i : Instr} {s t : State} (hi : keepsUnits i = true) (h : exec i s = .next t) :
    SameHostSide s t ∧ SameUnits s t ∧ t.kcache = s.kcache := by
  refine ⟨commandsKeepHostSide i s t h, ?_⟩
  obtain ⟨e, r, u, heff, rfl⟩ := exec_cases h
  cases heff with
  | buf => exact ⟨⟨⟨rfl, rfl, rfl⟩, rfl, rfl⟩, rfl⟩
  | derived hderives =>
    obtain ⟨p, d, rfl⟩ | ⟨d, rfl⟩ | ⟨d, rfl⟩ := derives_cases hderives <;> cases hi
  | _ => cases hi

theorem not_inRange_iff (c : Config) (r : Region) : (!inRange c r) = true ↔ c.bufSize < r.start + r.len := by
  rw [Bool.not_eq_true', Bool.eq_false_iff, Ne, inRange_iff, Nat.not_le]

/-! ### HASH (R250) -/

/-- HASH with no host write into its regions: both are checked before the digest is stored. -/
theorem exec_hash {s : State} (alg : HashAlg) (hclean : s.hazard = false) :
    exec (.hash alg) s = .next
      (if s.cfg.bufSize < opnd s 0 + opnd s 1 ∨ s.cfg.bufSize < opnd s 2 + digestLen alg then raise .range s
       else
         complete [resWord (digestLen alg)]
           (storeBytes (opnd s 2) (hashWith alg (readRegion s (opndRegion s 0 1))) s)) := by
  rw [exec, execHash, finish_of_no_hazard hclean]
  simp only [not_inRange_iff, ite_or]
  rfl

/-- What HASH does, for either algorithm. -/
theorem exec_hash_stores (alg : HashAlg) {s : State} (hclean : s.hazard = false) :
    ∃ t, exec (.hash alg) s = .next t ∧ SameHostSide s t ∧ SameUnits s t ∧ t.kcache = s.kcache ∧
      (if opnd s 0 + opnd s 1 ≤ s.cfg.bufSize ∧ opnd s 2 + digestLen alg ≤ s.cfg.bufSize then
        CompletedWith .ok [resWord (digestLen alg)] t ∧
          t.buf.readBytes (opnd s 2) (digestLen alg) = hashWith alg (readRegion s (opndRegion s 0 1)) ∧
          SameBufOutside [{ start := opnd s 2, len := digestLen alg }] s t
      else CompletedWith .range [] t ∧ SameBuf s t) := by
  have hexec := exec_hash alg hclean
  obtain ⟨hhost, hunits, hcache⟩ := exec_frame_of_keepsUnits rfl hexec
  refine ⟨_, hexec, hhost, hunits, hcache, ?_⟩
  by_cases hin : opnd s 0 + opnd s 1 ≤ s.cfg.bufSize ∧ opnd s 2 + digestLen alg ≤ s.cfg.bufSize
  · rw [if_pos hin, if_neg (by omega)]
    have hlen := length_hashWith alg (readRegion s (opndRegion s 0 1))
    have hread := Memory.readBytes_writeBytes s.buf (opnd s 2) (hashWith alg (readRegion s (opndRegion s 0 1)))
    rw [hlen] at hread
    exact ⟨completedWith_complete _ _, hread, sameBufOutside_storeBytes hlen s⟩
  · rw [if_neg hin, if_pos (by omega)]
    exact ⟨completedWith_raise _ _, fun _ => rfl⟩

/-- Settles O28: the two algorithms, each with its digest length. -/
theorem hashStoresDigest : Obligations.HashStoresDigest := by
  intro alg s hclean
  cases alg with
  | sha256 => exact exec_hash_stores .sha256 hclean
  | sha1 => exact exec_hash_stores .sha1 hclean

/-! ### COMPRESS (R150) -/

/-- COMPRESS with no host write into its regions: the checks of R334 in their order. -/
theorem exec_compress {s : State} (level : Nat) (hclean : s.hazard = false) :
    let src := opndRegion s 0 1
    let dst := opndRegion s 2 3
    let out := lzCompress (readRegion s src)
    exec (.compress level) s = .next
      (if level ≠ 1 then raise .level s
       else if s.cfg.bufSize < src.start + src.len ∨ s.cfg.bufSize < dst.start + dst.len then raise .range s
       else if regionsOverlap src dst = true then raise .overlap s
       else if dst.len < out.length then raise .range (drawRegion s dst)
       else complete [resWord out.length] (storeBytes dst.start out s)) := by
  rw [exec, execCompress, finish_of_no_hazard hclean]
  simp only [not_inRange_iff, ite_or]

/-- Settles O33: one branch for each check, and the block stored where all of them pass. -/
theorem compressStoresBlock : Obligations.CompressStoresBlock := by
  intro level s hclean src dst out
  have hexec := exec_compress level hclean
  obtain ⟨hhost, hunits, hcache⟩ := exec_frame_of_keepsUnits rfl hexec
  refine ⟨_, hexec, hhost, hunits, hcache, ?_⟩
  split
  case isTrue => exact ⟨completedWith_raise _ _, fun _ => rfl⟩
  split
  case isTrue => exact ⟨completedWith_raise _ _, fun _ => rfl⟩
  split
  case isTrue => exact ⟨completedWith_raise _ _, fun _ => rfl⟩
  split
  case isTrue => exact ⟨completedWith_raise _ _, sameBufOutside_drawRegion dst s⟩
  case isFalse =>
    exact ⟨completedWith_complete _ _, Memory.readBytes_writeBytes _ _ _, sameBufOutside_storeBytes rfl s⟩

end Sys2Proof.Machine
end

section
/-! The command word (O1, O2, O3): what the opcode map gives, and how each field is read from a word and placed in one.
Then the step of a running command by its word (O4, O5). -/

namespace Sys2Proof

/-! ### The opcode map -/

/-- The fields that the command uses have these values (R101). -/
def Instr.FieldsAre (sel : Nat) (m : Bool) (level : Nat) : Instr → Prop
  | .hash alg => algOfBit m = alg
  | .encrypt dir | .decrypt dir => dirOfBit m = dir
  | .deriveKey ptype dir => sel = ptype ∧ dirOfBit m = dir
  | .powSearch v | .compress v => level = v
  | .rqInit v | .rqSet v | .rqDequeue v | .rqIsSet v | .rqGen v | .rqStatus v | .seqNext v | .seqRead v
  | .seqSet v => sel = v
  | _ => True

/-- The opcode map gives a command exactly at its opcode and with its fields (R106). -/
theorem rowOf_eq_some_iff {op sel : Nat} {m : Bool} {level : Nat} {i : Instr} :
    rowOf op sel m level = some i ↔ op = (opcodeOf i).toNat ∧ i.FieldsAre sel m level := by
  constructor
  · intro h
    unfold rowOf at h
    split at h <;> cases h <;> simp [opcodeOf, Instr.FieldsAre]
  · rintro ⟨rfl, h⟩
    cases i with
    | hash | encrypt | decrypt | powSearch | compress | rqInit | rqSet | rqDequeue | rqIsSet | rqGen | rqStatus
    | seqNext | seqRead | seqSet =>
      cases h
      rfl
    | deriveKey =>
      obtain ⟨rfl, rfl⟩ := h
      rfl
    | _ => rfl

/-- A word decodes to a command exactly if it has the command's opcode and fields, and matches its row's match under the
row's mask (R108). -/
theorem decode_eq_ok_iff {w : Word} {i : Instr} :
    decode w = .ok i ↔ (fieldOp w = (opcodeOf i).toNat ∧ i.FieldsAre (fieldSel w) (fieldM w) (fieldLevel w)) ∧
      w &&& maskOf i = opcodeOf i := by
  rw [← rowOf_eq_some_iff, decode]
  cases rowOf (fieldOp w) (fieldSel w) (fieldM w) (fieldLevel w) with
  | none => simp
  | some j =>
    by_cases hmatch : w &&& maskOf j = opcodeOf j
    · simp only [if_pos hmatch, Except.ok.injEq, Option.some.injEq]
      exact ⟨fun h => ⟨h, h ▸ hmatch⟩, And.left⟩
    · simp only [if_neg hmatch, reduceCtorEq, Option.some.injEq, false_iff]
      rintro ⟨rfl, h⟩
      exact hmatch h

/-- The word of every well-formed command is a word of its own row. -/
theorem opcodeKept : ∀ i : Instr, Laws.OpcodeKept.Statement i
  | .nop => Laws.OpcodeKept.nop
  | .hash alg => Laws.OpcodeKept.hash alg
  | .powLevel => Laws.OpcodeKept.powLevel
  | .powSearch v => Laws.OpcodeKept.powSearch v
  | .compress v => Laws.OpcodeKept.compress v
  | .decompress => Laws.OpcodeKept.decompress
  | .lzCsize => Laws.OpcodeKept.lzCsize
  | .lzDsize => Laws.OpcodeKept.lzDsize
  | .rqInit v => Laws.OpcodeKept.rqInit v
  | .rqSet v => Laws.OpcodeKept.rqSet v
  | .rqDequeue v => Laws.OpcodeKept.rqDequeue v
  | .rqIsSet v => Laws.OpcodeKept.rqIsSet v
  | .rqGen v => Laws.OpcodeKept.rqGen v
  | .rqStatus v => Laws.OpcodeKept.rqStatus v
  | .seqNext v => Laws.OpcodeKept.seqNext v
  | .seqRead v => Laws.OpcodeKept.seqRead v
  | .seqSet v => Laws.OpcodeKept.seqSet v
  | .seqDiff => Laws.OpcodeKept.seqDiff
  | .seqResolve => Laws.OpcodeKept.seqResolve
  | .cryptoInit => Laws.OpcodeKept.cryptoInit
  | .cryptoReset => Laws.OpcodeKept.cryptoReset
  | .deriveKey v dir => Laws.OpcodeKept.deriveKey v dir
  | .encrypt dir => Laws.OpcodeKept.encrypt dir
  | .decrypt dir => Laws.OpcodeKept.decrypt dir

/-! ### Reading a placed field (R100) -/

@[simp] theorem algOfBit_bitOfAlg (alg : HashAlg) : algOfBit (bitOfAlg alg) = alg := by cases alg <;> rfl

@[simp] theorem dirOfBit_bitOfDir (dir : Dir) : dirOfBit (bitOfDir dir) = dir := by cases dir <;> rfl

theorem fieldSel_placeSel {v : Nat} (h : selFits v = true) : fieldSel (placeSel v) = v := by
  have := selFits_lt h
  rw [fieldSel, placeSel, BitVec.extractLsb'_toNat, BitVec.toNat_shiftLeft, BitVec.toNat_ofNat, Nat.shiftLeft_eq,
    Nat.shiftRight_eq_div_pow]
  omega

theorem fieldLevel_placeLevel {v : Nat} (h : levelFits v = true) : fieldLevel (placeLevel v) = v := by
  have := levelFits_lt h
  rw [fieldLevel, placeLevel, BitVec.extractLsb'_toNat, BitVec.toNat_shiftLeft, BitVec.toNat_ofNat, Nat.shiftLeft_eq,
    Nat.shiftRight_eq_div_pow]
  omega

@[simp] theorem fieldM_placeM (m : Bool) : fieldM (placeM m) = m := by cases m <;> rfl

/-- `SEL` is read past the bit of `M`. -/
theorem fieldSel_or_placeM (w : Word) (m : Bool) : fieldSel (w ||| placeM m) = fieldSel w := by
  have : (placeM m).extractLsb' 8 4 = 0#4 := by cases m <;> rfl
  rw [fieldSel, BitVec.extractLsb'_or, this, BitVec.or_zero, fieldSel]

/-- `M` is read past the bits of `SEL`. -/
theorem fieldM_placeSel_or {v : Nat} (h : selFits v = true) (w : Word) : fieldM (placeSel v ||| w) = fieldM w := by
  have hbit : v.testBit 4 = false := Nat.testBit_lt_two_pow (selFits_lt h)
  have hsel : (placeSel v).getLsbD 12 = false := by
    rw [placeSel, BitVec.getLsbD_shiftLeft, BitVec.getLsbD_ofNat, hbit]
    rfl
  rw [fieldM, BitVec.getLsbD_or, hsel, Bool.false_or, fieldM]

/-- The opcode lies below every other field. -/
theorem opcodeOf_fields_zero (i : Instr) :
    (opcodeOf i).extractLsb' 8 4 = 0#4 ∧ (opcodeOf i).getLsbD 12 = false ∧ (opcodeOf i).extractLsb' 16 8 = 0#8 := by
  cases i <;> simp [opcodeOf]

/-- The fields of a command's word are those of its field bits. -/
theorem fields_encode (i : Instr) :
    fieldSel (encode i) = fieldSel (fieldBits i) ∧ fieldM (encode i) = fieldM (fieldBits i) ∧
      fieldLevel (encode i) = fieldLevel (fieldBits i) := by
  obtain ⟨hsel, hm, hlevel⟩ := opcodeOf_fields_zero i
  refine ⟨?_, ?_, ?_⟩
  · rw [fieldSel, encode, BitVec.extractLsb'_or, hsel, BitVec.zero_or, fieldSel]
  · rw [fieldM, encode, BitVec.getLsbD_or, hm, Bool.false_or, fieldM]
  · rw [fieldLevel, encode, BitVec.extractLsb'_or, hlevel, BitVec.zero_or, fieldLevel]

/-- The fields read from a well-formed command's word are the command's own. -/
theorem fieldsAre_encode {i : Instr} (h : i.wellFormed = true) :
    i.FieldsAre (fieldSel (encode i)) (fieldM (encode i)) (fieldLevel (encode i)) := by
  obtain ⟨hsel, hm, hlevel⟩ := fields_encode i
  rw [hsel, hm, hlevel]
  cases i with
  | hash alg => exact (congrArg algOfBit (fieldM_placeM _)).trans (algOfBit_bitOfAlg alg)
  | encrypt dir | decrypt dir => exact (congrArg dirOfBit (fieldM_placeM _)).trans (dirOfBit_bitOfDir dir)
  | deriveKey ptype dir =>
    refine ⟨(fieldSel_or_placeM _ _).trans (fieldSel_placeSel h), ?_⟩
    rw [fieldBits, fieldM_placeSel_or h, fieldM_placeM, dirOfBit_bitOfDir]
  | powSearch | compress => exact fieldLevel_placeLevel h
  | rqInit | rqSet | rqDequeue | rqIsSet | rqGen | rqStatus | seqNext | seqRead | seqSet => exact fieldSel_placeSel h
  | _ => trivial

/-- Settles O2: the word is in the command's row, and its fields are read back. -/
theorem decodeUndoesEncode : Obligations.DecodeUndoesEncode := by
  intro i h
  obtain ⟨hop, hmatch⟩ := opcodeKept i h
  exact decode_eq_ok_iff.mpr ⟨⟨hop, fieldsAre_encode h⟩, hmatch⟩

/-! ### Placing a read field (R100) -/

@[simp] theorem bitOfAlg_algOfBit (m : Bool) : bitOfAlg (algOfBit m) = m := by cases m <;> rfl

@[simp] theorem bitOfDir_dirOfBit (m : Bool) : bitOfDir (dirOfBit m) = m := by cases m <;> rfl

/-- A field read and placed again is the word with every other bit cleared. -/
theorem ofNat_extractLsb'_shiftLeft (w : Word) (start len : Nat) :
    BitVec.ofNat 32 (w.extractLsb' start len).toNat <<< start = w &&& (BitVec.ofNat 32 (2 ^ len - 1) <<< start) := by
  refine BitVec.eq_of_getLsbD_eq fun k hk => ?_
  rw [BitVec.ofNat_toNat]
  simp only [BitVec.getLsbD_shiftLeft, BitVec.getLsbD_setWidth, BitVec.getLsbD_extractLsb', BitVec.getLsbD_and,
    BitVec.getLsbD_ofNat, Nat.testBit_two_pow_sub_one]
  by_cases hlow : k < start
  · simp [hlow]
  · have hpos : start + (k - start) = k := by omega
    rw [hpos]
    ac_rfl

theorem placeSel_fieldSel (w : Word) : placeSel (fieldSel w) = w &&& ~~~0xFFFFF0FF := ofNat_extractLsb'_shiftLeft w 8 4

theorem placeLevel_fieldLevel (w : Word) : placeLevel (fieldLevel w) = w &&& ~~~0xFF00FFFF :=
  ofNat_extractLsb'_shiftLeft w 16 8

theorem placeM_fieldM (w : Word) : placeM (fieldM w) = w &&& ~~~0xFFFFEFFF := (BitVec.and_twoPow w 12).symm

/-- The field bits of a command are the bits of its word that the mask of its row leaves out (R101). -/
theorem fieldBits_of_fieldsAre {i : Instr} {w : Word} (h : i.FieldsAre (fieldSel w) (fieldM w) (fieldLevel w)) :
    fieldBits i = w &&& ~~~maskOf i := by
  cases i with
  | hash =>
    cases h
    exact (congrArg placeM (bitOfAlg_algOfBit _)).trans (placeM_fieldM w)
  | encrypt | decrypt =>
    cases h
    exact (congrArg placeM (bitOfDir_dirOfBit _)).trans (placeM_fieldM w)
  | deriveKey =>
    obtain ⟨rfl, rfl⟩ := h
    rw [fieldBits, bitOfDir_dirOfBit, placeSel_fieldSel, placeM_fieldM, ← BitVec.and_or_distrib_left]
    exact congrArg (w &&& ·) (show ~~~0xFFFFF0FF#32 ||| ~~~0xFFFFEFFF#32 = ~~~0xFFFFE0FF#32 from rfl)
  | powSearch | compress =>
    cases h
    exact placeLevel_fieldLevel w
  | rqInit | rqSet | rqDequeue | rqIsSet | rqGen | rqStatus | seqNext | seqRead | seqSet =>
    cases h
    exact placeSel_fieldSel w
  | _ => exact BitVec.and_zero.symm

theorem selFits_fieldSel (w : Word) : selFits (fieldSel w) = true := decide_eq_true (BitVec.isLt _)

theorem levelFits_fieldLevel (w : Word) : levelFits (fieldLevel w) = true := decide_eq_true (BitVec.isLt _)

/-- A command whose fields are read from a word is well formed. -/
theorem wellFormed_of_fieldsAre {i : Instr} {w : Word} (h : i.FieldsAre (fieldSel w) (fieldM w) (fieldLevel w)) :
    i.wellFormed = true := by
  cases i with
  | deriveKey =>
    obtain ⟨rfl, -⟩ := h
    exact selFits_fieldSel w
  | powSearch | compress =>
    cases h
    exact levelFits_fieldLevel w
  | rqInit | rqSet | rqDequeue | rqIsSet | rqGen | rqStatus | seqNext | seqRead | seqSet =>
    cases h
    exact selFits_fieldSel w
  | _ => rfl

/-- Settles O3: under the mask the word is the opcode, and outside it the word is the command's field bits. -/
theorem encodeUndoesDecode : Obligations.EncodeUndoesDecode := by
  intro w i h
  obtain ⟨⟨-, hfields⟩, hmatch⟩ := decode_eq_ok_iff.mp h
  refine ⟨?_, wellFormed_of_fieldsAre hfields⟩
  calc encode i = (w &&& maskOf i) ||| (w &&& ~~~maskOf i) := by rw [encode, fieldBits_of_fieldsAre hfields, hmatch]
    _ = w := by rw [← BitVec.and_or_distrib_left, BitVec.or_not_self, BitVec.and_allOnes]

/-- Settles O1: each word is the encoding of its command. -/
theorem decodeWrittenWords : Obligations.DecodeWrittenWords :=
  ⟨decodeUndoesEncode (.hash .sha1) rfl, decodeUndoesEncode (.deriveKey 2 .s2c) rfl,
    decodeUndoesEncode (.encrypt .c2s) rfl, decodeUndoesEncode (.rqSet 0) rfl, decodeUndoesEncode (.powSearch 8) rfl,
    decodeUndoesEncode (.seqNext 8) rfl, decodeUndoesEncode (.compress 1) rfl, decodeUndoesEncode (.rqStatus 1) rfl⟩

end Sys2Proof

namespace Sys2Proof.Machine

/-! ### The step of a running command -/

/-- Every command has its row in Table 30-1, with its opcode as the match (V1.1). -/
theorem row_mem_commandRows (i : Instr) : (opcodeOf i, maskOf i) ∈ Claims.commandRows := by
  cases i <;> simp [opcodeOf, maskOf, Claims.commandRows]

/-- A word that matches no row of Table 30-1 does not decode (R107). -/
theorem decode_error_of_no_row {w : Word} (h : ∀ p ∈ Claims.commandRows, w &&& p.2 ≠ p.1) :
    ∃ e, decode w = .error e := by
  cases hd : decode w with
  | error e => exact ⟨e, rfl⟩
  | ok i => exact absurd (decode_eq_ok_iff.mp hd).2 (h _ (row_mem_commandRows i))

/-- A running command completes at the end of its events and at the engine's event (R121). -/
theorem step_of_busy {s : State} (hbusy : s.busy = true) :
    (s.events = [] → step s = engineStep s) ∧
      ∀ rest, s.events = .engine :: rest → step s = engineStep { s with events := rest } :=
  ⟨fun h => by rw [step_of_no_event h, if_pos hbusy], fun rest h => by rw [step_of_engine h, if_pos hbusy]⟩

/-- A word that does not decode completes with `ILLEGAL`, and nothing else changes (R107). -/
theorem engineStep_of_illegal {s : State} {e : DecodeError} (h : decode s.cmdL = .error e) :
    ∃ t, engineStep s = .next t ∧ CompletedWith .illegal [] t ∧ Claims.OnlyCompleted s t := by
  refine ⟨raise .illegal s, ?_, completedWith_raise _ _, ?_⟩
  · simp only [engineStep, h, completeIllegal]
  · exact ⟨sameHostSide_completeWith _ _ s, ⟨⟨rfl, rfl, rfl⟩, rfl, rfl⟩, rfl, fun _ => rfl⟩

/-- Settles O4: the word does not decode, so the engine's completion raises `ILLEGAL`. -/
theorem illegalWordCompletesIllegal : Obligations.IllegalWordCompletesIllegal := by
  intro s hbusy hrows
  obtain ⟨e, hillegal⟩ := decode_error_of_no_row hrows
  obtain ⟨hnone, hengine⟩ := step_of_busy hbusy
  refine ⟨fun h => ?_, fun rest h => ?_⟩
  · rw [hnone h]
    exact engineStep_of_illegal hillegal
  · rw [hengine rest h]
    exact engineStep_of_illegal (s := { s with events := rest }) hillegal

/-- Settles O5: the engine's completion runs the decoded command. -/
theorem stepRunsDecodedCommand : Obligations.StepRunsDecodedCommand := by
  intro s i hbusy hd
  obtain ⟨hnone, hengine⟩ := step_of_busy hbusy
  exact ⟨fun h => (hnone h).trans (engineStep_of_decode hd),
    fun rest h => (hengine rest h).trans (engineStep_of_decode hd)⟩

end Sys2Proof.Machine
end

section
/-! NOP (O27), the dropped write of `CMD` (O10), and the run that completes every command (O8): what the engine's turn
and a served access keep, and the run of a list of events by induction. -/

namespace Sys2Proof.Machine

open Sys2Proof.Claims

/-! ### NOP -/

/-- A completion alone changes nothing that `OnlyCompleted` names (R121). -/
theorem onlyCompleted_completeWith (e : ErrCode) (r : Vector Word 8) (s : State) :
    OnlyCompleted s (completeWith e r s) :=
  ⟨sameHostSide_completeWith e r s, ⟨⟨rfl, rfl, rfl⟩, rfl, rfl⟩, rfl, fun _ => rfl⟩

theorem exec_nop (s : State) : exec .nop s = .next (complete [] s) := rfl

/-- Settles O27: NOP is a completion of the state as it is. -/
theorem nopOnlyCompletes : Obligations.NopOnlyCompletes := fun s =>
  ⟨complete [] s, exec_nop s, completedWith_complete [] s, onlyCompleted_completeWith .ok (resultRegs []) s⟩

/-! ### The engine's turn -/

theorem SameHostSide.cfg {s t : State} (h : SameHostSide s t) : t.cfg = s.cfg := by
  obtain ⟨hcfg, -⟩ := h
  exact hcfg

theorem SameHostSide.overrun {s t : State} (h : SameHostSide s t) : t.overrun = s.overrun := by
  obtain ⟨-, -, hoverrun, -⟩ := h
  exact hoverrun

theorem SameHostSide.events {s t : State} (h : SameHostSide s t) : t.events = s.events := by
  obtain ⟨-, -, -, -, -, -, hevents, -⟩ := h
  exact hevents

/-- The running command ends with BUSY 0 and touches nothing of the host's side, whether its word decodes or not (R107,
R121). -/
theorem engineStep_completes (s : State) : ∃ t, engineStep s = .next t ∧ t.busy = false ∧ SameHostSide s t := by
  cases hd : decode s.cmdL with
  | ok i =>
    obtain ⟨t, ht, hbusy, -, -⟩ := commandAlwaysCompletes i s
    exact ⟨t, (engineStep_of_decode hd).trans ht, hbusy, commandsKeepHostSide i s t ht⟩
  | error e =>
    obtain ⟨t, ht, ⟨-, hbusy, -, -⟩, hhost, -⟩ := engineStep_of_illegal hd
    exact ⟨t, ht, hbusy, hhost⟩

/-- The engine's turn, at its own event and at the end of the events: an idle TTE passes it (R121, R355). -/
theorem engineTurn_completes (s : State) :
    ∃ t, (if s.busy then engineStep s else .next s) = .next t ∧ t.busy = false ∧ SameHostSide s t := by
  split
  case isTrue => exact engineStep_completes s
  case isFalse hidle => exact ⟨s, rfl, Bool.eq_false_iff.mpr hidle, rfl, rfl, rfl, rfl, rfl, rfl, rfl, rfl⟩

/-! ### What a served access can change -/

/-- An access to the register window is a write of a register, or changes the number of draws and the answer on the bus
alone (R66, R68). -/
theorem serveReg_cases (a : Access) (off : Nat) (s : State) :
    (∃ v, a = .write .word (accessAddr a) v ∧ serveReg a off s = respond 0 (writeReg (regAt off) v s)) ∨
      ∃ k b, serveReg a off s = { s with draws := k, bus := b } := by
  cases a with
  | read w addr =>
    rw [serveReg]
    split
    · obtain ⟨d, k, heq, -⟩ := readReg_cases (regAt off) s
      exact .inr ⟨k, _, heq⟩
    · exact .inr ⟨s.draws, _, rfl⟩
  | write w addr v =>
    rw [serveReg]
    split
    case isTrue hlegal =>
      obtain ⟨rfl, -⟩ := (regAccessLegal_iff w off).mp hlegal
      exact .inl ⟨v, rfl, rfl⟩
    case isFalse => exact .inr ⟨s.draws, _, rfl⟩

/-- An access to the buffer window changes `BUF`, the model's marks of the running command, the number of draws and the
answer on the bus alone (R65, R66, R70). -/
theorem serveBuf_cases (a : Access) (off : Nat) (s : State) :
    ∃ m h c k b, serveBuf a off s = { s with buf := m, hazard := h, claimed := c, draws := k, bus := b } := by
  cases a with
  | read w addr =>
    rw [serveBuf]
    split
    · obtain ⟨d, k, heq, -⟩ := readBuf_cases w off s
      exact ⟨s.buf, s.hazard, s.claimed, k, _, heq⟩
    · exact ⟨s.buf, s.hazard, s.claimed, s.draws, _, rfl⟩
  | write w addr v =>
    rw [serveBuf]
    split
    · obtain ⟨h, c, heq, -⟩ := writeBuf_cases w off v s
      rw [heq]
      exact ⟨_, h, c, s.draws, _, rfl⟩
    · exact ⟨s.buf, s.hazard, s.claimed, s.draws, _, rfl⟩

/-! ### OVERRUN -/

/-- Only a write of `STATUS` with a 1 in bit 2 and a write of `CTRL` with SRST clear OVERRUN (R27, R362). -/
theorem writeReg_keeps_overrun {r : Reg} {v : Word} {s : State} (hset : s.overrun = true)
    (hstatus : r = .status → v.getLsbD 2 = false) (hctrl : r = .ctrl → v.getLsbD 1 = false) :
    (writeReg r v s).overrun = true := by
  cases r with
  | ctrl =>
    rw [writeReg, writeCtrl, if_neg (Bool.eq_false_iff.mp (hctrl rfl))]
    exact hset
  | status => rw [writeReg, writeStatus_overrun, hset, hstatus rfl, Bool.not_false, Bool.and_true]
  | cmd =>
    rw [writeReg, writeCmd]
    split
    · rfl
    · exact hset
  | _ => exact hset

/-- A served access that is neither write clears no OVERRUN. The two writes are given by their platform addresses. -/
theorem serveAccess_keeps_overrun {a : Access} {s t : State} (h : serveAccess a s = .next t) (hset : s.overrun = true)
    (hstatus : ∀ v, a = .write .word (regAddr s 0x010) v → v.getLsbD 2 = false)
    (hctrl : ∀ v, a = .write .word (regAddr s 0x00C) v → v.getLsbD 1 = false) : t.overrun = true := by
  rcases serveAccess_cases h with rfl | rfl
  · rcases serveReg_cases a (accessAddr a - s.cfg.regBase) s with ⟨v, ha, heq⟩ | ⟨k, b, heq⟩
    · have haddr {off : Nat} (hoff : accessAddr a - s.cfg.regBase = off) (hpos : 0 < off) :
          a = .write .word (regAddr s off) v := by
        rw [regAddr, show s.cfg.regBase + off = accessAddr a by omega]
        exact ha
      rw [heq, respond_overrun]
      exact writeReg_keeps_overrun hset (fun hr => hstatus v (haddr (regAt_eq_status hr) (by omega)))
        fun hr => hctrl v (haddr (regAt_eq_ctrl hr) (by omega))
    · rw [heq]
      exact hset
  · obtain ⟨m, z, c, k, b, heq⟩ := serveBuf_cases a (accessAddr a - s.cfg.bufBase) s
    rw [heq]
    exact hset

/-- The engine's turn keeps OVERRUN, which is on the host's side. -/
theorem engineTurn_keeps_overrun {s t : State} (h : (if s.busy then engineStep s else .next s) = .next t) :
    t.overrun = s.overrun := by
  obtain ⟨u, hu, -, hhost⟩ := engineTurn_completes s
  rw [hu] at h
  cases h
  exact hhost.overrun

/-- A step keeps OVERRUN set, unless its event is one of the two clearing writes or the power-on reset (R122). -/
theorem step_keeps_overrun {s t : State} (h : step s = .next t) (hset : s.overrun = true)
    (hstatus : ∀ v rest, s.events = .access (.write .word (regAddr s 0x010) v) :: rest → v.getLsbD 2 = false)
    (hctrl : ∀ v rest, s.events = .access (.write .word (regAddr s 0x00C) v) :: rest → v.getLsbD 1 = false)
    (hpower : ∀ rest, s.events ≠ .powerOn :: rest) : t.overrun = true := by
  cases hev : s.events with
  | nil =>
    rw [step_of_no_event hev] at h
    exact (engineTurn_keeps_overrun h).trans hset
  | cons e rest =>
    cases e with
    | access a =>
      rw [step_of_access hev] at h
      exact serveAccess_keeps_overrun h hset (fun v ha => hstatus v rest (ha ▸ hev))
        fun v ha => hctrl v rest (ha ▸ hev)
    | engine =>
      rw [step_of_engine hev] at h
      exact (engineTurn_keeps_overrun (s := { s with events := rest }) h).trans hset
    | powerOn => exact absurd hev (hpower rest)

/-- Settles O10: the write finds BUSY set, and every step but the three named ones keeps OVERRUN. -/
theorem cmdWriteWhileBusyIsDropped : Obligations.CmdWriteWhileBusyIsDropped := by
  refine ⟨fun s w rest hbusy h => ?_, fun s t => step_keeps_overrun⟩
  rw [step_writeReg h (by omega) (by omega), show regAt 0x014 = .cmd from rfl, writeReg, writeCmd, if_pos hbusy]
  rfl

/-! ### A run of the events -/

theorem writeReg_keeps_cfg_events (r : Reg) (v : Word) (s : State) :
    (writeReg r v s).cfg = s.cfg ∧ (writeReg r v s).events = s.events := by
  cases r with
  | ctrl =>
    rw [writeReg, writeCtrl]
    split
    · obtain ⟨m, k, heq, -⟩ := softReset_cases s
      rw [heq]
      exact ⟨rfl, rfl⟩
    · exact ⟨rfl, rfl⟩
  | cmd =>
    rw [writeReg, writeCmd]
    split <;> exact ⟨rfl, rfl⟩
  | _ => exact ⟨rfl, rfl⟩

/-- An access at an address of one of the windows is served (R61, R62). -/
theorem serveAccess_of_mapped {a : Access} {s : State} (h : eventMapped s.cfg (.access a) = true) :
    ∃ t, serveAccess a s = .next t := by
  rw [serveAccess]
  split
  · exact ⟨_, rfl⟩
  case isFalse hreg =>
    rw [if_pos ((Bool.or_eq_true_iff.mp h).resolve_left hreg)]
    exact ⟨_, rfl⟩

theorem serveAccess_keeps_cfg_events {a : Access} {s t : State} (h : serveAccess a s = .next t) :
    t.cfg = s.cfg ∧ t.events = s.events := by
  rcases serveAccess_cases h with rfl | rfl
  · rcases serveReg_cases a (accessAddr a - s.cfg.regBase) s with ⟨v, -, heq⟩ | ⟨k, b, heq⟩
    · rw [heq]
      exact writeReg_keeps_cfg_events _ v s
    · rw [heq]
      exact ⟨rfl, rfl⟩
  · obtain ⟨m, z, c, k, b, heq⟩ := serveBuf_cases a (accessAddr a - s.cfg.bufBase) s
    rw [heq]
    exact ⟨rfl, rfl⟩

/-- A step serves an event that the bus can deliver, without a fault or a refusal, and leaves the parameters and the
later events as they are. -/
theorem step_serves_event {s : State} {e : Event} {rest : List Event} (hev : s.events = e :: rest)
    (hmapped : eventMapped s.cfg e = true) : ∃ t, step s = .next t ∧ t.cfg = s.cfg ∧ t.events = rest := by
  cases e with
  | access a =>
    obtain ⟨t, ht⟩ := serveAccess_of_mapped (s := { s with events := rest }) hmapped
    exact ⟨t, (step_of_access hev).trans ht, serveAccess_keeps_cfg_events ht⟩
  | engine =>
    obtain ⟨t, ht, -, hhost⟩ := engineTurn_completes { s with events := rest }
    exact ⟨t, (step_of_engine hev).trans ht, hhost.cfg, hhost.events⟩
  | powerOn => exact ⟨_, step_of_powerOn hev, rfl, rfl⟩

/-- Settles O8: by induction on the events, each served by one step; with none left the engine's turn completes the
running command. -/
theorem runCompletesEveryCommand : Obligations.RunCompletesEveryCommand := by
  intro s hmapped
  unfold EventsMapped at hmapped
  induction hev : s.events generalizing s with
  | nil =>
    obtain ⟨t, ht, hbusy, hhost⟩ := engineTurn_completes s
    exact ⟨t, run_succ Sys2Proof.core ((step_of_no_event hev).trans ht), hbusy, hhost.events.trans hev⟩
  | cons e rest ih =>
    rw [hev, List.forall_mem_cons] at hmapped
    obtain ⟨he, hrest⟩ := hmapped
    obtain ⟨t, ht, hcfg, hevents⟩ := step_serves_event hev he
    rw [List.length_cons, run_succ Sys2Proof.core ht]
    exact ih t (by rw [hcfg, hevents]; exact hrest) hevents

end Sys2Proof.Machine
end

section
/-! DECOMPRESS (O34) and the header accessors (O35): the checks of each command as equations of the model, one for each
way that it can end. -/

namespace Sys2Proof.Machine

open Sys2Proof.Claims

/-! ### DECOMPRESS (R151) -/

section
variable {s : State}

theorem decompressHead_source_range (h : s.cfg.bufSize < opnd s 0 + opnd s 1) : decompressHead s = .error .range := by
  have hsrc : (!inRange s.cfg (opndRegion s 0 1)) = true := (not_inRange_iff _ _).mpr h
  rw [decompressHead, if_pos hsrc]

/-- With its source in range, DECOMPRESS reads the header (R151). -/
theorem decompressHead_format (hsrc : opnd s 0 + opnd s 1 ≤ s.cfg.bufSize)
    (hp : lzParse (readRegion s (opndRegion s 0 1)) = none) : decompressHead s = .error .format := by
  have hin : inRange s.cfg (opndRegion s 0 1) = true := (inRange_iff _ _).mpr hsrc
  simp only [decompressHead, hin, hp]
  rfl

/-- After the header come the checks of the claimed size and of the destination, in this order (R151, R334). -/
theorem decompressHead_of_header {f : LzFields} (hsrc : opnd s 0 + opnd s 1 ≤ s.cfg.bufSize)
    (hp : lzParse (readRegion s (opndRegion s 0 1)) = some f) :
    decompressHead s =
      if opnd s 3 ≤ f.dlen then .error .size
      else if s.cfg.bufSize < opnd s 2 + f.dlen then .error .range
      else if regionsOverlap (opndRegion s 0 1) { start := opnd s 2, len := f.dlen } = true then .error .overlap
      else .ok (readRegion s (opndRegion s 0 1), f) := by
  have hin : inRange s.cfg (opndRegion s 0 1) = true := (inRange_iff _ _).mpr hsrc
  simp only [decompressHead, hin, hp, not_inRange_iff]
  rfl

theorem exec_decompress_checked (hclean : s.hazard = false) {e : ErrCode} (h : decompressHead s = .error e) :
    exec .decompress s = .next (raise e s) := by
  rw [exec, execDecompress, finish_of_no_hazard hclean, h]

theorem exec_decompress_undecodable (hclean : s.hazard = false) {b : Bytes} {f : LzFields} {e : ErrCode}
    (h : decompressHead s = .ok (b, f)) (hd : lzDecode b f = .error e) :
    exec .decompress s = .next (raise e (drawRegion s { start := opnd s 2, len := f.dlen })) := by
  rw [exec, execDecompress, finish_of_no_hazard hclean, h]
  simp only [hd]

theorem exec_decompress_stores (hclean : s.hazard = false) {b d : Bytes} {f : LzFields}
    (h : decompressHead s = .ok (b, f)) (hd : lzDecode b f = .ok d) :
    exec .decompress s = .next (complete [resWord f.dlen] (storeBytes (opnd s 2) d s)) := by
  rw [exec, execDecompress, finish_of_no_hazard hclean, h]
  simp only [hd]

end

/-- An outcome of DECOMPRESS comes with the frame of its unit. -/
theorem decompress_frame {s t : State} {post : State → Prop} (h : exec .decompress s = .next t) (hpost : post t) :
    ∃ t, exec .decompress s = .next t ∧ SameHostSide s t ∧ SameUnits s t ∧ t.kcache = s.kcache ∧ post t := by
  obtain ⟨hhost, hunits, hcache⟩ := exec_frame_of_keepsUnits rfl h
  exact ⟨t, h, hhost, hunits, hcache, hpost⟩

/-- Where a check of R151 fails, DECOMPRESS completes with its code and `BUF` is as before. -/
theorem decompress_checked {s : State} (hclean : s.hazard = false) {e : ErrCode} (h : decompressHead s = .error e) :
    ∃ t, exec .decompress s = .next t ∧ SameHostSide s t ∧ SameUnits s t ∧ t.kcache = s.kcache ∧
      CompletedWith e [] t ∧ SameBuf s t :=
  decompress_frame (exec_decompress_checked hclean h) ⟨completedWith_raise e s, fun _ => rfl⟩

/-- Settles O34: the checks in their order, and after them the two ends of the decoder. -/
theorem decompressStoresData : Obligations.DecompressStoresData := by
  intro s hclean src b
  by_cases hsrc : s.cfg.bufSize < src.start + src.len
  · simp only [if_pos hsrc]
    exact decompress_checked hclean (decompressHead_source_range hsrc)
  simp only [if_neg hsrc]
  have hin := Nat.not_lt.mp hsrc
  cases hp : lzParse b with
  | none => exact decompress_checked hclean (decompressHead_format hin hp)
  | some f =>
    have hhead := decompressHead_of_header hin hp
    dsimp only
    split_ifs at hhead ⊢ with hmax hdst hov
    · exact decompress_checked hclean hhead
    · exact decompress_checked hclean hhead
    · exact decompress_checked hclean hhead
    · cases hd : lzDecode b f with
      | error e =>
        exact decompress_frame (exec_decompress_undecodable hclean hhead hd)
          ⟨lzDecode_error hd, completedWith_raise _ _, sameBufOutside_drawRegion _ s⟩
      | ok d =>
        have hlen := length_lzDecode hd
        have hread := Memory.readBytes_writeBytes s.buf (opnd s 2) d
        rw [hlen] at hread
        exact decompress_frame (exec_decompress_stores hclean hhead hd)
          ⟨completedWith_complete _ _, hread, sameBufOutside_storeBytes hlen s⟩

/-! ### The header accessors (R152, R153) -/

section
variable {s : State}

theorem headerFields_range (h : s.cfg.bufSize < opnd s 0 + opnd s 1) : headerFields s = .error .range := by
  have hsrc : (!inRange s.cfg (opndRegion s 0 1)) = true := (not_inRange_iff _ _).mpr h
  rw [headerFields, if_pos hsrc]

theorem headerFields_format (h : opnd s 0 + opnd s 1 ≤ s.cfg.bufSize)
    (hp : lzParse (readRegion s (opndRegion s 0 1)) = none) : headerFields s = .error .format := by
  have hin : inRange s.cfg (opndRegion s 0 1) = true := (inRange_iff _ _).mpr h
  simp only [headerFields, hin, hp]
  rfl

theorem headerFields_ok {f : LzFields} (h : opnd s 0 + opnd s 1 ≤ s.cfg.bufSize)
    (hp : lzParse (readRegion s (opndRegion s 0 1)) = some f) : headerFields s = .ok f := by
  have hin : inRange s.cfg (opndRegion s 0 1) = true := (inRange_iff _ _).mpr h
  simp only [headerFields, hin, hp]
  rfl

theorem exec_accessors_error (hclean : s.hazard = false) {e : ErrCode} (h : headerFields s = .error e) :
    exec .lzCsize s = .next (raise e s) ∧ exec .lzDsize s = .next (raise e s) := by
  rw [exec, execLzCsize, exec, execLzDsize, finish_of_no_hazard hclean, finish_of_no_hazard hclean, h]
  exact ⟨rfl, rfl⟩

theorem exec_accessors_ok (hclean : s.hazard = false) {f : LzFields} (h : headerFields s = .ok f) :
    exec .lzCsize s = .next (complete [resWord f.clen, resWord f.hl] s) ∧
      exec .lzDsize s = .next (complete [resWord f.dlen, resWord f.hl] s) := by
  rw [exec, execLzCsize, exec, execLzDsize, finish_of_no_hazard hclean, finish_of_no_hazard hclean, h]
  exact ⟨rfl, rfl⟩

/-- Where the header cannot be read, both accessors complete with the same code. -/
theorem accessors_raise (hclean : s.hazard = false) {e : ErrCode} (h : headerFields s = .error e) :
    ∃ t u, exec .lzCsize s = .next t ∧ exec .lzDsize s = .next u ∧ OnlyCompleted s t ∧ OnlyCompleted s u ∧
      CompletedWith e [] t ∧ CompletedWith e [] u := by
  obtain ⟨hcsize, hdsize⟩ := exec_accessors_error hclean h
  exact ⟨_, _, hcsize, hdsize, onlyCompleted_completeWith _ _ s, onlyCompleted_completeWith _ _ s,
    completedWith_raise e s, completedWith_raise e s⟩

/-- Where the header can be read, each accessor answers its length and the header length. -/
theorem accessors_answer (hclean : s.hazard = false) {f : LzFields} (h : headerFields s = .ok f) :
    ∃ t u, exec .lzCsize s = .next t ∧ exec .lzDsize s = .next u ∧ OnlyCompleted s t ∧ OnlyCompleted s u ∧
      CompletedWith .ok [resWord f.clen, resWord f.hl] t ∧ CompletedWith .ok [resWord f.dlen, resWord f.hl] u := by
  obtain ⟨hcsize, hdsize⟩ := exec_accessors_ok hclean h
  exact ⟨_, _, hcsize, hdsize, onlyCompleted_completeWith _ _ s, onlyCompleted_completeWith _ _ s,
    completedWith_complete _ s, completedWith_complete _ s⟩

end

/-! ### The header of a block (R145) -/

theorem lzParse_short {b : Bytes} (h : b.length < 1 ∨ b.length < if (byteAt b 0).getLsbD 1 then 9 else 3) :
    lzParse b = none := by
  rw [lzParse]
  split
  case isTrue => rfl
  case isFalse hne => exact if_pos (h.resolve_left hne)

theorem lzParse_short_form {b : Bytes} (hflag : (byteAt b 0).getLsbD 1 = false) (h : 3 ≤ b.length) :
    lzParse b = some ⟨3, (byteAt b 1).toNat, (byteAt b 2).toNat⟩ := by
  rw [lzParse, if_neg (by omega), hflag]
  exact if_neg (Nat.not_lt.mpr h)

theorem lzParse_long_form {b : Bytes} (hflag : (byteAt b 0).getLsbD 1 = true) (h : 9 ≤ b.length) :
    lzParse b = some ⟨9, uLE (slice b 1 5), uLE (slice b 5 9)⟩ := by
  rw [lzParse, if_neg (by omega), hflag]
  exact if_neg (Nat.not_lt.mpr h)

/-- Settles O35: the source region, the length of the header, and its two forms. -/
theorem headerAccessorsRead : Obligations.HeaderAccessorsRead := by
  intro s hclean src b
  have hlen : b.length = src.len := Memory.length_readBytes _ _ _
  by_cases hsrc : s.cfg.bufSize < src.start + src.len
  · simp only [if_pos hsrc]
    exact accessors_raise hclean (headerFields_range hsrc)
  have hin := Nat.not_lt.mp hsrc
  simp only [if_neg hsrc]
  by_cases hshort : src.len < 1 ∨ src.len < if (byteAt b 0).getLsbD 1 then 9 else 3
  · simp only [if_pos hshort]
    exact accessors_raise hclean (headerFields_format hin (lzParse_short (by rw [hlen]; exact hshort)))
  simp only [if_neg hshort]
  rw [← hlen] at hshort
  cases hflag : (byteAt b 0).getLsbD 1 with
  | true =>
    have hp := lzParse_long_form hflag (by rw [hflag, if_pos rfl] at hshort; omega)
    simp only [reduceIte]
    exact accessors_answer hclean (headerFields_ok hin hp)
  | false =>
    have hp := lzParse_short_form hflag (by rw [hflag, if_neg nofun] at hshort; omega)
    have hanswer := accessors_answer hclean (headerFields_ok hin hp)
    simp only [resWord, BitVec.ofNat_toNat] at hanswer
    simp only [Bool.false_eq_true, reduceIte]
    exact hanswer

end Sys2Proof.Machine
end

section
/-! The tokens of a compressed body (R134, R135): how a token list is laid out in groups behind control words, and that
the decoder reads the tokens back. `LzReads` says what the decoder's output and table become along the tokens. -/

namespace Sys2Proof.Machine

/-! ### Tokens and their layout -/

/-- A token (R135): a literal byte, or a match of `ml` bytes at the position that the hash `h` names. -/
inductive LzTok where
  | lit (b : Byte)
  | copy (h ml : Nat)

/-- The token bit (R134). -/
def LzTok.isCopy : LzTok → Bool
  | .lit _ => false
  | .copy _ _ => true

/-- The token's bytes (R135). -/
def LzTok.bytes : LzTok → Bytes
  | .lit b => [b]
  | .copy h ml => lzMatchToken h ml

/-- The literal tokens of a string. -/
def lzLits (us : Bytes) : List LzTok := us.map LzTok.lit

/-- The token bits as a number, bit 0 for the first token (R134). -/
def lzBits : List LzTok → Nat
  | [] => 0
  | t :: ts => Nat.bit t.isCopy (lzBits ts)

/-- A control word of which `m` tokens are left, the next ones being those of `ts`: their bits and the sentinel
(R134). -/
def lzCtl (m : Nat) (ts : List LzTok) : Nat := 2 ^ m + lzBits (ts.take m)

/-- What follows in the body where `m` tokens of the open group and the tokens `ts` are still to come (R134). -/
def lzFrame : Nat → List LzTok → Bytes
  | _, [] => []
  | 0, t :: ts => leBytes 4 (lzCtl 31 (t :: ts)) ++ t.bytes ++ lzFrame 30 ts
  | m + 1, t :: ts => t.bytes ++ lzFrame m ts

@[simp] theorem lzLits_nil : lzLits [] = [] := rfl

@[simp] theorem lzLits_cons (u : Byte) (us : Bytes) : lzLits (u :: us) = .lit u :: lzLits us := rfl

theorem lzBits_lt (ts : List LzTok) : lzBits ts < 2 ^ ts.length := by
  induction ts with
  | nil => exact Nat.one_pos
  | cons t ts ih =>
    rw [lzBits, Nat.bit_val, List.length_cons, Nat.pow_succ]
    have := t.isCopy.toNat_le
    omega

theorem lzBits_append (ts us : List LzTok) : lzBits (ts ++ us) = lzBits ts + 2 ^ ts.length * lzBits us := by
  induction ts with
  | nil => simp [lzBits]
  | cons t ts ih =>
    rw [List.cons_append, lzBits, lzBits, Nat.bit_val, Nat.bit_val, ih, List.length_cons, Nat.pow_succ]
    ring

theorem lzBits_lzLits (us : Bytes) : lzBits (lzLits us) = 0 := by
  induction us with
  | nil => rfl
  | cons u us ih => rw [lzLits_cons, lzBits, ih]; rfl

theorem lzCtl_lt (m : Nat) (ts : List LzTok) : lzCtl m ts < 2 ^ (m + 1) := by
  have hbits := lzBits_lt (ts.take m)
  have hlen : 2 ^ (ts.take m).length ≤ 2 ^ m := Nat.pow_le_pow_right (by decide) (List.length_take_le m ts)
  rw [lzCtl, Nat.pow_succ]
  omega

theorem lzCtl_succ_cons (m : Nat) (t : LzTok) (ts : List LzTok) :
    lzCtl (m + 1) (t :: ts) = Nat.bit t.isCopy (lzCtl m ts) := by
  rw [lzCtl, List.take_succ_cons, lzBits, Nat.bit_val, Nat.bit_val, lzCtl, Nat.pow_succ]
  ring

theorem lzCtl_lzLits (m : Nat) (us : Bytes) : lzCtl m (lzLits us) = 2 ^ m := by
  rw [lzCtl, lzLits, ← List.map_take, ← lzLits, lzBits_lzLits, Nat.add_zero]

/-- The body's length: the tokens, and 4 bytes for each group begun (R138). -/
theorem length_lzFrame (m : Nat) (ts : List LzTok) :
    (lzFrame m ts).length = (ts.flatMap LzTok.bytes).length + 4 * ((ts.length - m + 30) / 31) := by
  induction ts generalizing m with
  | nil => simp [lzFrame]
  | cons t ts ih =>
    cases m with
    | zero =>
      simp only [lzFrame, List.length_append, length_leBytes, ih, List.flatMap_cons, List.length_cons]
      omega
    | succ m =>
      simp only [lzFrame, List.length_append, ih, List.flatMap_cons, List.length_cons]
      omega

/-- The open group's tokens follow each other. -/
theorem lzFrame_of_length_le {m : Nat} {ts : List LzTok} (h : ts.length ≤ m) :
    lzFrame m ts = ts.flatMap LzTok.bytes := by
  induction ts generalizing m with
  | nil => simp [lzFrame]
  | cons t ts ih =>
    obtain ⟨m, rfl⟩ := Nat.exists_eq_add_one_of_ne_zero (Nat.ne_of_gt (Nat.lt_of_lt_of_le (Nat.succ_pos _) h))
    rw [lzFrame, ih (Nat.le_of_succ_le_succ h), List.flatMap_cons]

/-- After full groups the layout starts anew. -/
theorem lzFrame_append {m : Nat} {ts : List LzTok} (h : ts.length % 31 = m) (us : List LzTok) :
    lzFrame m (ts ++ us) = lzFrame m ts ++ lzFrame 0 us := by
  induction ts generalizing m with
  | nil =>
    cases h
    rfl
  | cons t ts ih =>
    rw [List.length_cons] at h
    cases m with
    | zero =>
      have htake : (t :: (ts ++ us)).take 31 = (t :: ts).take 31 := by
        rw [← List.cons_append, List.take_append_of_le_length (by rw [List.length_cons]; omega)]
      rw [List.cons_append, lzFrame, lzFrame, ih (by omega), lzCtl, lzCtl, htake]
      simp only [List.append_assoc]
    | succ m => rw [List.cons_append, lzFrame, lzFrame, ih (by omega), List.append_assoc]

/-! ### The decoder's control word -/

/-- The decoder's control word (R146). -/
def lzCw (m : Nat) (ts : List LzTok) : Word := BitVec.ofNat 32 (lzCtl m ts)

theorem toNat_lzCw {m : Nat} (hm : m ≤ 31) (ts : List LzTok) : (lzCw m ts).toNat = lzCtl m ts :=
  BitVec.toNat_ofNat _ _ ▸
    Nat.mod_eq_of_lt (Nat.lt_of_lt_of_le (lzCtl_lt m ts) (Nat.pow_le_pow_right (by decide) (by omega)))

theorem lzCw_zero (ts : List LzTok) : lzCw 0 ts = 1 := rfl

theorem lzCw_eq_one_iff {m : Nat} (hm : m ≤ 31) (ts : List LzTok) : lzCw m ts = 1 ↔ m = 0 := by
  refine ⟨fun h => ?_, fun h => h ▸ lzCw_zero ts⟩
  have hctl : lzCtl m ts = 1 := by rw [← toNat_lzCw hm, h]; rfl
  rw [lzCtl] at hctl
  have : m < 2 ^ m := Nat.lt_two_pow_self
  omega

theorem getLsbD_lzCw {m : Nat} (hm : m + 1 ≤ 31) (t : LzTok) (ts : List LzTok) :
    (lzCw (m + 1) (t :: ts)).getLsbD 0 = t.isCopy := by
  rw [BitVec.getLsbD, toNat_lzCw hm, lzCtl_succ_cons, Nat.testBit_bit_zero]

theorem lzCw_shift {m : Nat} (hm : m + 1 ≤ 31) (t : LzTok) (ts : List LzTok) :
    lzCw (m + 1) (t :: ts) >>> 1 = lzCw m ts := by
  apply BitVec.eq_of_toNat_eq
  rw [BitVec.toNat_ushiftRight, toNat_lzCw hm, toNat_lzCw (by omega), lzCtl_succ_cons, Nat.bit_shiftRight_one]

/-! ### What the decoder makes of the tokens (R146) -/

/-- The decoder's output, table, and first position not yet entered. -/
structure LzDict where
  out : Bytes
  table : LzPositions
  next : Nat

/-- The decoder before the first token. -/
def LzDict.empty : LzDict := { out := [], table := [], next := 0 }

/-- After a literal. -/
def LzDict.lit (d : LzDict) (b : Byte) : LzDict :=
  let out := d.out ++ [b]
  let k := out.length - 2 - d.next
  { out := out, table := lzEnter out k d.next d.table, next := d.next + k }

/-- After a match. -/
def LzDict.copy (d : LzDict) (h ml : Nat) : LzDict :=
  let out := lzCopy (lzPosition d.table h) ml d.out
  { out := out
    table := lzEnter out (d.out.length + 1 - d.next) d.next d.table
    next := d.out.length + ml }

/-- The decoder of `n` bytes goes from one dictionary to another along tokens that pass its checks and come before its
tail. -/
inductive LzReads (n : Nat) : LzDict → List LzTok → LzDict → Prop
  | nil (d : LzDict) : LzReads n d [] d
  | lit {d e : LzDict} {b : Byte} {ts : List LzTok} (hmain : d.out.length + 11 ≤ n) (h : LzReads n (d.lit b) ts e) :
      LzReads n d (.lit b :: ts) e
  | copy {d e : LzDict} {h ml : Nat} {ts : List LzTok} (hhash : h < 4096) (hmin : 3 ≤ ml) (hmax : ml ≤ 255)
      (hpos : lzPosition d.table h < d.out.length) (hfits : d.out.length + ml ≤ n)
      (hrest : LzReads n (d.copy h ml) ts e) :
      LzReads n d (.copy h ml :: ts) e

theorem LzReads.append {n : Nat} {d e f : LzDict} {ts us : List LzTok} (h : LzReads n d ts e) (k : LzReads n e us f) :
    LzReads n d (ts ++ us) f := by
  induction h with
  | nil => exact k
  | lit hmain _ ih => exact .lit hmain (ih k)
  | copy hhash hmin hmax hpos hfits _ ih => exact .copy hhash hmin hmax hpos hfits (ih k)

theorem length_lit_out (d : LzDict) (b : Byte) : (d.lit b).out.length = d.out.length + 1 := by simp [LzDict.lit]

theorem length_copy_out (d : LzDict) (h ml : Nat) : (d.copy h ml).out.length = d.out.length + ml :=
  length_lzCopy _ _ _

theorem length_lzMatchToken_le (h : Nat) {ml : Nat} (hmin : 3 ≤ ml) : (lzMatchToken h ml).length ≤ ml := by
  rw [lzMatchToken]
  split <;> simp <;> omega

/-- No token is longer than the bytes it stands for, and each stands for at least one (R138). -/
theorem LzReads.length_le {n : Nat} {d e : LzDict} {ts : List LzTok} (h : LzReads n d ts e) :
    ts.length + d.out.length ≤ e.out.length ∧
      (ts.flatMap LzTok.bytes).length + d.out.length ≤ e.out.length := by
  induction h with
  | nil => simp
  | lit hmain _ ih =>
    rw [length_lit_out] at ih
    simp only [List.length_cons, List.flatMap_cons, List.length_append, LzTok.bytes, List.length_nil]
    omega
  | @copy _ _ h _ _ _ hmin _ _ _ _ ih =>
    rw [length_copy_out] at ih
    have := length_lzMatchToken_le h hmin
    simp only [List.length_cons, List.flatMap_cons, List.length_append, LzTok.bytes]
    omega

/-! ### The decoder on a body -/

/-- The decoder at a place in the block, with a control word. -/
def LzDict.at (d : LzDict) (s : Nat) (cw : Word) : LzDec :=
  { s := s, cw := cw, out := d.out, table := d.table, next := d.next }

/-- How a string lies in the block at a place. -/
theorem length_of_drop_eq {b x y : Bytes} {s : Nat} (h : b.drop s = x ++ y) (hx : x ≠ []) :
    s + x.length ≤ b.length := by
  have hlen := congrArg List.length h
  have := List.length_pos_iff.mpr hx
  simp only [List.length_drop, List.length_append] at hlen
  omega

theorem slice_of_drop_eq {b x y : Bytes} {s : Nat} (h : b.drop s = x ++ y) : slice b s (s + x.length) = x := by
  rw [slice, h, Nat.add_sub_cancel_left, List.take_left']
  rfl

theorem drop_of_drop_eq {b x y : Bytes} {s : Nat} (h : b.drop s = x ++ y) : b.drop (s + x.length) = y := by
  rw [← List.drop_drop, h, List.drop_left']
  rfl

theorem byteAt_of_drop_eq {b x : Bytes} {s : Nat} {c : Byte} (h : b.drop s = c :: x) : byteAt b s = c := by
  have hget := congrArg (fun l => l.getD 0 0) h
  simpa [byteAt] using hget

/-- Before each token the decoder reads a control word if the last one is used up, and then stands at the token
(R146). -/
theorem lzReadControl_frame {b : Bytes} {s m : Nat} {t : LzTok} {ts : List LzTok} (hm : m ≤ 31)
    (hb : b.drop s = lzFrame m (t :: ts)) (d : LzDict) :
    ∃ s' m', m' + 1 ≤ 31 ∧ (m = 0 → m' = 30) ∧ b.drop s' = t.bytes ++ lzFrame m' ts ∧
      lzReadControl b b.length (d.at s (lzCw m (t :: ts))) = some (d.at s' (lzCw (m' + 1) (t :: ts))) := by
  cases m with
  | zero =>
    rw [lzFrame, List.append_assoc] at hb
    have hlen := length_of_drop_eq hb (List.ne_nil_of_length_pos (by simp))
    have hword := slice_of_drop_eq hb
    have hrest := drop_of_drop_eq hb
    rw [length_leBytes] at hlen hword hrest
    have hcw : BitVec.ofNat 32 (uLE (slice b s (s + 4))) = lzCw 31 (t :: ts) := by
      rw [hword, uLE_leBytes, lzCw]
      exact congrArg _ (Nat.mod_eq_of_lt (lzCtl_lt 31 (t :: ts)))
    refine ⟨s + 4, 30, by decide, fun _ => rfl, hrest, ?_⟩
    rw [← hcw]
    exact (if_pos rfl).trans (if_pos hlen)
  | succ m =>
    exact ⟨s, m, hm, nofun, hb, if_neg fun h => Nat.succ_ne_zero m ((lzCw_eq_one_iff hm _).mp h)⟩

/-- The decoder reads a literal (R135). -/
theorem lzDecodeLiteral_frame {b rest : Bytes} {s : Nat} {u : Byte} (hb : b.drop s = u :: rest) (d : LzDict)
    (cw : Word) :
    lzDecodeLiteral b b.length (d.at s cw) = some ((d.lit u).at (s + 1) (cw >>> 1)) := by
  have hlen := length_of_drop_eq (x := [u]) hb nofun
  simp only [lzDecodeLiteral, LzDict.at, LzDict.lit, byteAt_of_drop_eq hb]
  exact if_neg (Nat.not_le.mpr hlen)

/-- The decoder on a match token, from the word and the length that it reads (R146). -/
theorem lzDecodeMatch_of_word {b : Bytes} {n h ml size : Nat} {d : LzDec} (hmin : 3 ≤ ml)
    (hpos : lzPosition d.table h < d.out.length) (hfits : d.out.length + ml ≤ n)
    (hhash : uLE (slice b d.s (d.s + 2)) / 16 = h)
    (hml : (if uLE (slice b d.s (d.s + 2)) % 16 = 0 then (byteAt b (d.s + 2)).toNat
      else uLE (slice b d.s (d.s + 2)) % 16 + 2) = ml)
    (hsize : (if uLE (slice b d.s (d.s + 2)) % 16 = 0 then 3 else 2) = size) (hroom : d.s + size ≤ b.length) :
    lzDecodeMatch b b.length n d =
      some ((LzDict.copy ⟨d.out, d.table, d.next⟩ h ml).at (d.s + size) (d.cw >>> 1)) := by
  have hword : ¬b.length < d.s + 2 := by
    split at hsize <;> omega
  have hlong : ¬(uLE (slice b d.s (d.s + 2)) % 16 = 0 ∧ b.length < d.s + 3) := by
    split at hsize <;> omega
  rw [lzDecodeMatch, if_neg hword, if_neg hlong]
  simp only [hhash, hml, hsize]
  rw [if_neg (by omega)]
  rfl

/-- The decoder reads a match token of either size (R135). -/
theorem lzDecodeMatch_frame {b rest : Bytes} {n s h ml : Nat} {d : LzDict} (hhash : h < 4096) (hmin : 3 ≤ ml)
    (hmax : ml ≤ 255) (hpos : lzPosition d.table h < d.out.length) (hfits : d.out.length + ml ≤ n)
    (hb : b.drop s = lzMatchToken h ml ++ rest) (cw : Word) :
    lzDecodeMatch b b.length n (d.at s cw) =
      some ((d.copy h ml).at (s + (lzMatchToken h ml).length) (cw >>> 1)) := by
  by_cases hshort : ml < 18
  · rw [lzMatchToken, if_pos hshort] at hb ⊢
    have hroom := length_of_drop_eq hb (List.ne_nil_of_length_pos (by simp))
    have hword : uLE (slice b s (s + 2)) = h * 16 + (ml - 2) := by
      have hslice := slice_of_drop_eq hb
      rw [length_leBytes] at hslice
      rw [hslice, uLE_leBytes]
      omega
    refine lzDecodeMatch_of_word (d := d.at s cw) hmin hpos hfits ?_ ?_ ?_ hroom <;>
      simp only [LzDict.at, hword, length_leBytes]
    · omega
    · rw [if_neg (by omega)]
      omega
    · rw [if_neg (by omega)]
  · rw [lzMatchToken, if_neg hshort] at hb ⊢
    have hroom := length_of_drop_eq hb (List.ne_nil_of_length_pos (by simp))
    rw [List.append_assoc] at hb
    have hword : uLE (slice b s (s + 2)) = h * 16 := by
      have hslice := slice_of_drop_eq hb
      rw [length_leBytes] at hslice
      rw [hslice, uLE_leBytes]
      omega
    have hlong : byteAt b (s + 2) = BitVec.ofNat 8 ml := by
      have hrest := drop_of_drop_eq hb
      rw [length_leBytes] at hrest
      exact byteAt_of_drop_eq hrest
    refine lzDecodeMatch_of_word (d := d.at s cw) hmin hpos hfits ?_ ?_ ?_ hroom <;>
      simp only [LzDict.at, hword, hlong, Nat.mul_mod_left, reduceIte, List.length_append, length_leBytes,
        List.length_singleton]
    · omega
    · rw [BitVec.toNat_ofNat]
      omega

/-- A literal of the tail: its control word is read as before any token, but not looked at (R146). -/
theorem lzDecodeTail_succ {b : Bytes} {clen k : Nat} {d e : LzDec} (h : lzReadControl b clen d = some e)
    (hskip : d.cw = 1 → e.cw = 0x80000000) (hroom : e.s < clen) :
    lzDecodeTail b clen (k + 1) d =
      lzDecodeTail b clen k { e with s := e.s + 1, cw := e.cw >>> 1, out := e.out ++ [byteAt b e.s] } := by
  rw [lzReadControl] at h
  rw [lzDecodeTail]
  by_cases hused : d.cw = 1
  · rw [if_pos hused] at h
    split at h <;> cases h
    have hword : BitVec.ofNat 32 (uLE (slice b d.s (d.s + 4))) = 0x80000000 := hskip hused
    simp only [hused, true_and, reduceIte, hword]
    rw [if_neg (by omega), if_neg (by simpa using hroom)]
  · rw [if_neg hused] at h
    cases h
    simp only [hused, false_and, reduceIte]
    rw [if_neg (by omega)]

/-- The decoder's tail gives the literals that are left, whatever control words stand between them (R146). -/
theorem lzDecodeTail_frame {b us : Bytes} {s m : Nat} (hm : m ≤ 31) (hb : b.drop s = lzFrame m (lzLits us))
    (d : LzDict) :
    lzDecodeTail b b.length us.length (d.at s (lzCw m (lzLits us))) = some (d.out ++ us) := by
  induction us generalizing s m d with
  | nil => exact congrArg some (List.append_nil _).symm
  | cons u us ih =>
    rw [lzLits_cons] at hb ⊢
    obtain ⟨s', m', hm', hfresh, hb', hread⟩ := lzReadControl_frame hm hb d
    have hskip (h : lzCw m (.lit u :: lzLits us) = 1) : lzCw (m' + 1) (.lit u :: lzLits us) = 0x80000000 := by
      obtain rfl := hfresh ((lzCw_eq_one_iff hm _).mp h)
      exact congrArg (BitVec.ofNat 32) (lzCtl_lzLits 31 (u :: us))
    have hroom := length_of_drop_eq hb' nofun
    refine (lzDecodeTail_succ hread hskip hroom).trans ?_
    refine (congrArg (lzDecodeTail b b.length us.length) ?_).trans
      ((ih (by omega) (drop_of_drop_eq hb') ⟨d.out ++ [u], d.table, d.next⟩).trans ?_)
    · simp only [LzDict.at, byteAt_of_drop_eq hb', lzCw_shift hm', LzTok.bytes, List.length_singleton]
    · simp

/-! One round of the decoder's loop (R146). -/

section
variable {b : Bytes} {clen n fuel : Nat} {d e f : LzDec}

theorem lzDecodeLoop_match (hmore : d.out.length ≠ n) (hread : lzReadControl b clen d = some e)
    (hbit : e.cw.getLsbD 0 = true) (hstep : lzDecodeMatch b clen n e = some f) :
    lzDecodeLoop b clen n (fuel + 1) d = lzDecodeLoop b clen n fuel f := by
  rw [lzDecodeLoop, if_neg hmore]
  simp only [hread, hbit, hstep, reduceIte]

theorem lzDecodeLoop_literal (hmore : d.out.length ≠ n) (hread : lzReadControl b clen d = some e)
    (hbit : e.cw.getLsbD 0 = false) (hmain : e.out.length + 11 ≤ n) (hstep : lzDecodeLiteral b clen e = some f) :
    lzDecodeLoop b clen n (fuel + 1) d = lzDecodeLoop b clen n fuel f := by
  rw [lzDecodeLoop, if_neg hmore]
  simp only [hread, hbit, hmain, hstep, reduceIte, Bool.false_eq_true]

theorem lzDecodeLoop_tail (hmore : d.out.length ≠ n) (hread : lzReadControl b clen d = some e)
    (hbit : e.cw.getLsbD 0 = false) (htail : ¬e.out.length + 11 ≤ n) :
    lzDecodeLoop b clen n (fuel + 1) d = lzDecodeTail b clen (n - e.out.length) e := by
  rw [lzDecodeLoop, if_neg hmore]
  simp only [hread, hbit, htail, reduceIte, Bool.false_eq_true]

end

/-- The decoder on a body: along the tokens it does what `LzReads` says, and the tail gives the rest (R146). -/
theorem lzDecodeLoop_frame {b us : Bytes} {n fuel s m : Nat} {d e : LzDict} {ts : List LzTok}
    (hreads : LzReads n d ts e) (hlen : e.out.length + us.length = n) (htail : us.length ≤ 10) (hm : m ≤ 31)
    (hb : b.drop s = lzFrame m (ts ++ lzLits us)) (hfuel : n < d.out.length + fuel) :
    lzDecodeLoop b b.length n fuel (d.at s (lzCw m (ts ++ lzLits us))) = some (e.out ++ us) := by
  have hle := hreads.length_le
  obtain ⟨fuel, rfl⟩ : ∃ k, fuel = k + 1 := ⟨fuel - 1, by omega⟩
  induction hreads generalizing fuel s m with
  | nil d =>
    rw [List.nil_append] at hb ⊢
    cases us with
    | nil =>
      rw [List.append_nil]
      exact if_pos hlen
    | cons u us =>
      rw [List.length_cons] at hlen htail
      obtain ⟨s', m', hm', -, hb', hread⟩ := lzReadControl_frame hm hb d
      have hb'' : b.drop s' = lzFrame (m' + 1) (lzLits (u :: us)) := hb'
      refine (lzDecodeLoop_tail (show d.out.length ≠ n by omega) hread (getLsbD_lzCw hm' _ _)
        (show ¬d.out.length + 11 ≤ n by omega)).trans ?_
      have hk : n - d.out.length = (u :: us).length := by rw [List.length_cons]; omega
      exact hk ▸ lzDecodeTail_frame hm' hb'' d
  | @lit d e u ts hmain h ih =>
    obtain ⟨s', m', hm', -, hb', hread⟩ := lzReadControl_frame hm hb d
    refine (lzDecodeLoop_literal (show d.out.length ≠ n by omega) hread (getLsbD_lzCw hm' _ _) hmain
      (lzDecodeLiteral_frame hb' d _)).trans ?_
    rw [lzCw_shift hm']
    have hlit := length_lit_out d u
    obtain ⟨fuel, rfl⟩ : ∃ k, fuel = k + 1 := ⟨fuel - 1, by omega⟩
    exact ih hlen (by omega) (drop_of_drop_eq hb') h.length_le fuel (by omega)
  | @copy d e h ml ts hhash hmin hmax hpos hfits hrest ih =>
    obtain ⟨s', m', hm', -, hb', hread⟩ := lzReadControl_frame hm hb d
    refine (lzDecodeLoop_match (show d.out.length ≠ n by omega) hread (getLsbD_lzCw hm' _ _)
      (lzDecodeMatch_frame hhash hmin hmax hpos hfits hb' _)).trans ?_
    rw [lzCw_shift hm']
    have hcopy := length_copy_out d h ml
    have hle' := hrest.length_le
    obtain ⟨fuel, rfl⟩ : ∃ k, fuel = k + 1 := ⟨fuel - 1, by omega⟩
    exact ih hlen (by omega) (drop_of_drop_eq hb') hle' fuel (by omega)

end Sys2Proof.Machine
end

section
/-! The compressor writes tokens in groups (R134, R140): what each of its steps does to the token list written so
far. -/

namespace Sys2Proof.Machine

/-- The tokens written so far: those of the closed groups and those of the open one, whose control word holds their
bits above the sentinel (R140). -/
structure LzGroups (c : LzComp) (done opened : List LzTok) : Prop where
  closed : c.closed = lzFrame 0 done
  full : done.length % 31 = 0
  group : c.group = opened.flatMap LzTok.bytes
  room : opened.length ≤ 31
  cw : c.cw.toNat = 2 ^ (31 - opened.length) * (2 * lzBits opened + 1)

/-- The compressor has written the tokens. A group is opened only for a token. -/
def LzWritten (c : LzComp) (ts : List LzTok) : Prop :=
  ∃ done opened, done ++ opened = ts ∧ (opened = [] → ts = []) ∧ LzGroups c done opened

theorem lzWritten_start : LzWritten lzStart [] := ⟨[], [], rfl, fun _ => rfl, rfl, rfl, rfl, by decide, rfl⟩

/-- The control word is full with 31 tokens (R140). -/
theorem LzGroups.lzFull_iff {c : LzComp} {done opened : List LzTok} (h : LzGroups c done opened) :
    lzFull c = true ↔ opened.length = 31 := by
  rw [lzFull, BitVec.getLsbD, h.cw, Nat.testBit_zero, decide_eq_true_iff]
  have hroom := h.room
  constructor
  · intro hodd
    by_contra hne
    obtain ⟨j, hj⟩ : ∃ j, 31 - opened.length = j + 1 := ⟨30 - opened.length, by omega⟩
    rw [hj, Nat.pow_succ, Nat.mul_comm _ 2, Nat.mul_assoc, Nat.mul_mod_right] at hodd
    cases hodd
  · intro hlen
    rw [hlen]
    omega

/-- The control word with a bit put in at the top (R140). -/
def lzPushBit (cw : Word) (bit : Bool) : Word := if bit then (cw >>> 1) ||| 0x80000000#32 else cw >>> 1

theorem toNat_lzPushBit (cw : Word) (bit : Bool) : (lzPushBit cw bit).toNat = cw.toNat / 2 + bit.toNat * 2 ^ 31 := by
  have hhalf : cw.toNat / 2 < 2 ^ 31 := by omega
  cases bit with
  | false => simp [lzPushBit, Nat.shiftRight_eq_div_pow]
  | true =>
    have hor := Nat.two_pow_add_eq_or_of_lt hhalf 1
    simp only [lzPushBit, reduceIte, BitVec.toNat_or, BitVec.toNat_ushiftRight, Nat.shiftRight_eq_div_pow]
    rw [Nat.or_comm]
    simpa [Nat.add_comm] using hor.symm

/-- A state of the compressor after one more token in the open group. -/
structure LzPushes (t : LzTok) (c c' : LzComp) : Prop where
  closed : c'.closed = c.closed
  group : c'.group = c.group ++ t.bytes
  cw : c'.cw = lzPushBit c.cw t.isCopy

theorem LzGroups.push {c c' : LzComp} {done opened : List LzTok} {t : LzTok} (h : LzGroups c done opened)
    (hroom : opened.length < 31) (hpush : LzPushes t c c') : LzGroups c' done (opened ++ [t]) where
  closed := hpush.closed.trans h.closed
  full := h.full
  group := by rw [hpush.group, h.group, List.flatMap_append, List.flatMap_singleton]
  room := by rw [List.length_append]; exact hroom
  cw := by
    obtain ⟨j, hj⟩ : ∃ j, 31 - opened.length = j + 1 := ⟨30 - opened.length, by omega⟩
    have hpow : 2 ^ 31 = 2 ^ j * (2 * 2 ^ opened.length) := by
      rw [← Nat.pow_succ', ← Nat.pow_add]
      congr 1
      omega
    have hj' : 31 - (opened ++ [t]).length = j := by rw [List.length_append, List.length_singleton]; omega
    have hbit : lzBits [t] = t.isCopy.toNat := by simp [lzBits, Nat.bit_val]
    rw [hpush.cw, toNat_lzPushBit, h.cw, hj, hj', lzBits_append, hbit, hpow, Nat.pow_succ, Nat.mul_comm _ 2,
      Nat.mul_assoc, Nat.mul_div_cancel_left _ Nat.two_pos]
    ring

/-- The control word that closes a group of tokens (R140). -/
theorem toNat_closingWord {cw : Word} {opened : List LzTok} (hroom : opened.length ≤ 31)
    (h : cw.toNat = 2 * lzBits opened + 1) :
    ((cw >>> 1) ||| 0x80000000#32).toNat = lzCtl 31 opened := by
  have hpush := toNat_lzPushBit cw true
  rw [lzPushBit, if_pos rfl] at hpush
  rw [hpush, h, lzCtl, List.take_of_length_le hroom, Bool.toNat_true]
  omega

/-- One group: its control word and its tokens (R134). -/
theorem lzFrame_zero_of_length_le {ts : List LzTok} (hne : ts ≠ []) (hlen : ts.length ≤ 31) :
    lzFrame 0 ts = leBytes 4 (lzCtl 31 ts) ++ ts.flatMap LzTok.bytes := by
  cases ts with
  | nil => exact absurd rfl hne
  | cons t ts =>
    rw [lzFrame, lzFrame_of_length_le (Nat.le_of_succ_le_succ hlen), List.flatMap_cons, List.append_assoc]

/-- Closing the open group writes its tokens behind their control word (R134, R140). -/
theorem LzGroups.closed_lzClose {c : LzComp} {done opened : List LzTok} {cw : Word} (h : LzGroups c done opened)
    (hne : opened ≠ []) (hcw : cw.toNat = 2 * lzBits opened + 1) :
    (lzClose { c with cw := cw }).closed = lzFrame 0 (done ++ opened) := by
  rw [lzFrame_append h.full, lzFrame_zero_of_length_le hne h.room, ← toNat_closingWord h.room hcw, ← h.group,
    ← h.closed, ← List.append_assoc]
  rfl

theorem LzGroups.close {c : LzComp} {done opened : List LzTok} (h : LzGroups c done opened)
    (hfull : opened.length = 31) :
    LzGroups (lzClose c) (done ++ opened) [] where
  closed := by
    have hcw := h.cw
    rw [hfull, Nat.sub_self, Nat.pow_zero, Nat.one_mul] at hcw
    exact h.closed_lzClose (List.ne_nil_of_length_eq_add_one hfull) hcw
  full := by
    have := h.full
    rw [List.length_append]
    omega
  group := rfl
  room := by decide
  cw := rfl

/-- Flushing moves the sentinel to bit 0 (R140). -/
theorem toNat_lzFlush {cw : Word} {fuel j x : Nat} (h : cw.toNat = 2 ^ j * (2 * x + 1)) (hj : j ≤ fuel) :
    (lzFlush fuel cw).toNat = 2 * x + 1 := by
  induction fuel generalizing cw j with
  | zero =>
    obtain rfl := Nat.le_zero.mp hj
    rw [lzFlush, h, Nat.pow_zero, Nat.one_mul]
  | succ fuel ih =>
    rw [lzFlush, BitVec.getLsbD, h, Nat.testBit_zero]
    cases j with
    | zero =>
      rw [if_pos (decide_eq_true (by omega)), h, Nat.pow_zero, Nat.one_mul]
    | succ j =>
      rw [Nat.pow_succ, Nat.mul_comm _ 2, Nat.mul_assoc] at h ⊢
      rw [if_neg (by simp)]
      refine ih (j := j) ?_ (Nat.le_of_succ_le_succ hj)
      rw [BitVec.toNat_ushiftRight, Nat.shiftRight_eq_div_pow, h, Nat.pow_one, Nat.mul_div_cancel_left _ Nat.two_pos]

/-- The state in which the next token is written: a full group is closed first (R140). -/
def lzReady (c : LzComp) : LzComp := if lzFull c then lzClose c else c

theorem lzReady_keeps (c : LzComp) :
    (lzReady c).s = c.s ∧ (lzReady c).lits = c.lits ∧ (lzReady c).table = c.table := by
  rw [lzReady]
  split <;> exact ⟨rfl, rfl, rfl⟩

/-- One more token is written, in a new group if the open one is full (R140). -/
theorem LzWritten.push {c c' : LzComp} {ts : List LzTok} {t : LzTok} (h : LzWritten c ts)
    (hpush : LzPushes t (lzReady c) c') : LzWritten c' (ts ++ [t]) := by
  obtain ⟨done, opened, rfl, -, hgroups⟩ := h
  rw [lzReady] at hpush
  split at hpush
  case isTrue hfull =>
    exact ⟨done ++ opened, [t], rfl, nofun, (hgroups.close (hgroups.lzFull_iff.mp hfull)).push (by decide) hpush⟩
  case isFalse hfull =>
    rw [hgroups.lzFull_iff] at hfull
    have hroom := hgroups.room
    exact ⟨done, opened ++ [t], (List.append_assoc ..).symm, by simp, hgroups.push (by omega) hpush⟩

/-- The finished block (R134, R140). -/
theorem LzWritten.finish {c : LzComp} {ts : List LzTok} (h : LzWritten c ts) (hne : ts ≠ []) (n hl : Nat) :
    lzFinish n hl c = lzHeader true hl (hl + (lzFrame 0 ts).length) n ++ lzFrame 0 ts := by
  obtain ⟨done, opened, rfl, hopened, hgroups⟩ := h
  have hcw : (lzFlush 32 c.cw).toNat = 2 * lzBits opened + 1 := toNat_lzFlush hgroups.cw (by omega)
  rw [lzFinish, hgroups.closed_lzClose (fun h => hne (hopened h)) hcw]

theorem lzLiteral_pushes (src : Bytes) (c : LzComp) : LzPushes (.lit (byteAt src c.s)) c (lzLiteral src c) :=
  ⟨rfl, rfl, rfl⟩

theorem drop_eq_byteAt_cons {src : Bytes} {s : Nat} (h : s < src.length) :
    src.drop s = byteAt src s :: src.drop (s + 1) := by
  rw [List.drop_eq_getElem_cons h, byteAt, List.getD_eq_getElem _ _ h]

/-- The tail writes the rest of the input as literals (R140). -/
theorem LzWritten.tail {src : Bytes} {k : Nat} {c : LzComp} {ts : List LzTok} (h : LzWritten c ts)
    (hk : c.s + k = src.length) : LzWritten (lzTail src k c) (ts ++ lzLits (src.drop c.s)) := by
  induction k generalizing c ts with
  | zero =>
    rw [List.drop_of_length_le (by omega), lzLits_nil, List.append_nil]
    exact h
  | succ k ih =>
    obtain ⟨hs, -, -⟩ := lzReady_keeps c
    have hpush := h.push (lzLiteral_pushes src (lzReady c))
    have hnext : (lzLiteral src (lzReady c)).s = c.s + 1 := congrArg (· + 1) hs
    have htail := ih hpush (by omega)
    rw [hnext, hs, List.append_assoc] at htail
    rw [drop_eq_byteAt_cons (by omega)]
    exact htail

end Sys2Proof.Machine
end

section
/-! The compressor and the decoder stay in step (R148): the decoder's table, brought up to the compressor's position, is
the compressor's table, so the decoder finds for each match token a position that holds the same bytes. -/

namespace Sys2Proof.Machine

/-! ### Three bytes and their hash (R136) -/

theorem slice_three {s : Bytes} {p : Nat} (h : p + 3 ≤ s.length) :
    slice s p (p + 3) = [byteAt s p, byteAt s (p + 1), byteAt s (p + 2)] := by
  rw [slice, Nat.add_sub_cancel_left, drop_eq_byteAt_cons (by omega), drop_eq_byteAt_cons (by omega),
    drop_eq_byteAt_cons (by omega)]
  rfl

/-- Positions with the same three bytes have the same value `f` (R136). -/
theorem lzFetch_congr {s t : Bytes} {p q : Nat} (hp : p + 3 ≤ s.length) (hq : q + 3 ≤ t.length)
    (h : ∀ k < 3, byteAt s (p + k) = byteAt t (q + k)) : lzFetch s p = lzFetch t q := by
  rw [lzFetch, lzFetch, slice_three hp, slice_three hq]
  have h0 := h 0 (by decide)
  rw [Nat.add_zero, Nat.add_zero] at h0
  rw [h0, h 1 (by decide), h 2 (by decide)]

/-- The value `f` tells its three bytes (R136). -/
theorem byteAt_eq_of_lzFetch_eq {s : Bytes} {p q : Nat} (hp : p + 3 ≤ s.length) (hq : q + 3 ≤ s.length)
    (h : lzFetch s p = lzFetch s q) : ∀ k < 3, byteAt s (p + k) = byteAt s (q + k) := by
  rw [lzFetch, lzFetch, slice_three hp, slice_three hq] at h
  intro k hk
  have hdigit := (digit_uLE [byteAt s p, byteAt s (p + 1), byteAt s (p + 2)] k).symm.trans
    ((congrArg (fun v => BitVec.ofNat 8 (v / 256 ^ k)) h).trans
      (digit_uLE [byteAt s q, byteAt s (q + 1), byteAt s (q + 2)] k))
  interval_cases k <;> exact hdigit

theorem lzHash_lt (f : Nat) : lzHash f < 4096 := Nat.and_lt_two_pow _ (n := 12) (by decide)

theorem byteAt_take {s : Bytes} {n p : Nat} (h : p < n) : byteAt (s.take n) p = byteAt s p := by
  rw [byteAt, byteAt, List.getD_eq_getElem?_getD, List.getD_eq_getElem?_getD, List.getElem?_take_of_lt h]

/-- The decoder hashes its output as the compressor hashes its input (R146). -/
theorem lzFetch_take {s : Bytes} {n p : Nat} (h : p + 3 ≤ n) (hn : n ≤ s.length) :
    lzFetch (s.take n) p = lzFetch s p :=
  lzFetch_congr (by rw [List.length_take]; omega) (by omega) fun k hk => byteAt_take (by omega)

/-! ### The position tables -/

theorem lzEnter_add (d : Bytes) (j k p : Nat) (t : LzPositions) :
    lzEnter d (j + k) p t = lzEnter d k (p + j) (lzEnter d j p t) := by
  induction j generalizing p t with
  | zero => rw [Nat.zero_add]; rfl
  | succ j ih =>
    rw [Nat.add_right_comm, lzEnter, ih, lzEnter]
    congr 1
    omega

/-- The last position entered is the newest. -/
theorem lzEnter_succ (d : Bytes) (k p : Nat) (t : LzPositions) :
    lzEnter d (k + 1) p t = (lzHash (lzFetch d (p + k)), p + k) :: lzEnter d k p t := lzEnter_add d k 1 p t

theorem lzEnter_congr {d d' : Bytes} {k p : Nat} (h : ∀ q, p ≤ q → q < p + k → lzFetch d q = lzFetch d' q)
    (t : LzPositions) : lzEnter d k p t = lzEnter d' k p t := by
  induction k with
  | zero => rfl
  | succ k ih =>
    rw [lzEnter_succ, lzEnter_succ, ih fun q hp hq => h q hp (by omega), h (p + k) (by omega) (by omega)]

theorem lzEnter_take {s : Bytes} {n k p : Nat} (h : k = 0 ∨ p + k + 2 ≤ n) (hn : n ≤ s.length) (t : LzPositions) :
    lzEnter (s.take n) k p t = lzEnter s k p t :=
  lzEnter_congr (fun q _ _ => lzFetch_take (by omega) hn) t

/-- A position found among entered ones is one of them, or was there before. -/
theorem lzPosition_lzEnter (d : Bytes) (k p : Nat) (t : LzPositions) (h : Nat) :
    lzPosition (lzEnter d k p t) h = lzPosition t h ∨ p ≤ lzPosition (lzEnter d k p t) h := by
  induction k with
  | zero => exact .inl rfl
  | succ k ih =>
    rw [lzEnter_succ, lzPosition, List.lookup_cons]
    cases h == lzHash (lzFetch d (p + k)) with
    | true => exact .inr (Nat.le_add_right p k)
    | false => exact ih

/-- The positions of the compressor's table. -/
def lzPositions (t : LzTable) : LzPositions := t.map fun x => (x.1, x.2.pos)

theorem lzPosition_lzPositions (t : LzTable) (h : Nat) : lzPosition (lzPositions t) h = (lzEntry t h).pos := by
  induction t with
  | nil => rfl
  | cons x t ih =>
    rw [lzPositions, List.map_cons, lzPosition, lzEntry, List.lookup_cons, List.lookup_cons]
    cases h == x.1 with
    | true => rfl
    | false => exact ih

/-- An entry that is not cleared was written in this call (R140). -/
theorem lzEntry_mem {t : LzTable} {h : Nat} (hseen : (lzEntry t h).seen = true) : (h, lzEntry t h) ∈ t := by
  induction t with
  | nil => cases hseen
  | cons x t ih =>
    rw [lzEntry, List.lookup_cons] at hseen ⊢
    cases heq : h == x.1 with
    | true =>
      rw [beq_iff_eq] at heq
      rw [heq]
      exact List.mem_cons_self
    | false =>
      rw [heq] at hseen
      exact List.mem_cons_of_mem _ (ih hseen)

/-! ### Matches -/

/-- The bytes from `o` and from `s` on agree for `k` bytes. -/
def LzAgree (src : Bytes) (o s k : Nat) : Prop := ∀ j < k, byteAt src (o + j) = byteAt src (s + j)

theorem LzAgree.succ {src : Bytes} {o s k : Nat} (h : LzAgree src o s k)
    (hk : byteAt src (o + k) = byteAt src (s + k)) :
    LzAgree src o s (k + 1) := fun j hj => (Nat.lt_succ_iff_lt_or_eq.mp hj).elim (h j) fun he => he ▸ hk

theorem lzExtend_agrees {src : Bytes} {o s rem fuel k : Nat} (h : LzAgree src o s k) (hk : k ≤ rem) :
    LzAgree src o s (lzExtend src o s rem fuel k) ∧ k ≤ lzExtend src o s rem fuel k ∧
      lzExtend src o s rem fuel k ≤ rem := by
  induction fuel generalizing k with
  | zero => exact ⟨h, Nat.le_refl k, hk⟩
  | succ fuel ih =>
    rw [lzExtend]
    split
    case isTrue hnext =>
      obtain ⟨hagree, hle, hrem⟩ := ih (h.succ hnext.1) hnext.2
      exact ⟨hagree, Nat.le_of_succ_le hle, hrem⟩
    case isFalse => exact ⟨h, Nat.le_refl k, hk⟩

/-- A match copies bytes that agree, at least 3 and at most 255, and ends before the last 4 bytes (R139, R140). -/
theorem lzMatchLen_agrees {src : Bytes} {o s : Nat} (hs : s + 11 ≤ src.length) (h : LzAgree src o s 3) :
    LzAgree src o s (lzMatchLen src o s) ∧ 3 ≤ lzMatchLen src o s ∧ lzMatchLen src o s ≤ 255 ∧
      s + lzMatchLen src o s ≤ src.length := by
  rw [lzMatchLen]
  split
  case isTrue => exact ⟨h, by omega, by omega, by omega⟩
  case isFalse h3 =>
    replace h := h.succ (Classical.not_not.mp h3)
    split
    case isTrue => exact ⟨h, by omega, by omega, by omega⟩
    case isFalse h4 =>
      replace h := h.succ (Classical.not_not.mp h4)
      split
      case isTrue => exact ⟨h, by omega, by omega, by omega⟩
      case isFalse h5 =>
        replace h := h.succ (Classical.not_not.mp h5)
        obtain ⟨hagree, hle, hrem⟩ := lzExtend_agrees (rem := min 255 (src.length - 4 - s))
          (fuel := min 255 (src.length - 4 - s)) (k := 6) h (by omega)
        dsimp only
        exact ⟨hagree, by omega, by omega, by omega⟩

/-- Copying bytes that agree lengthens the output along the input (R146). -/
theorem lzCopy_take {src : Bytes} {o s k : Nat} (h : LzAgree src o s k) (ho : o < s) (hk : s + k ≤ src.length) :
    lzCopy o k (src.take s) = src.take (s + k) := by
  induction k generalizing o s with
  | zero => rfl
  | succ k ih =>
    have hbyte : src.take s ++ [byteAt (src.take s) o] = src.take (s + 1) := by
      rw [byteAt_take ho, show byteAt src o = byteAt src s from h 0 (Nat.succ_pos k), byteAt,
        List.getD_eq_getElem _ _ (by omega), List.take_append_getElem]
    have hagree : LzAgree src (o + 1) (s + 1) k := fun j hj => by
      have := h (j + 1) (Nat.succ_lt_succ hj)
      rwa [← Nat.add_assoc, ← Nat.add_assoc, Nat.add_right_comm o, Nat.add_right_comm s] at this
    rw [lzCopy, hbyte, ih hagree (by omega) (by omega)]
    congr 1
    omega

/-- Bytes that agree with those one place before are all the same (R140). -/
theorem LzAgree.constant {src : Bytes} {o k : Nat} (h : LzAgree src o (o + 1) k) {j : Nat} (hj : j ≤ k) :
    byteAt src (o + j) = byteAt src o := by
  induction j with
  | zero => rfl
  | succ j ih =>
    rw [← ih (Nat.le_of_succ_le hj), h j hj]
    congr 1
    omega

/-! ### The relation between the two -/

/-- The decoder's output is the input up to the compressor's position; its table, with the positions that it has not yet
entered, is the compressor's table; it lags by the last two literals. -/
structure LzInStep (src : Bytes) (c : LzComp) (d : LzDict) : Prop where
  inside : c.s ≤ src.length
  out : d.out = src.take c.s
  next : d.next + min c.lits 2 = c.s
  table : lzPositions c.table = lzEnter src (c.s - d.next) d.next d.table
  entries : ∀ x ∈ c.table, x.2.val = lzFetch src x.2.pos ∧ x.2.pos < c.s
  recent : 3 ≤ c.lits → ∃ t, d.table = (lzHash (lzFetch src (c.s - 3)), c.s - 3) :: t

theorem lzInStep_start (src : Bytes) : LzInStep src lzStart LzDict.empty :=
  ⟨Nat.zero_le _, rfl, rfl, rfl, nofun, nofun⟩

section
variable {src : Bytes} {c : LzComp} {d : LzDict}

theorem LzInStep.ready (h : LzInStep src c d) : LzInStep src (lzReady c) d := by
  rw [lzReady]
  split
  case isTrue => exact ⟨h.inside, h.out, h.next, h.table, h.entries, h.recent⟩
  case isFalse => exact h

theorem LzInStep.length_out (h : LzInStep src c d) : d.out.length = c.s := by
  rw [h.out, List.length_take, Nat.min_eq_left h.inside]

/-- The compressor's table with the position of the token that it writes. -/
theorem LzInStep.table_enter (h : LzInStep src c d) (e : LzEntry) (he : e.pos = c.s) :
    lzPositions ((lzHash (lzFetch src c.s), e) :: c.table) = lzEnter src (c.s + 1 - d.next) d.next d.table := by
  have hnext := h.next
  have htable := h.table
  rw [lzPositions] at htable
  rw [lzPositions, List.map_cons, htable, he, Nat.succ_sub (by omega : d.next ≤ c.s), lzEnter_succ,
    Nat.add_sub_cancel' (by omega)]

/-- A literal keeps them in step (R140, R146). -/
theorem LzInStep.lit (h : LzInStep src c d) (hs : c.s < src.length) :
    LzInStep src
      (lzLiteral src
        { c with
          lits := c.lits + 1
          table := (lzHash (lzFetch src c.s), ⟨c.s, lzFetch src c.s, true⟩) :: c.table })
      (d.lit (byteAt src c.s)) := by
  have hnext := h.next
  have hlen := h.length_out
  have hout : d.out ++ [byteAt src c.s] = src.take (c.s + 1) := by
    rw [h.out, byteAt, List.getD_eq_getElem _ _ hs, List.take_append_getElem]
  have hlag : (src.take (c.s + 1)).length - 2 - d.next = c.s - 1 - d.next := by
    rw [List.length_take]
    omega
  have hlit : d.lit (byteAt src c.s) =
      ⟨src.take (c.s + 1), lzEnter src (c.s - 1 - d.next) d.next d.table, d.next + (c.s - 1 - d.next)⟩ := by
    simp only [LzDict.lit, hout, hlag]
    rw [lzEnter_take (by omega) hs]
  rw [hlit]
  constructor
  · exact hs
  · rfl
  · simp only [lzLiteral]
    omega
  · refine (h.table_enter _ rfl).trans ?_
    simp only [lzLiteral]
    rw [← lzEnter_add]
    congr 1
    omega
  · intro x hx
    rcases List.mem_cons.mp hx with rfl | hx
    · exact ⟨rfl, Nat.lt_succ_self _⟩
    · obtain ⟨hval, hpos⟩ := h.entries x hx
      exact ⟨hval, Nat.lt_succ_of_lt hpos⟩
  · intro hlits
    simp only [lzLiteral] at hlits ⊢
    have hone : c.s - 1 - d.next = 1 := by omega
    have hback : d.next = c.s + 1 - 3 := by omega
    exact ⟨d.table, by rw [hone, ← hback]; rfl⟩

/-- A match keeps them in step, if the position that the decoder finds holds the same bytes (R140, R146). -/
theorem LzInStep.copy (h : LzInStep src c d) {ml : Nat} (hmin : 3 ≤ ml) (hs : c.s + ml ≤ src.length)
    (hpos : lzPosition d.table (lzHash (lzFetch src c.s)) < c.s)
    (hagree : LzAgree src (lzPosition d.table (lzHash (lzFetch src c.s))) c.s ml) (cw : Word) (group : Bytes)
    (seen : Bool) :
    LzInStep src
      { c with
        cw := cw
        group := group
        s := c.s + ml
        lits := 0
        table := (lzHash (lzFetch src c.s), ⟨c.s, lzFetch src c.s, seen⟩) :: c.table }
      (d.copy (lzHash (lzFetch src c.s)) ml) := by
  have hnext := h.next
  have hcopy : d.copy (lzHash (lzFetch src c.s)) ml =
      ⟨src.take (c.s + ml), lzEnter src (c.s + 1 - d.next) d.next d.table, c.s + ml⟩ := by
    simp only [LzDict.copy, h.length_out]
    rw [h.out, lzCopy_take hagree hpos hs, lzEnter_take (by omega) hs]
  rw [hcopy]
  constructor
  · exact hs
  · rfl
  · rfl
  · refine (h.table_enter _ rfl).trans ?_
    rw [Nat.sub_self]
    rfl
  · intro x hx
    rcases List.mem_cons.mp hx with rfl | hx
    · exact ⟨rfl, by dsimp only; omega⟩
    · obtain ⟨hval, hpos⟩ := h.entries x hx
      exact ⟨hval, Nat.lt_add_right ml hpos⟩
  · exact nofun

/-- The table names the position `o` with the same three bytes as the position, and it is far enough back or in a run
(R140). -/
def LzHit (src : Bytes) (c : LzComp) (o : Nat) : Prop :=
  lzFetch src o = lzFetch src c.s ∧ lzPosition (lzPositions c.table) (lzHash (lzFetch src c.s)) = o ∧
    (o + 2 < c.s ∨ c.s = o + 1 ∧ 3 ≤ c.lits ∧ 3 < c.s ∧ lzRun src c.s = true)

theorem lzRun_bytes {s : Nat} (h : lzRun src s = true) :
    byteAt src (s - 3) = byteAt src s ∧ byteAt src (s - 2) = byteAt src s ∧ byteAt src (s - 1) = byteAt src s ∧
      byteAt src (s + 1) = byteAt src s ∧ byteAt src (s + 2) = byteAt src s := by
  simpa only [lzRun, Bool.and_eq_true, beq_iff_eq, and_assoc] using h

/-- The decoder has entered a position that is far enough back, and no later one with its hash (R146). -/
theorem LzInStep.position_far (h : LzInStep src c d) {o : Nat}
    (htable : lzPosition (lzPositions c.table) (lzHash (lzFetch src c.s)) = o) (hfar : o + 2 < c.s) :
    lzPosition d.table (lzHash (lzFetch src c.s)) = o := by
  have hnext := h.next
  rw [h.table] at htable
  rcases lzPosition_lzEnter src (c.s - d.next) d.next d.table (lzHash (lzFetch src c.s)) with heq | hge
  · rw [← heq, htable]
  · omega

/-- In a run the decoder finds the position three back, which holds the run's byte too (R140, R146). -/
theorem LzInStep.position_run (h : LzInStep src c d) (hs : c.s + 3 ≤ src.length) (hlits : 3 ≤ c.lits) (hpast : 3 < c.s)
    (hrun : lzRun src c.s = true) : lzPosition d.table (lzHash (lzFetch src c.s)) = c.s - 3 := by
  obtain ⟨hb3, hb2, hb1, hn1, hn2⟩ := lzRun_bytes hrun
  have hfetch : lzFetch src (c.s - 3) = lzFetch src c.s := by
    refine lzFetch_congr (by omega) hs fun k hk => ?_
    have hcases : k = 0 ∨ k = 1 ∨ k = 2 := by omega
    rcases hcases with rfl | rfl | rfl
    · exact hb3
    · rw [show c.s - 3 + 1 = c.s - 2 by omega, hb2, hn1]
    · rw [show c.s - 3 + 2 = c.s - 1 by omega, hb1, hn2]
  obtain ⟨t, ht⟩ := h.recent hlits
  rw [ht, lzPosition, hfetch, List.lookup_cons_self]
  rfl

/-- The bytes of a run agree with those three back as far as they agree with those one back (R140). -/
theorem lzAgree_of_run {s k : Nat} (hpast : 3 < s) (hrun : lzRun src s = true) (h : LzAgree src (s - 1) s k) :
    LzAgree src (s - 3) s k := by
  obtain ⟨hb3, hb2, hb1, -, -⟩ := lzRun_bytes hrun
  have hsucc : s - 1 + 1 = s := by omega
  rw [← hsucc] at h
  have hsame (j : Nat) (hj : j ≤ k) : byteAt src (s - 1 + j) = byteAt src s := (h.constant hj).trans hb1
  rw [hsucc] at h
  intro j hj
  rw [← h j hj, hsame j (Nat.le_of_lt hj)]
  rcases j with _ | _ | j
  · exact hb3
  · rw [show s - 3 + (0 + 1) = s - 2 by omega, hb2]
  · rw [show s - 3 + (j + 1 + 1) = s - 1 + j by omega, hsame j (by omega)]

/-- The position that the decoder finds is an earlier one and holds the bytes of the match (R148). -/
theorem LzInStep.position_agrees (h : LzInStep src c d) {o ml : Nat} (hs : c.s + 3 ≤ src.length) (hhit : LzHit src c o)
    (hagree : LzAgree src o c.s ml) :
    lzPosition d.table (lzHash (lzFetch src c.s)) < c.s ∧
      LzAgree src (lzPosition d.table (lzHash (lzFetch src c.s))) c.s ml := by
  obtain ⟨-, htable, hfar | ⟨hnear, hlits, hpast, hrun⟩⟩ := hhit
  · rw [h.position_far htable hfar]
    exact ⟨by omega, hagree⟩
  · rw [h.position_run hs hlits hpast hrun]
    have ho : o = c.s - 1 := by omega
    exact ⟨by omega, lzAgree_of_run hpast hrun (ho ▸ hagree)⟩

end

/-! ### One token -/

/-- What a token of the main loop does: a match at a hit, otherwise a literal (R140). -/
theorem lzToken_cases {src : Bytes} {c : LzComp} {d : LzDict} (h : LzInStep src c d) :
    (∃ o e, LzHit src c o ∧ lzToken src c =
      { c with
        cw := (c.cw >>> 1) ||| 0x80000000#32
        group := c.group ++ lzMatchToken (lzHash (lzFetch src c.s)) (lzMatchLen src o c.s)
        s := c.s + lzMatchLen src o c.s
        lits := 0
        table := (lzHash (lzFetch src c.s), ⟨c.s, lzFetch src c.s, e⟩) :: c.table }) ∨
      lzToken src c =
        lzLiteral src
          { c with
            lits := c.lits + 1
            table := (lzHash (lzFetch src c.s), ⟨c.s, lzFetch src c.s, true⟩) :: c.table } := by
  rw [lzToken]
  split
  case isTrue hcond =>
    obtain ⟨hval, hseen, hwhere⟩ := hcond
    refine .inl ⟨_, _, ⟨?_, lzPosition_lzPositions _ _, ?_⟩, rfl⟩
    · rw [← (h.entries _ (lzEntry_mem hseen)).1, hval]
    · simpa only [Bool.or_eq_true, Bool.and_eq_true, decide_eq_true_eq, and_assoc] using hwhere
  case isFalse => exact .inr rfl

/-- A token of the main loop is written, the decoder reads it, and they stay in step (R148). -/
theorem LzInStep.token {src : Bytes} {c : LzComp} {d : LzDict} (h : LzInStep src c d) (hs : c.s + 11 ≤ src.length) :
    ∃ t e, LzReads src.length d [t] e ∧ LzInStep src (lzToken src c) e ∧ LzPushes t c (lzToken src c) ∧
      c.s < (lzToken src c).s := by
  have hlen := h.length_out
  rcases lzToken_cases h with ⟨o, seen, hhit, heq⟩ | heq
  · have ⟨hfetch, _, hwhere⟩ := hhit
    have ho : o < c.s := by omega
    have hthree : LzAgree src o c.s 3 := byteAt_eq_of_lzFetch_eq (by omega) (by omega) hfetch
    obtain ⟨hagree, hmin, hmax, hend⟩ := lzMatchLen_agrees hs hthree
    obtain ⟨hpos, hcopied⟩ := h.position_agrees (by omega) hhit hagree
    rw [heq]
    exact ⟨.copy (lzHash (lzFetch src c.s)) (lzMatchLen src o c.s), _,
      .copy (lzHash_lt _) hmin hmax (hlen ▸ hpos) (hlen ▸ hend) (.nil _), h.copy hmin hend hpos hcopied _ _ seen,
      ⟨rfl, rfl, rfl⟩, by dsimp only; omega⟩
  · rw [heq]
    exact ⟨.lit (byteAt src c.s), _, .lit (hlen ▸ hs) (.nil _), h.lit (by omega), ⟨rfl, rfl, rfl⟩, Nat.lt_succ_self _⟩

/-! ### The main loop -/

/-- The compressor has written the tokens, and the decoder reads them and is in step with it. -/
structure LzEncodes (src : Bytes) (c : LzComp) (ts : List LzTok) (d : LzDict) : Prop where
  written : LzWritten c ts
  reads : LzReads src.length LzDict.empty ts d
  inStep : LzInStep src c d

theorem lzEncodes_start (src : Bytes) : LzEncodes src lzStart [] LzDict.empty :=
  ⟨lzWritten_start, .nil _, lzInStep_start src⟩

/-- A round of the main loop that does not bail out (R140, R141). -/
theorem lzMain_succ {src : Bytes} {hl fuel : Nat} {c c' : LzComp} (h : lzMain src hl (fuel + 1) c = some c') :
    src.length < c.s + 11 ∧ c' = c ∨
      c.s + 11 ≤ src.length ∧ lzMain src hl fuel (lzToken src (lzReady c)) = some c' := by
  rw [lzMain] at h
  rw [lzReady]
  split at h
  case isTrue hs =>
    refine .inr ⟨hs, ?_⟩
    split at h
    case isTrue hfull =>
      rw [if_pos hfull]
      split at h
      · cases h
      · exact h
    case isFalse hfull =>
      rw [if_neg hfull]
      exact h
  case isFalse hs =>
    cases h
    exact .inl ⟨Nat.not_le.mp hs, rfl⟩

/-- The main loop keeps compressor and decoder in step until at most 10 bytes are left (R140, R148). -/
theorem LzEncodes.main {src : Bytes} {hl fuel : Nat} {c c' : LzComp} {ts : List LzTok} {d : LzDict}
    (h : LzEncodes src c ts d) (hmain : lzMain src hl fuel c = some c') (hfuel : src.length ≤ c.s + fuel) :
    ∃ ts' d', LzEncodes src c' ts' d' ∧ src.length < c'.s + 11 := by
  induction fuel generalizing c ts d with
  | zero =>
    cases hmain
    exact ⟨ts, d, h, by omega⟩
  | succ fuel ih =>
    rcases lzMain_succ hmain with ⟨hend, rfl⟩ | ⟨hs, hrest⟩
    · exact ⟨ts, d, h, hend⟩
    · obtain ⟨hready, -, -⟩ := lzReady_keeps c
      obtain ⟨t, e, hread, hstep, hpush, hmore⟩ := h.inStep.ready.token (by rw [hready]; exact hs)
      rw [hready] at hmore
      exact ih ⟨h.written.push hpush, h.reads.append hread, hstep⟩ hrest (by omega)

end Sys2Proof.Machine
end

section
/-! The block of the compressor: what its header says (O36), how long it is (O37), and that decoding it gives the input
back (O38). -/

namespace Sys2Proof.Machine

/-! ### The header (R131 to R133) -/

/-- The flags byte that the compressor writes (R131). -/
def lzFlags (compressed long : Bool) : Byte :=
  BitVec.ofNat 8 ((if compressed then 1 else 0) + 4 + 0x40 + if long then 2 else 0)

theorem lzFlags_bits (compressed long : Bool) :
    (lzFlags compressed long).getLsbD 0 = compressed ∧ (lzFlags compressed long).getLsbD 1 = long ∧
      (lzFlags compressed long).extractLsb' 2 2 = 1#2 := by
  cases compressed <;> cases long <;> decide

/-- A block for `n` bytes with a body (R130, R138). -/
def lzBlock (n : Nat) (compressed : Bool) (body : Bytes) : Bytes :=
  lzHeader compressed (lzHeaderLen n) (lzHeaderLen n + body.length) n ++ body

theorem lzBlock_short {n : Nat} (h : n < 216) (compressed : Bool) (body : Bytes) :
    lzBlock n compressed body =
      lzFlags compressed false :: BitVec.ofNat 8 (3 + body.length) :: BitVec.ofNat 8 n :: body := by
  rw [lzBlock, lzHeaderLen, if_pos h]
  rfl

theorem lzBlock_long {n : Nat} (h : ¬n < 216) (compressed : Bool) (body : Bytes) :
    lzBlock n compressed body =
      lzFlags compressed true :: (leBytes 4 (9 + body.length) ++ (leBytes 4 n ++ body)) := by
  rw [lzBlock, lzHeaderLen, if_neg h, ← List.append_assoc]
  rfl

theorem length_lzBlock (n : Nat) (compressed : Bool) (body : Bytes) :
    (lzBlock n compressed body).length = lzHeaderLen n + body.length := by
  by_cases h : n < 216
  · rw [lzBlock_short h, lzHeaderLen, if_pos h]
    simp only [List.length_cons]
    omega
  · rw [lzBlock_long h, lzHeaderLen, if_neg h]
    simp only [List.length_cons, List.length_append, length_leBytes]
    omega

/-- After the header comes the body. -/
theorem drop_lzBlock (n : Nat) (compressed : Bool) (body : Bytes) :
    (lzBlock n compressed body).drop (lzHeaderLen n) = body := by
  have hlen := length_lzBlock n compressed body
  rw [lzBlock, List.length_append] at hlen
  rw [lzBlock, List.drop_left' (by omega)]

theorem byteAt_lzBlock (n : Nat) (compressed : Bool) (body : Bytes) :
    byteAt (lzBlock n compressed body) 0 = lzFlags compressed (decide (216 ≤ n)) := by
  by_cases h : n < 216
  · rw [lzBlock_short h, decide_eq_false (by omega)]
    rfl
  · rw [lzBlock_long h, decide_eq_true (by omega)]
    rfl

/-- A header tells its lengths, if they fit its fields (R132, R133, R145). -/
theorem lzParse_lzBlock {n : Nat} {body : Bytes} (hn : n ≤ 2 ^ 24) (hbody : body.length ≤ n + 4 * ((n + 30) / 31))
    (compressed : Bool) :
    lzParse (lzBlock n compressed body) =
      some { hl := lzHeaderLen n, clen := (lzBlock n compressed body).length, dlen := n } := by
  obtain ⟨-, hflag, -⟩ := lzFlags_bits compressed (decide (216 ≤ n))
  rw [← byteAt_lzBlock n compressed body] at hflag
  have hlen := length_lzBlock n compressed body
  by_cases h : n < 216
  · rw [decide_eq_false (by omega)] at hflag
    rw [lzHeaderLen, if_pos h] at hlen ⊢
    rw [lzParse_short_form hflag (by omega), hlen, lzBlock_short h]
    have hclen : (BitVec.ofNat 8 (3 + body.length)).toNat = 3 + body.length := by
      rw [BitVec.toNat_ofNat]
      omega
    have hdlen : (BitVec.ofNat 8 n).toNat = n := by
      rw [BitVec.toNat_ofNat]
      omega
    simp only [byteAt, List.getD_cons_succ, List.getD_cons_zero, hclen, hdlen]
  · rw [decide_eq_true (by omega)] at hflag
    rw [lzHeaderLen, if_neg h] at hlen ⊢
    rw [lzParse_long_form hflag (by omega), hlen]
    have hrest : (lzBlock n compressed body).drop 1 = leBytes 4 (9 + body.length) ++ (leBytes 4 n ++ body) := by
      rw [lzBlock_long h]
      rfl
    have hsecond := drop_of_drop_eq hrest
    have hclen := slice_of_drop_eq hrest
    rw [length_leBytes] at hclen hsecond
    have hdlen := slice_of_drop_eq hsecond
    rw [length_leBytes] at hdlen
    rw [hclen, hdlen, uLE_leBytes, uLE_leBytes, Nat.mod_eq_of_lt (by omega), Nat.mod_eq_of_lt (by omega)]

/-! ### The block of the compressor -/

theorem lzStored_eq_lzBlock (src : Bytes) : lzStored src = lzBlock src.length false src := by
  rw [lzStored, lzBlock, Nat.add_comm]

/-- The input is the output of the tokens, read by the decoder, and at most 10 literals (R139). -/
structure LzTokens (src : Bytes) (ts : List LzTok) (us : Bytes) : Prop where
  reads : ∃ d, LzReads src.length LzDict.empty ts d ∧ d.out ++ us = src
  tail : us.length ≤ 10

theorem LzTokens.ne_nil {src us : Bytes} {ts : List LzTok} (h : LzTokens src ts us) (hsrc : src ≠ []) :
    ts ++ lzLits us ≠ [] := by
  obtain ⟨⟨d, hreads, hout⟩, -⟩ := h
  intro hnil
  obtain ⟨rfl, hlits⟩ := List.append_eq_nil_iff.mp hnil
  obtain rfl := List.map_eq_nil_iff.mp hlits
  cases hreads
  exact hsrc hout.symm

/-- The compressor stores its input, or writes tokens for it (R140, R141, R143). -/
theorem lzCompress_cases (src : Bytes) :
    lzCompress src = lzBlock src.length false src ∨
      ∃ ts us, LzTokens src ts us ∧ lzCompress src = lzBlock src.length true (lzFrame 0 (ts ++ lzLits us)) := by
  by_cases hempty : src.length = 0
  · obtain rfl := List.length_eq_zero_iff.mp hempty
    exact .inl rfl
  · rw [lzCompress, if_neg hempty]
    cases hmain : lzMain src (lzHeaderLen src.length) src.length lzStart with
    | none => exact .inl (lzStored_eq_lzBlock src)
    | some c =>
      obtain ⟨ts, d, henc, hend⟩ := (lzEncodes_start src).main hmain (Nat.le_add_left _ _)
      have hinside := henc.inStep.inside
      have hout : d.out ++ src.drop c.s = src := by rw [henc.inStep.out, List.take_append_drop]
      have htokens : LzTokens src ts (src.drop c.s) :=
        ⟨⟨d, henc.reads, hout⟩, by rw [List.length_drop]; omega⟩
      have hne := htokens.ne_nil fun hnil => hempty (List.length_eq_zero_iff.mpr hnil)
      exact .inr ⟨ts, src.drop c.s, htokens, (henc.written.tail (by omega)).finish hne _ _⟩

theorem flatMap_bytes_lzLits (us : Bytes) : (lzLits us).flatMap LzTok.bytes = us := by
  induction us with
  | nil => rfl
  | cons u us ih => rw [lzLits_cons, List.flatMap_cons, ih]; rfl

/-- Tokens take no more bytes than they stand for, and there are no more tokens than bytes (R138). -/
theorem LzTokens.length_le {src us : Bytes} {ts : List LzTok} (h : LzTokens src ts us) :
    (lzFrame 0 (ts ++ lzLits us)).length ≤ src.length + 4 * ((src.length + 30) / 31) := by
  obtain ⟨⟨d, hreads, hout⟩, -⟩ := h
  obtain ⟨hcount, hbytes⟩ := hreads.length_le
  have hsum := congrArg List.length hout
  rw [List.length_append] at hsum
  rw [length_lzFrame, List.flatMap_append, List.length_append, List.length_append,
    flatMap_bytes_lzLits, lzLits, List.length_map]
  omega

/-- The body of a compressed block is at most the input and 4 bytes for each 31 bytes begun. -/
theorem lzCompress_block (src : Bytes) :
    ∃ compressed body, lzCompress src = lzBlock src.length compressed body ∧
      body.length ≤ src.length + 4 * ((src.length + 30) / 31) := by
  rcases lzCompress_cases src with heq | ⟨ts, us, htokens, heq⟩
  · exact ⟨false, src, heq, Nat.le_add_right _ _⟩
  · exact ⟨true, _, heq, htokens.length_le⟩

/-- Settles O36: the lengths fit the fields of the header. -/
theorem compressedHeaderTellsLengths : Obligations.CompressedHeaderTellsLengths := by
  intro src hn
  obtain ⟨compressed, body, heq, hbody⟩ := lzCompress_block src
  rw [heq]
  exact lzParse_lzBlock hn hbody compressed

/-- Settles O37: the header and the bound of the body. -/
theorem compressedLengthBound : Obligations.CompressedLengthBound := by
  intro src
  obtain ⟨compressed, body, heq, hbody⟩ := lzCompress_block src
  rw [heq, length_lzBlock, Nat.add_assoc]
  exact Nat.add_le_add_left hbody _

/-! ### The round trip (R148) -/

/-- The decoder gives a stored input back (R146). -/
theorem lzDecode_stored (src : Bytes) :
    lzDecode (lzBlock src.length false src)
      { hl := lzHeaderLen src.length, clen := (lzBlock src.length false src).length, dlen := src.length } =
      .ok src := by
  obtain ⟨hform, -, hlevel⟩ := lzFlags_bits false (decide (216 ≤ src.length))
  rw [← byteAt_lzBlock src.length false src] at hform hlevel
  have hlen := length_lzBlock src.length false src
  have hslice := slice_of_drop_eq ((drop_lzBlock src.length false src).trans (List.append_nil src).symm)
  rw [lzDecode, if_neg (Classical.not_not.mpr hlevel), if_neg (by dsimp only; omega), hform]
  simp only [Bool.not_false, reduceIte, hlen, ne_eq, not_true_eq_false, hslice]

/-- The decoder gives the tokens' output and the literals after them back (R146). -/
theorem lzDecode_tokens {src us : Bytes} {ts : List LzTok} (h : LzTokens src ts us) :
    lzDecode (lzBlock src.length true (lzFrame 0 (ts ++ lzLits us)))
      { hl := lzHeaderLen src.length
        clen := (lzBlock src.length true (lzFrame 0 (ts ++ lzLits us))).length
        dlen := src.length } = .ok src := by
  obtain ⟨⟨d, hreads, hout⟩, htail⟩ := h
  obtain ⟨hform, -, hlevel⟩ := lzFlags_bits true (decide (216 ≤ src.length))
  rw [← byteAt_lzBlock src.length true (lzFrame 0 (ts ++ lzLits us))] at hform hlevel
  have hlen := length_lzBlock src.length true (lzFrame 0 (ts ++ lzLits us))
  have hsum := congrArg List.length hout
  rw [List.length_append] at hsum
  have hloop := lzDecodeLoop_frame (fuel := src.length + 1) hreads hsum htail (Nat.zero_le 31)
    (drop_lzBlock src.length true (lzFrame 0 (ts ++ lzLits us))) (by omega)
  rw [lzCw_zero, hout] at hloop
  simp only [LzDict.at, LzDict.empty] at hloop
  rw [lzDecode, if_neg (Classical.not_not.mpr hlevel), if_neg (by dsimp only; omega), hform]
  simp only [Bool.not_true, Bool.false_eq_true, reduceIte, hloop]

/-- Settles O38: the decoder reads the tokens that the compressor wrote, or the stored input. -/
theorem decompressUndoesCompress : Obligations.DecompressUndoesCompress := by
  intro src hn
  refine ⟨_, compressedHeaderTellsLengths src hn, ?_⟩
  rcases lzCompress_cases src with heq | ⟨ts, us, htokens, heq⟩
  · rw [heq]
    exact lzDecode_stored src
  · rw [heq]
    exact lzDecode_tokens htokens

end Sys2Proof.Machine
end

section
/-! Unit RQ (O39 to O44): each command as one equation in the terms of its rule, its operand checks first, and what the
update of one queue leaves of the others. -/

namespace Sys2Proof.Machine

open Sys2Proof.Claims

/-! ### One queue, one slot -/

@[simp] theorem queueOf_completeWith (e : ErrCode) (r : Vector Word 8) (s : State) (q : Nat) :
    queueOf (completeWith e r s) q = queueOf s q := rfl

/-- A legal queue holds what is put there (R47). -/
theorem queueOf_setQueue_self {s : State} (hs : QueueShape s) {q : Nat} (hq : q < s.cfg.rqCount) (v : RQueue) :
    queueOf (setQueue q v s) q = v := by
  obtain ⟨hcount, -⟩ := hs
  rw [queueOf_setQueue, if_pos ⟨rfl, hcount ▸ hq⟩]

theorem queueOf_setQueue_of_ne {p q : Nat} (h : p ≠ q) (v : RQueue) (s : State) :
    queueOf (setQueue q v s) p = queueOf s p := by
  rw [queueOf_setQueue, if_neg fun k => h k.1]

theorem slotOf_setSlot_self {v : RQueue} {k : Nat} (h : k < v.slots.length) (x : Slot) :
    slotOf (setSlot k x v) k = x := by
  rw [slotOf_setSlot, if_pos ⟨rfl, h⟩]

theorem slotOf_setSlot_of_ne {j k : Nat} (h : j ≠ k) (x : Slot) (v : RQueue) :
    slotOf (setSlot k x v) j = slotOf v j := by
  rw [slotOf_setSlot, if_neg fun e => h e.1]

/-- Every slot of an empty queue, and any past its capacity, reads as not present with value 0 (R162). -/
theorem slotOf_empty (n : Nat) (start : BitVec 16) (gen : BitVec 32) (k : Nat) :
    slotOf (RQueue.empty n start gen) k = ⟨false, 0⟩ := by
  rw [slotOf, RQueue.empty, List.getD_eq_getElem?_getD, List.getElem?_replicate]
  split_ifs <;> rfl

/-- A release changes the slots as putting a clear one at the window's start does (R164). -/
theorem slotOf_dequeued (n : Nat) (v : RQueue) (j : Nat) :
    slotOf (dequeued n v) j = slotOf (setSlot (slotIndex n v.start) ⟨false, 0⟩ v) j := rfl

/-! ### The operands and the window -/

/-- A legal capacity is at least 1 and at most half the id space (R10). -/
theorem Config.legal.rqCapacity_bounds {c : Config} (h : c.legal) : 0 < c.rqCapacity ∧ c.rqCapacity ≤ 0x8000 := by
  obtain ⟨-, -, hcap, -⟩ := h
  obtain ⟨k, hk, hpow⟩ := List.mem_map.mp hcap
  rw [← hpow]
  exact ⟨Nat.two_pow_pos k, Nat.pow_le_pow_right (by decide) (Nat.le_of_lt_succ (List.mem_range.mp hk))⟩

theorem opndId_toNat {s : State} {i : Fin 8} (h : opnd s i ≤ 0xFFFF) : (opndId s i).toNat = opnd s i := by
  rw [opndId, BitVec.toNat_ofNat, Nat.mod_eq_of_lt (Nat.lt_succ_of_le h)]

/-- The slot of a legal id operand (R161). -/
theorem slotIndex_opndId {s : State} {i : Fin 8} (h : opnd s i ≤ 0xFFFF) (n : Nat) :
    slotIndex n (opndId s i) = opnd s i % n := by
  rw [slotIndex, opndId_toNat h]

/-- The class of a legal id operand, in the order of R163's checks. The window is at most half the id space, so an id
that is half the space away or more is not inside it (R160). -/
theorem classOf_opndId {s : State} {i : Fin 8} {n : Nat} (h : opnd s i ≤ 0xFFFF) (hn : n ≤ 0x8000)
    (start : BitVec 16) :
    classOf n start (opndId s i) =
      (let d := (opnd s i + 65536 - start.toNat) % 65536
       if 0x8000 ≤ d then .below else if n ≤ d then .above else .inside) := by
  rw [classOf_eq, opndId_toNat h]
  dsimp only
  generalize (opnd s i + 65536 - start.toNat) % 65536 = d
  by_cases hbelow : 0x8000 ≤ d
  · rw [if_pos hbelow, if_pos hbelow, if_neg (by omega)]
  · rw [if_neg hbelow, if_neg hbelow]
    exact (ite_not (d < n) _ _).symm.trans (if_congr Nat.not_lt rfl rfl)

/-- The checks of a queue and an id operand, said by the condition of the error (R102, R105, R334). -/
theorem checkQueueAndId_eq (q : Nat) (s t : State) :
    (if !queueLegal s q then raise .arg s else if !idLegal (opnd s 0) then raise .arg s else t) =
      if s.cfg.rqCount ≤ q ∨ 0xFFFF < opnd s 0 then raise .arg s else t := by
  simp only [queueLegal, idLegal, Bool.not_eq_true', decide_eq_false_iff_not, Nat.not_lt, Nat.not_le, ← ite_or]

/-- The check of a queue operand (R102). -/
theorem checkQueue_eq (q : Nat) (s t : State) :
    (if !queueLegal s q then raise .arg s else t) = if s.cfg.rqCount ≤ q then raise .arg s else t := by
  simp only [queueLegal, Bool.not_eq_true', decide_eq_false_iff_not, Nat.not_lt]

/-! ### The commands that report (R165 to R167) -/

/-- A command that checks its operands and reports changes nothing but its completion. -/
theorem onlyReports {i : Instr} {s : State} {bad : Prop} [Decidable bad] {rs : List Word}
    (h : exec i s = .next (if bad then raise .arg s else complete rs s)) :
    ∃ t, exec i s = .next t ∧ OnlyCompleted s t ∧
      if bad then CompletedWith .arg [] t else CompletedWith .ok rs t := by
  refine ⟨_, h, ?_⟩
  split_ifs
  · exact ⟨onlyCompleted_completeWith .arg _ s, completedWith_raise .arg s⟩
  · exact ⟨onlyCompleted_completeWith .ok _ s, completedWith_complete rs s⟩

/-- The results for an id operand: the slot's `present` bit counts only where the id is inside the window (R165). -/
theorem isSetResults_opndId {s : State} {i : Fin 8} {n : Nat} (h : opnd s i ≤ 0xFFFF) (hn : n ≤ 0x8000)
    (start : BitVec 16) (present : Bool) :
    isSetResults (classOf n start (opndId s i)) present =
      (let d := (opnd s i + 65536 - start.toNat) % 65536
       if 0x8000 ≤ d then [2, 1] else if d < n ∧ present = true then [1, 1] else [0, 0]) := by
  rw [classOf_opndId h hn]
  dsimp only
  generalize (opnd s i + 65536 - start.toNat) % 65536 = d
  by_cases hbelow : 0x8000 ≤ d
  · rw [if_pos hbelow, if_pos hbelow, isSetResults]
  rw [if_neg hbelow, if_neg hbelow]
  by_cases habove : n ≤ d
  · rw [if_pos habove, if_neg fun hset => Nat.not_lt.mpr habove hset.1, isSetResults]
  · have hinside : d < n := Nat.not_le.mp habove
    cases present <;> simp [habove, hinside, isSetResults, flagBit]

/-- RQ_IS_SET as the three reports of R165. -/
theorem exec_rqIsSet {s : State} (hcap : s.cfg.rqCapacity ≤ 0x8000) (q : Nat) :
    exec (.rqIsSet q) s = .next
      (let n := s.cfg.rqCapacity
       let d := (opnd s 0 + 65536 - (queueOf s q).start.toNat) % 65536
       if s.cfg.rqCount ≤ q ∨ 0xFFFF < opnd s 0 then raise .arg s
       else
         complete
           (if 0x8000 ≤ d then [2, 1]
            else if d < n ∧ (slotOf (queueOf s q) (opnd s 0 % n)).present = true then [1, 1]
            else [0, 0]) s) := by
  refine congrArg Host.Outcome.next ((checkQueueAndId_eq q s _).trans (ite_congr rfl (fun _ => rfl) fun hok => ?_))
  have hid : opnd s 0 ≤ 0xFFFF := by omega
  dsimp only
  rw [isSetResults_opndId hid hcap, slotIndex_opndId hid]

theorem exec_rqGen (q : Nat) (s : State) :
    exec (.rqGen q) s = .next
      (if s.cfg.rqCount ≤ q ∨ 0xFFFF < opnd s 0 then raise .arg s
       else complete [resolveGen (queueOf s q).start (queueOf s q).gen (opndId s 0)] s) :=
  congrArg Host.Outcome.next (checkQueueAndId_eq q s _)

theorem exec_rqStatus (q : Nat) (s : State) :
    exec (.rqStatus q) s = .next
      (if s.cfg.rqCount ≤ q then raise .arg s
       else
         complete
           [BitVec.ofNat 32 (queueOf s q).start.toNat, (queueOf s q).gen,
            BitVec.ofNat 32 ((queueOf s q).slots.filter fun v => v.present).length] s) := by
  simp only [BitVec.ofNat_toNat, ← List.countP_eq_length_filter]
  exact congrArg Host.Outcome.next (checkQueue_eq q s _)

/-- Settles O42: the three reports in turn. -/
theorem rqIsSetReports : Obligations.RqIsSetReports := by
  intro q s hlegal n d
  obtain ⟨-, hcap⟩ := Config.legal.rqCapacity_bounds hlegal
  obtain ⟨t, ht, honly, hdone⟩ := onlyReports (exec_rqIsSet hcap q)
  refine ⟨t, ht, honly, ?_⟩
  simpa only [apply_ite (CompletedWith .ok · t)] using hdone

/-- Settles O43: the report is the model's `Resolve` of the queue's window. -/
theorem rqGenResolves : Obligations.RqGenResolves := fun q s => onlyReports (exec_rqGen q s)

/-- Settles O44: the present slots are among the queue's slots. -/
theorem rqStatusReports : Obligations.RqStatusReports := by
  intro q s hs n
  obtain ⟨t, ht, honly, hdone⟩ := onlyReports (exec_rqStatus q s)
  refine ⟨t, ht, honly, ?_⟩
  by_cases hbad : s.cfg.rqCount ≤ q
  · rwa [if_pos hbad] at hdone ⊢
  rw [if_neg hbad] at hdone ⊢
  exact ⟨hdone, (List.length_filter_le _ _).trans_eq (hs.length_slots (Nat.not_le.mp hbad))⟩

/-! ### The commands that change a queue (R162 to R164) -/

/-- RQ_INIT, RQ_SET and RQ_DEQUEUE, the commands that change a queue (R168). -/
def changesQueues : Instr → Bool
  | .rqInit _ | .rqSet _ | .rqDequeue _ => true
  | _ => false

/-- An outcome of a command that changes a queue comes with the frame of its unit. -/
theorem queueCommand_frame {i : Instr} {s t : State} {post : State → Prop} (hi : changesQueues i = true)
    (hregions : outputRegions i s = []) (h : exec i s = .next t) (hpost : post t) :
    ∃ t, exec i s = .next t ∧ SameHostSide s t ∧ SameCrypto s t ∧ t.txctr = s.txctr ∧ t.kcache = s.kcache ∧
      SameBuf s t ∧ post t := by
  have hne {j : Instr} (hj : changesQueues j = false) : i ≠ j := by
    rintro rfl
    rw [hi] at hj
    cases hj
  obtain ⟨hcrypto, hcache, hctr, -, -⟩ := unitStateChangesOnlyByItsCommands i s t h
  obtain ⟨hbuf, -⟩ := commandsWriteOnlyOutputRegions i s t h
  rw [hregions] at hbuf
  exact ⟨t, h, commandsKeepHostSide i s t h, hcrypto (hne rfl) (hne rfl), hctr (fun _ => hne rfl) fun _ => hne rfl,
    hcache (hne rfl) (hne rfl) (fun _ _ => hne rfl) (fun _ => hne rfl) fun _ => hne rfl, fun a => hbuf a rfl, hpost⟩

theorem exec_rqInit (q : Nat) (s : State) :
    exec (.rqInit q) s = .next
      (if s.cfg.rqCount ≤ q ∨ 0xFFFF < opnd s 0 then raise .arg s
       else complete [] (setQueue q (RQueue.empty s.cfg.rqCapacity (opndId s 0) (s.argL.get 1)) s)) :=
  congrArg Host.Outcome.next (checkQueueAndId_eq q s _)

/-- RQ_SET as the chain of checks of R163. -/
theorem exec_rqSet {s : State} (hcap : s.cfg.rqCapacity ≤ 0x8000) (q : Nat) :
    exec (.rqSet q) s = .next
      (let d := (opnd s 0 + 65536 - (queueOf s q).start.toNat) % 65536
       let k := opnd s 0 % s.cfg.rqCapacity
       if s.cfg.rqCount ≤ q ∨ 0xFFFF < opnd s 0 then raise .arg s
       else if 0x8000 ≤ d then raise .duplicate s
       else if s.cfg.rqCapacity ≤ d then raise .overfull s
       else if (slotOf (queueOf s q) k).present then raise .duplicate s
       else complete [] (setQueue q (setSlot k ⟨true, s.argL.get 1⟩ (queueOf s q)) s)) := by
  refine congrArg Host.Outcome.next ((checkQueueAndId_eq q s _).trans (ite_congr rfl (fun _ => rfl) fun hok => ?_))
  have hid : opnd s 0 ≤ 0xFFFF := by omega
  dsimp only
  rw [classOf_opndId hid hcap, slotIndex_opndId hid]
  dsimp only
  split_ifs <;> rfl

/-- RQ_DEQUEUE by whether the window's start is present (R164). -/
theorem exec_rqDequeue (q : Nat) (s : State) :
    exec (.rqDequeue q) s = .next
      (let slot := slotOf (queueOf s q) ((queueOf s q).start.toNat % s.cfg.rqCapacity)
       let start : Word := BitVec.ofNat 32 (queueOf s q).start.toNat
       if s.cfg.rqCount ≤ q then raise .arg s
       else if slot.present then
         complete [1, slot.value, start, (queueOf s q).gen]
           (setQueue q (dequeued s.cfg.rqCapacity (queueOf s q)) s)
       else complete [0, 0, start, (queueOf s q).gen] s) := by
  simp only [BitVec.ofNat_toNat]
  exact congrArg Host.Outcome.next (checkQueue_eq q s _)

/-- Settles O39: the queue put is the empty one of the operands. -/
theorem rqInitEmptiesQueue : Obligations.RqInitEmptiesQueue := by
  intro q s hs
  refine queueCommand_frame rfl rfl (exec_rqInit q s) ?_
  by_cases hok : q < s.cfg.rqCount ∧ opnd s 0 ≤ 0xFFFF
  · rw [if_pos hok, if_neg (by omega)]
    obtain ⟨hq, hid⟩ := hok
    refine ⟨completedWith_complete _ _, ?_⟩
    simp only [complete_eq, queueOf_completeWith, queueOf_setQueue_self hs hq]
    exact ⟨opndId_toNat hid, rfl, List.length_replicate, fun k _ => slotOf_empty _ _ _ k,
      fun p hp => queueOf_setQueue_of_ne hp _ s⟩
  · rw [if_neg hok, if_pos (by omega)]
    exact ⟨completedWith_raise .arg s, rfl⟩

/-- Settles O40: the chain of checks, and after them the one slot that is put. -/
theorem rqSetBuffersId : Obligations.RqSetBuffersId := by
  intro q s hlegal hs
  obtain ⟨hpos, hcap⟩ := Config.legal.rqCapacity_bounds hlegal
  refine queueCommand_frame rfl rfl (exec_rqSet hcap q) ?_
  dsimp only
  split_ifs with hbad hbelow habove hpresent
  · exact ⟨completedWith_raise .arg s, rfl⟩
  · exact ⟨completedWith_raise .duplicate s, rfl⟩
  · exact ⟨completedWith_raise .overfull s, rfl⟩
  · exact ⟨completedWith_raise .duplicate s, rfl⟩
  · have hq : q < s.cfg.rqCount := by omega
    have hk : opnd s 0 % s.cfg.rqCapacity < (queueOf s q).slots.length :=
      (Nat.mod_lt _ hpos).trans_eq (hs.length_slots hq).symm
    refine ⟨completedWith_complete _ _, ?_⟩
    simp only [complete_eq, queueOf_completeWith, queueOf_setQueue_self hs hq]
    exact ⟨slotOf_setSlot_self hk _, fun j hj => slotOf_setSlot_of_ne hj _ _, rfl, rfl,
      fun p hp => queueOf_setQueue_of_ne hp _ s⟩

/-- Settles O41: the window moves as the counter of R183 does, and its old start's slot is cleared. -/
theorem rqDequeueReleasesStart : Obligations.RqDequeueReleasesStart := by
  intro q s hlegal hs
  obtain ⟨hpos, -⟩ := Config.legal.rqCapacity_bounds hlegal
  refine queueCommand_frame rfl rfl (exec_rqDequeue q s) ?_
  dsimp only
  split_ifs with hbad hpresent
  · exact ⟨completedWith_raise .arg s, rfl⟩
  · have hq : q < s.cfg.rqCount := Nat.not_le.mp hbad
    have hk : (queueOf s q).start.toNat % s.cfg.rqCapacity < (queueOf s q).slots.length :=
      (Nat.mod_lt _ hpos).trans_eq (hs.length_slots hq).symm
    refine ⟨completedWith_complete _ _, ?_⟩
    simp only [complete_eq, queueOf_completeWith, queueOf_setQueue_self hs hq, slotOf_dequeued]
    exact ⟨bumpGen_toNat _ _, slotOf_setSlot_self hk _, fun j hj => slotOf_setSlot_of_ne hj _ _,
      fun p hp => queueOf_setQueue_of_ne hp _ s⟩
  · exact ⟨completedWith_complete _ _, rfl⟩

end Sys2Proof.Machine
end

section
/-! Unit SEQ (O46 to O51): the distance of two pairs of generation and id, the ids' difference, and each command as one
equation whose check is the negation of its statement's condition. -/

namespace Sys2Proof.Machine

open Sys2Proof.Claims

/-! ### The nearest generation (R182) -/

/-- The pair `(h, i)` is within half the id space of `(g, r)`, both as 48-bit numbers: after it or equal by less than
0x8000, or before it by at most 0x8000 (R181, R182). -/
def NearPair (r : BitVec 16) (g : BitVec 32) (i : BitVec 16) (h : BitVec 32) : Prop :=
  let x := (h.toNat * 65536 + i.toNat + 2 ^ 48 - (g.toNat * 65536 + r.toNat)) % 2 ^ 48
  x < 0x8000 ∨ 2 ^ 48 - 0x8000 ≤ x

/-- The difference of two ids, wrapped (R181). -/
theorem toNat_sub_id (a b : BitVec 16) : (b - a).toNat = (b.toNat + 65536 - a.toNat) % 65536 := by
  have ha := a.isLt
  rw [BitVec.toNat_sub]
  congr 1
  omega

/-- The generation of `Resolve` is near: it counts the wrap between the two ids, if there is one (R182). -/
theorem nearPair_resolveGen (r : BitVec 16) (g : BitVec 32) (i : BitVec 16) : NearPair r g i (resolveGen r g i) := by
  have hr := r.isLt
  have hi := i.isLt
  have hg := g.isLt
  have hnext : (g + 1).toNat = (g.toNat + 1) % 2 ^ 32 := BitVec.toNat_add g 1
  have hprev : (g - 1).toNat = (2 ^ 32 - 1 + g.toNat) % 2 ^ 32 := BitVec.toNat_sub g 1
  rw [NearPair, resolveGen, toNat_sub_id]
  split_ifs with hafter hwrapped hwrapped
  · rw [hnext]
    omega
  · omega
  · rw [hprev]
    omega
  · omega

/-- Two generations differ by whole id spaces, so at most one of them is near. -/
theorem NearPair.unique {r : BitVec 16} {g : BitVec 32} {i : BitVec 16} {h k : BitVec 32} (hh : NearPair r g i h)
    (hk : NearPair r g i k) : h = k := by
  have hr := r.isLt
  have hi := i.isLt
  have hg := g.isLt
  have hhlt := h.isLt
  have hklt := k.isLt
  rw [NearPair] at hh hk
  exact BitVec.eq_of_toNat_eq (by omega)

/-- Settles O46: `Resolve`'s generation is near, and the only one. -/
theorem resolvePicksNearestGeneration : Obligations.ResolvePicksNearestGeneration := by
  intro r g i h
  refine ⟨?_, (nearPair_resolveGen r g i).unique⟩
  rintro rfl
  exact nearPair_resolveGen r g i

/-! ### The operand checks -/

theorem checkPtype_eq (p : Nat) (s t : State) :
    (if !ptypeLegal p then raise .arg s else t) = if ¬p ≤ 8 then raise .arg s else t := by
  simp only [ptypeLegal, Bool.not_eq_true', decide_eq_false_iff_not]

/-- The checks of a packet type and an id operand in turn (R185). -/
theorem checkPtypeAndId_eq (p : Nat) (s t : State) :
    (if !ptypeLegal p then raise .arg s else if !idLegal (opnd s 0) then raise .arg s else t) =
      if ¬(p ≤ 8 ∧ opnd s 0 ≤ 0xFFFF) then raise .arg s else t := by
  simp only [ptypeLegal, idLegal, Bool.not_eq_true', decide_eq_false_iff_not, not_and_or, ← ite_or]

/-- The check of two id operands (R186, R187). -/
theorem checkIds_eq (i j : Fin 8) (s t : State) :
    (if !idLegal (opnd s i) || !idLegal (opnd s j) then raise .arg s else t) =
      if 0xFFFF < opnd s i ∨ 0xFFFF < opnd s j then raise .arg s else t := by
  simp only [idLegal, Bool.or_eq_true, Bool.not_eq_true', decide_eq_false_iff_not, Nat.not_le]

/-! ### The commands that change no counter (R184, R186, R187) -/

theorem exec_seqRead (p : Nat) (s : State) :
    exec (.seqRead p) s = .next
      (if ¬p ≤ 8 then raise .arg s
       else complete [BitVec.ofNat 32 (counterOf s p).id.toNat, (counterOf s p).gen] s) := by
  rw [BitVec.ofNat_toNat]
  exact congrArg Host.Outcome.next (checkPtype_eq p s _)

/-- The signed form of an id difference, in -32768..32767 (R181). -/
theorem signExtend_id (d : BitVec 16) :
    d.signExtend 32 = BitVec.ofInt 32 (if d.toNat < 0x8000 then (d.toNat : Int) else (d.toNat : Int) - 65536) := by
  rw [BitVec.signExtend, BitVec.toInt_eq_toNat_cond]
  congr 1
  exact if_congr (by omega) rfl rfl

/-- The relation's number by the difference as a number (R181). -/
theorem resWord_seqRelation (d : BitVec 16) :
    resWord (seqRelation d) = if d.toNat = 0 then 0 else if d.toNat < 0x8000 then 1 else 2 := by
  rw [seqRelation, resWord]
  simp only [apply_ite (BitVec.ofNat 32)]
  exact if_congr BitVec.toNat_eq rfl rfl

/-- SEQ_DIFF's results by the difference of the operands as a number (R186). -/
theorem exec_seqDiff (s : State) :
    exec .seqDiff s = .next
      (let d := (opnd s 1 + 65536 - opnd s 0) % 65536
       if 0xFFFF < opnd s 0 ∨ 0xFFFF < opnd s 1 then raise .arg s
       else
         complete
           [BitVec.ofNat 32 d, BitVec.ofInt 32 (if d < 0x8000 then (d : Int) else (d : Int) - 65536),
            if d = 0 then 0 else if d < 0x8000 then 1 else 2] s) := by
  refine congrArg Host.Outcome.next ((checkIds_eq 0 1 s _).trans (ite_congr rfl (fun _ => rfl) fun hok => ?_))
  have hd : (opndId s 1 - opndId s 0).toNat = (opnd s 1 + 65536 - opnd s 0) % 65536 := by
    rw [toNat_sub_id, opndId_toNat (by omega), opndId_toNat (by omega)]
  dsimp only
  rw [signExtend_id, resWord_seqRelation, ← hd, BitVec.ofNat_toNat]

theorem exec_seqResolve (s : State) :
    exec .seqResolve s = .next
      (if 0xFFFF < opnd s 0 ∨ 0xFFFF < opnd s 2 then raise .arg s
       else complete [resolveGen (opndId s 0) (s.argL.get 1) (opndId s 2)] s) :=
  congrArg Host.Outcome.next (checkIds_eq 0 2 s _)

/-- Settles O48: the report of the counter as it is. -/
theorem seqReadReturnsPair : Obligations.SeqReadReturnsPair := by
  intro p s
  simpa only [ite_not] using onlyReports (exec_seqRead p s)

/-- Settles O50: the report of the operands' difference. -/
theorem seqDiffCompares : Obligations.SeqDiffCompares := fun s => onlyReports (exec_seqDiff s)

/-- Settles O51: the report is the model's `Resolve` of the operands. -/
theorem seqResolveReturnsGeneration : Obligations.SeqResolveReturnsGeneration :=
  fun s => onlyReports (exec_seqResolve s)

/-! ### The commands that change a counter (R183, R185) -/

theorem exec_seqNext (p : Nat) (s : State) :
    exec (.seqNext p) s = .next
      (if ¬p ≤ 8 then raise .arg s
       else
         complete [BitVec.ofNat 32 (counterOf s p).id.toNat, (counterOf s p).gen]
           (setCounter p (nextCounter (counterOf s p)) s)) := by
  rw [BitVec.ofNat_toNat]
  exact congrArg Host.Outcome.next (checkPtype_eq p s _)

theorem exec_seqSet (p : Nat) (s : State) :
    exec (.seqSet p) s = .next
      (if ¬(p ≤ 8 ∧ opnd s 0 ≤ 0xFFFF) then raise .arg s
       else complete [] (setCounter p { id := opndId s 0, gen := s.argL.get 1 } s)) :=
  congrArg Host.Outcome.next (checkPtypeAndId_eq p s _)

/-- A counter of a legal packet type holds what is put there (R45). -/
theorem counterOf_setCounter_self {p : Nat} (hp : p ≤ 8) (v : TxCounter) (s : State) :
    counterOf (setCounter p v s) p = v := by
  rw [counterOf_setCounter, if_pos ⟨rfl, hp⟩]

theorem counterOf_setCounter_of_ne {j p : Nat} (h : j ≠ p) (v : TxCounter) (s : State) :
    counterOf (setCounter p v s) j = counterOf s j := by
  rw [counterOf_setCounter, if_neg fun k => h k.1]

/-- A command that checks its operands and puts a counter: no other unit, no byte and nothing of the host's side
changes, and of the counters the one at most. -/
theorem putsCounter {i : Instr} {s : State} {p : Nat} {ok : Prop} [Decidable ok] {rs : List Word} {v : TxCounter}
    {post : State → Prop} (hp : ok → p ≤ 8)
    (h : exec i s = .next (if ¬ok then raise .arg s else complete rs (setCounter p v s)))
    (hpost : ok → ∀ t, CompletedWith .ok rs t → counterOf t p = v → (∀ j, j ≠ p → counterOf t j = counterOf s j) →
      post t) :
    ∃ t, exec i s = .next t ∧ SameHostSide s t ∧ SameCrypto s t ∧ t.rq = s.rq ∧ t.kcache = s.kcache ∧ SameBuf s t ∧
      if ok then post t else CompletedWith .arg [] t ∧ t.txctr = s.txctr := by
  by_cases hok : ok
  · simp only [if_pos hok]
    rw [if_neg (not_not_intro hok)] at h
    exact ⟨_, h, sameHostSide_completeWith .ok _ (setCounter p v s), ⟨rfl, rfl, rfl⟩, rfl, rfl, fun _ => rfl,
      hpost hok _ (completedWith_complete _ _) (counterOf_setCounter_self (hp hok) v s) fun j hj =>
        counterOf_setCounter_of_ne hj v s⟩
  · simp only [if_neg hok]
    rw [if_pos hok] at h
    exact ⟨_, h, sameHostSide_completeWith .arg _ s, ⟨rfl, rfl, rfl⟩, rfl, rfl, fun _ => rfl,
      completedWith_raise .arg s, rfl⟩

/-- Settles O47: the counter put is the next one, which adds one to the 48-bit number. -/
theorem seqNextTakesPair : Obligations.SeqNextTakesPair := by
  intro p s
  refine putsCounter id (exec_seqNext p s) fun _ t hdone hput hrest => ⟨hdone, ?_, hrest⟩
  rw [hput]
  exact bumpGen_toNat _ _

/-- Settles O49: the counter put is the operands' pair. -/
theorem seqSetLoadsCounter : Obligations.SeqSetLoadsCounter := by
  intro p s
  refine putsCounter And.left (exec_seqSet p s) fun ⟨_, hid⟩ t hdone hput hrest => ?_
  rw [hput]
  exact ⟨hdone, opndId_toNat hid, rfl, hrest⟩

end Sys2Proof.Machine
end

section
/-! Unit HASH's proof of work (O29 to O32). A search that has tried `n` offsets knows its place: the next offset is
`start + n`, held at `2 ^ 64 - 1` when the space is used up, so the loop needs an invariant for its best offset alone. -/

namespace Sys2Proof.Machine

/-! ### The loop, one equation for each branch (R252) -/

section
variable {level : Nat → Nat} {target best : Nat}

theorem powLoop_met (h : target ≤ best) (budget valid last : Nat) (exhausted : Bool) :
    powLoop level target budget valid last best exhausted = ⟨valid, last, best, 1⟩ := by
  rw [powLoop.eq_def]
  exact if_pos h

theorem powLoop_no_budget (h : best < target) (valid last : Nat) (exhausted : Bool) :
    powLoop level target 0 valid last best exhausted = ⟨valid, last, best, 0⟩ := by
  rw [powLoop, if_neg (Nat.not_le.mpr h)]

theorem powLoop_exhausted (h : best < target) (budget valid last : Nat) :
    powLoop level target (budget + 1) valid last best true = ⟨valid, last, best, 2⟩ := by
  rw [powLoop, if_neg (Nat.not_le.mpr h)]
  rfl

theorem powLoop_succ (h : best < target) (budget valid last : Nat) :
    powLoop level target (budget + 1) valid last best false =
      powLoop level target budget (if best < level last then last else valid)
        (if last = 2 ^ 64 - 1 then last else last + 1) (if best < level last then level last else best)
        (decide (last = 2 ^ 64 - 1)) := by
  rw [powLoop, if_neg (Nat.not_le.mpr h)]
  simp only [Bool.false_eq_true, if_false, decide_eq_true_eq]

end

/-! ### The best of the offsets tried -/

/-- After trying the offsets `start` to `start + n - 1`, a search that began with the valid offset `v₀` has the best
offset `valid`, the first one of its level; if that one meets the target, it is the last offset tried. -/
structure PowBest (level : Nat → Nat) (target v₀ start n valid best : Nat) : Prop where
  best_eq : best = level valid
  tried_le : ∀ x, start ≤ x → x < start + n → level x ≤ best
  moved : valid ≠ v₀ →
    start ≤ valid ∧ valid < start + n ∧ level v₀ < best ∧ ∀ x, start ≤ x → x < valid → level x < best
  met : target ≤ best → n = 0 ∨ (valid ≠ v₀ ∧ valid + 1 = start + n)

section
variable {level : Nat → Nat} {target v₀ start n valid best : Nat}

theorem powBest_start (level : Nat → Nat) (target v₀ start : Nat) :
    PowBest level target v₀ start 0 v₀ (level v₀) :=
  ⟨rfl, fun _ _ _ => by omega, fun hmoved => absurd rfl hmoved, fun _ => .inl rfl⟩

theorem PowBest.level_le (h : PowBest level target v₀ start n valid best) : level v₀ ≤ best := by
  by_cases hmoved : valid = v₀
  · exact Nat.le_of_eq (hmoved ▸ h.best_eq.symm)
  · obtain ⟨-, -, hlt, -⟩ := h.moved hmoved
    exact hlt.le

/-- A strictly better offset becomes the valid one (R252). -/
theorem PowBest.better (h : PowBest level target v₀ start n valid best) (hlt : best < level (start + n)) :
    PowBest level target v₀ start (n + 1) (start + n) (level (start + n)) where
  best_eq := rfl
  tried_le x hstart hx := by
    obtain hx | rfl : x < start + n ∨ x = start + n := by omega
    · exact (h.tried_le x hstart hx).trans hlt.le
    · exact le_rfl
  moved _ :=
    ⟨Nat.le_add_right .., Nat.lt_succ_self _, h.level_le.trans_lt hlt,
      fun x hstart hx => (h.tried_le x hstart hx).trans_lt hlt⟩
  met _ := .inr ⟨fun heq => (heq ▸ h.level_le.trans_lt hlt).false, rfl⟩

/-- Any other offset leaves the valid one, an offset of the same level too (R252). -/
theorem PowBest.keep (h : PowBest level target v₀ start n valid best) (hunmet : best < target)
    (hle : level (start + n) ≤ best) : PowBest level target v₀ start (n + 1) valid best where
  best_eq := h.best_eq
  tried_le x hstart hx := by
    obtain hx | rfl : x < start + n ∨ x = start + n := by omega
    · exact h.tried_le x hstart hx
    · exact hle
  moved hmoved := by
    obtain ⟨hstart, hlt, hrest⟩ := h.moved hmoved
    exact ⟨hstart, hlt.trans (Nat.lt_succ_self _), hrest⟩
  met hmet := absurd hmet (Nat.not_le.mpr hunmet)

/-- The loop's update of the valid offset and its level (R252). -/
theorem PowBest.succ (h : PowBest level target v₀ start n valid best) (hunmet : best < target) :
    PowBest level target v₀ start (n + 1) (if best < level (start + n) then start + n else valid)
      (if best < level (start + n) then level (start + n) else best) := by
  by_cases hlt : best < level (start + n)
  · rw [if_pos hlt, if_pos hlt]
    exact h.better hlt
  · rw [if_neg hlt, if_neg hlt]
    exact h.keep hunmet (Nat.not_lt.mp hlt)

end

/-! ### How a search ends -/

/-- A search ends with `r` after trying `m` offsets, of a budget of `total` (R252). -/
structure PowEnds (level : Nat → Nat) (target v₀ start total m : Nat) (r : PowResult) : Prop where
  powBest : PowBest level target v₀ start m r.valid r.best
  last_eq : r.last = min (start + m) (2 ^ 64 - 1)
  in_space : start + m ≤ 2 ^ 64
  in_budget : m ≤ total
  stopped :
    (r.status = 1 ∧ target ≤ r.best) ∨ (r.status = 0 ∧ r.best < target ∧ m = total) ∨
      (r.status = 2 ∧ r.best < target ∧ start + m = 2 ^ 64 ∧ m < total)

/-- The loop from its place after `n` offsets, by induction on the budget left. -/
theorem powLoop_ends {level : Nat → Nat} {target v₀ start total n valid best : Nat} (budget : Nat)
    (hbest : PowBest level target v₀ start n valid best) (hspace : start + n ≤ 2 ^ 64) (htotal : n + budget = total) :
    ∃ m, PowEnds level target v₀ start total m
      (powLoop level target budget valid (min (start + n) (2 ^ 64 - 1)) best (decide (start + n = 2 ^ 64))) := by
  induction budget generalizing n valid best with
  | zero =>
    by_cases hmet : target ≤ best
    · rw [powLoop_met hmet]
      exact ⟨n, hbest, rfl, hspace, by omega, .inl ⟨rfl, hmet⟩⟩
    · have hunmet := Nat.not_le.mp hmet
      rw [powLoop_no_budget hunmet]
      exact ⟨n, hbest, rfl, hspace, by omega, .inr (.inl ⟨rfl, hunmet, htotal⟩)⟩
  | succ budget ih =>
    by_cases hmet : target ≤ best
    · rw [powLoop_met hmet]
      exact ⟨n, hbest, rfl, hspace, by omega, .inl ⟨rfl, hmet⟩⟩
    have hunmet := Nat.not_le.mp hmet
    by_cases hend : start + n = 2 ^ 64
    · rw [decide_eq_true hend, powLoop_exhausted hunmet]
      exact ⟨n, hbest, rfl, hspace, by omega, .inr (.inr ⟨rfl, hunmet, hend, by omega⟩)⟩
    · have hlast : min (start + n) (2 ^ 64 - 1) = start + n := by omega
      have hnext : (if start + n = 2 ^ 64 - 1 then start + n else start + n + 1) =
          min (start + (n + 1)) (2 ^ 64 - 1) := by split <;> omega
      have hatEnd : (start + n = 2 ^ 64 - 1) = (start + (n + 1) = 2 ^ 64) := propext (by omega)
      rw [decide_eq_false hend, powLoop_succ hunmet, hlast, hnext]
      simp only [hatEnd]
      exact ih (hbest.succ hunmet) (by omega) (by omega)

theorem powSearchFrom_ends {valid last : Nat} (hvalid : valid < 2 ^ 64) (hlast : last < 2 ^ 64)
    (level : Nat → Nat) (target budget : Nat) :
    ∃ m, PowEnds level target valid (max last valid) budget m (powSearchFrom level target valid last budget) := by
  have hends := powLoop_ends budget (powBest_start level target valid (max last valid)) (by omega) (Nat.zero_add _)
  rwa [Nat.add_zero, min_eq_left (by omega), decide_eq_false (by omega)] at hends

section
variable {level : Nat → Nat} {target v₀ start total m : Nat} {r : PowResult}

/-- The valid offset only rises, and stays at or below the next one (R253). -/
theorem PowEnds.valid_bounds (h : PowEnds level target v₀ start total m r) (hv : v₀ ≤ start)
    (hstart : start < 2 ^ 64) : v₀ ≤ r.valid ∧ r.valid ≤ r.last := by
  have hlast := h.last_eq
  have hspace := h.in_space
  by_cases hmoved : r.valid = v₀
  · omega
  · obtain ⟨hle, hlt, -, -⟩ := h.powBest.moved hmoved
    omega

/-- A search that met its target tried nothing, or moved its valid offset to the last offset tried (R252). -/
theorem PowEnds.met (h : PowEnds level target v₀ start total m r) (hstatus : r.status = 1) :
    m = 0 ∨ (r.valid ≠ v₀ ∧ r.valid + 1 = start + m) := by
  have hstopped := h.stopped
  exact h.powBest.met (by omega)

theorem PowEnds.last_of_moved (h : PowEnds level target v₀ start total m r) (hstatus : r.status = 1)
    (hmoved : r.valid ≠ v₀) : r.last = min (r.valid + 1) (2 ^ 64 - 1) := by
  obtain ⟨hle, hlt, -, -⟩ := h.powBest.moved hmoved
  obtain rfl | ⟨-, hnext⟩ := h.met hstatus
  · omega
  · rw [h.last_eq, hnext]

theorem PowEnds.last_of_kept (h : PowEnds level target v₀ start total m r) (hstatus : r.status = 1)
    (hkept : r.valid = v₀) (hstart : start < 2 ^ 64) : r.last = start := by
  obtain rfl | ⟨hmoved, -⟩ := h.met hstatus
  · exact h.last_eq.trans (min_eq_left (Nat.le_sub_one_of_lt hstart))
  · exact absurd hkept hmoved

/-- Of the offsets tried, those below the valid one have a lower level (R252). -/
theorem PowEnds.below_valid (h : PowEnds level target v₀ start total m r) (hv : v₀ ≤ start) {x : Nat}
    (hx : start ≤ x) (hlt : x < r.valid) : level x < r.best := by
  obtain ⟨-, -, -, hbelow⟩ := h.powBest.moved (by omega)
  exact hbelow x hx hlt

end

/-- Settles O31: the facts about where a search stopped, and about the best of the offsets tried there. -/
theorem powSearchFindsBest : Obligations.PowSearchFindsBest := by
  intro level target valid last budget hvalid hlast r start
  obtain ⟨m, hends⟩ : ∃ m, PowEnds level target valid start budget m r :=
    powSearchFrom_ends hvalid hlast level target budget
  have hstart : valid ≤ start ∧ start < 2 ^ 64 := by omega
  clear_value r
  have hlastEq := hends.last_eq
  have hspace := hends.in_space
  have hbudget := hends.in_budget
  have hstopped := hends.stopped
  refine ⟨hends.powBest.best_eq, fun x hx hlt => hends.powBest.tried_le x hx (by omega),
    fun hunmet x hx hlt hin => hends.powBest.tried_le x hx (by omega),
    fun hended => ⟨by omega, by omega, hends.powBest.tried_le _ (by omega) (by omega)⟩,
    fun hspent => by omega, fun hmoved => ?_, hends.last_of_moved,
    fun hmet hkept => hends.last_of_kept hmet hkept hstart.2,
    fun x hx hlt => .inl (hends.below_valid hstart.1 hx hlt), by omega⟩
  obtain ⟨hle, -, hbetter, -⟩ := hends.powBest.moved hmoved
  exact ⟨hle, hbetter⟩

/-! ### Resuming (R252) -/

/-- A loop that its budget stopped inside the offset space goes on from its result as if it had not stopped. -/
theorem powLoop_add {level : Nat → Nat} {target valid last best : Nat} {exhausted : Bool} (b c : Nat)
    (hexhausted : exhausted = true → last = 2 ^ 64 - 1)
    (hstatus : (powLoop level target b valid last best exhausted).status = 0)
    (hlast : (powLoop level target b valid last best exhausted).last < 2 ^ 64 - 1) :
    powLoop level target (b + c) valid last best exhausted =
      powLoop level target c (powLoop level target b valid last best exhausted).valid
        (powLoop level target b valid last best exhausted).last
        (powLoop level target b valid last best exhausted).best false := by
  induction b generalizing valid last best exhausted with
  | zero =>
    obtain hunmet | hmet := Nat.lt_or_ge best target
    · rw [powLoop_no_budget hunmet] at hlast ⊢
      have hgoing : exhausted = false := Bool.eq_false_iff.mpr fun h => hlast.ne (hexhausted h)
      rw [hgoing, Nat.zero_add]
    · rw [powLoop_met hmet] at hstatus
      cases hstatus
  | succ b ih =>
    obtain hunmet | hmet := Nat.lt_or_ge best target
    case inr =>
      rw [powLoop_met hmet] at hstatus
      cases hstatus
    cases exhausted with
    | true =>
      rw [powLoop_exhausted hunmet] at hstatus
      cases hstatus
    | false =>
      rw [powLoop_succ hunmet] at hstatus hlast ⊢
      rw [Nat.succ_add, powLoop_succ hunmet]
      refine ih (fun hend => ?_) hstatus hlast
      rw [if_pos (of_decide_eq_true hend), of_decide_eq_true hend]

/-- Settles O32: what the search returned is the loop's place, its best level and its last offset included. -/
theorem powSearchResumes : Obligations.PowSearchResumes := by
  intro level target valid last b c hvalid hlast r hstatus hinside
  obtain ⟨m, hends⟩ := powSearchFrom_ends hvalid hlast level target b
  obtain ⟨-, hle⟩ := hends.valid_bounds (Nat.le_max_right ..) (by omega)
  rw [powSearchFrom, Nat.max_eq_left hle, ← hends.powBest.best_eq]
  exact (powLoop_add (exhausted := false) b c nofun hstatus hinside).symm

/-! ### The commands (R251, R253) -/

/-- A leading-zero count is at most the number of bits (R242, R243). -/
theorem lzb_le (o : LzbOrder) (d : Bytes) : lzb o d ≤ 8 * d.length := by
  have hbits : (d.flatMap (scanBits o)).length = 8 * d.length := by
    have hbyte : ∀ b : Byte, (scanBits o b).length = 8 := fun b => by
      cases o <;> exact (List.length_map _).trans List.length_range
    rw [List.length_flatMap, List.map_congr_left fun b _ => hbyte b, List.map_const', List.sum_replicate,
      Nat.nsmul_eq_mul, Nat.mul_comm]
  exact hbits ▸ (List.takeWhile_sublist _).length_le

theorem powLevelOf_le (c : Config) (pk : Bytes) (x : Nat) : powLevelOf c pk x ≤ 8 * digestLen c.auxHash := by
  have hlen : (auxHash c (pk ++ decString x)).length = digestLen c.auxHash := length_hashWith _ _
  exact hlen ▸ lzb_le _ _

theorem exec_powLevel {s : State} (hclean : s.hazard = false) :
    exec .powLevel s = .next
      (if s.cfg.bufSize < opnd s 0 + opnd s 1 then raise .range s
       else complete [resWord (powLevelOf s.cfg (readRegion s (opndRegion s 0 1)) (opnd64 s 2 3))] s) := by
  rw [exec, execPowLevel, finish_of_no_hazard hclean]
  simp only [not_inRange_iff]
  rfl

theorem exec_powSearch {s : State} (target : Nat) (hclean : s.hazard = false) :
    exec (.powSearch target) s = .next
      (if s.cfg.bufSize < opnd s 0 + opnd s 1 then raise .range s
       else
         complete
           (powResults (powSearchFrom (powLevelOf s.cfg (readRegion s (opndRegion s 0 1))) target (opnd64 s 2 3)
             (opnd64 s 4 5) (opnd s 6))) s) := by
  rw [exec, execPowSearch, finish_of_no_hazard hclean]
  simp only [not_inRange_iff]
  rfl

/-- A command that checks its key region and reports changes nothing but its completion. -/
theorem onlyReports_of_key {i : Instr} {s : State} {rs : List Word} {post : State → Prop}
    (h : exec i s = .next (if s.cfg.bufSize < opnd s 0 + opnd s 1 then raise .range s else complete rs s))
    (hpost : ∀ t, CompletedWith .ok rs t → post t) :
    ∃ t, exec i s = .next t ∧ Claims.OnlyCompleted s t ∧
      if opnd s 0 + opnd s 1 ≤ s.cfg.bufSize then post t else CompletedWith .range [] t := by
  by_cases hin : opnd s 0 + opnd s 1 ≤ s.cfg.bufSize
  · rw [if_neg (Nat.not_lt.mpr hin)] at h
    simp only [if_pos hin]
    exact ⟨_, h, onlyCompleted_completeWith _ _ s, hpost _ (completedWith_complete rs s)⟩
  · rw [if_pos (Nat.not_le.mp hin)] at h
    simp only [if_neg hin]
    exact ⟨_, h, onlyCompleted_completeWith _ _ s, completedWith_raise .range s⟩

/-- Settles O29: the report of the model's level, bounded by the digest's bits. -/
theorem powLevelCounts : Obligations.PowLevelCounts := fun _ hclean =>
  onlyReports_of_key (exec_powLevel hclean) fun _ hdone => ⟨_, hdone, powLevelOf_le _ _ _, rfl⟩

theorem opnd64_lt (s : State) (i j : Fin 8) : opnd64 s i j < 2 ^ 64 := by
  have hi : opnd s i < 2 ^ 32 := (s.argL.get i).isLt
  have hj : opnd s j < 2 ^ 32 := (s.argL.get j).isLt
  rw [opnd64]
  omega

/-- Settles O30: the report of the search, with what is known of its end. -/
theorem powSearchReturns : Obligations.PowSearchReturns := by
  intro target s hclean pk level validIn lastIn r
  have hvalid : validIn < 2 ^ 64 := opnd64_lt s 2 3
  have hlast : lastIn < 2 ^ 64 := opnd64_lt s 4 5
  obtain ⟨m, hends⟩ : ∃ m, PowEnds level target validIn (max lastIn validIn) (opnd s 6) m r :=
    powSearchFrom_ends hvalid hlast level target _
  obtain ⟨hrises, hle⟩ := hends.valid_bounds (Nat.le_max_right ..) (by omega)
  have hlastEq := hends.last_eq
  have hstopped := hends.stopped
  exact onlyReports_of_key (exec_powSearch target hclean) fun t hdone =>
    ⟨hdone, hle, by omega, hrises, hends.powBest.best_eq, by omega, by omega⟩

end Sys2Proof.Machine
end

section
/-! Unit AEAD (O52 to O54, O56 to O58). A frame is read through its header: its mode (R300) and its keys (R301) depend on
nothing that ENCRYPT changes, which is why DECRYPT of the made frame verifies it and gives the body back (R315). -/

namespace Sys2Proof.Machine

/-! ### Strings in `BUF` (R63, R75) -/

theorem Memory.readBytes_add (m : Memory) (a n k : Nat) :
    m.readBytes a (n + k) = m.readBytes a n ++ m.readBytes (a + n) k := by
  rw [Memory.readBytes, Memory.readBytes, Memory.readBytes, ← List.map_append, List.range'_append_1]

/-- What lies below a store reads as before. -/
theorem Memory.readBytes_writeBytes_below (m : Memory) {a b n : Nat} (v : Bytes) (h : a + n ≤ b) :
    (m.writeBytes b v).readBytes a n = m.readBytes a n :=
  Memory.readBytes_congr fun _ _ hx => Memory.read_writeBytes_outside m (.inl (by omega))

/-- A stored string of known length is read back. -/
theorem Memory.readBytes_writeBytes_of_length (m : Memory) (a : Nat) {n : Nat} {v : Bytes} (h : v.length = n) :
    (m.writeBytes a v).readBytes a n = v := by
  rw [← h, Memory.readBytes_writeBytes]

/-- A region that the regions of a change leave out reads as before. -/
theorem SameBufOutside.readBytes {rs : List Region} {s t : State} (h : SameBufOutside rs s t) {a n : Nat}
    (hout : ∀ r ∈ rs, a + n ≤ r.start ∨ r.start + r.len ≤ a) : t.buf.readBytes a n = s.buf.readBytes a n := by
  refine Memory.readBytes_congr fun x hlo hhi => h x (Bool.eq_false_iff.mpr fun hin => ?_)
  obtain ⟨r, hr, hx⟩ := List.any_eq_true.mp hin
  obtain ⟨hstart, hend⟩ := (inRegion_iff r x).mp hx
  have := hout r hr
  omega

/-- A string stored behind another is read back behind it. -/
theorem Memory.readBytes_writeBytes_behind (m : Memory) (a n : Nat) {k : Nat} {v : Bytes} (h : v.length = k) :
    (m.writeBytes (a + n) v).readBytes a (n + k) = m.readBytes a n ++ v := by
  rw [Memory.readBytes_add, Memory.readBytes_writeBytes_below m v (Nat.le_refl _),
    Memory.readBytes_writeBytes_of_length m _ h]

/-! ### Unit state -/

/-- A command that derives changes at most the cache and `BUF` of the unit state (R301, R307). -/
theorem exec_frame_of_derives {i : Instr} {s t : State} (hi : derives i = true) (h : exec i s = .next t) :
    SameHostSide s t ∧ SameUnits s t := by
  refine ⟨commandsKeepHostSide i s t h, ?_⟩
  obtain ⟨e, r, u, heff, rfl⟩ := exec_cases h
  cases heff with
  | buf => exact ⟨⟨rfl, rfl, rfl⟩, rfl, rfl⟩
  | derived => exact ⟨⟨rfl, rfl, rfl⟩, rfl, rfl⟩
  | _ => cases hi

/-- An outcome of a command that derives comes with the frame of its unit. -/
theorem derives_frame {i : Instr} {s t : State} {post : State → Prop} (hi : derives i = true)
    (h : exec i s = .next t) (hpost : post t) :
    ∃ t, exec i s = .next t ∧ SameHostSide s t ∧ SameUnits s t ∧ post t := by
  obtain ⟨hhost, hunits⟩ := exec_frame_of_derives hi h
  exact ⟨t, h, hhost, hunits, hpost⟩

/-- An error of such a command, raised in the state that the command started from. -/
theorem derives_raise {i : Instr} {s : State} {e : ErrCode} (hi : derives i = true) (h : exec i s = .next (raise e s)) :
    ∃ t, exec i s = .next t ∧ SameHostSide s t ∧ SameUnits s t ∧ CompletedWith e [] t ∧ SameBuf s t :=
  derives_frame hi h ⟨completedWith_raise e s, fun _ => rfl⟩

/-- No command runs under a hazard once another has completed (R121), and each leaves a coherent cache (R287). -/
theorem exec_leaves_clean {i : Instr} {s t : State} (h : exec i s = .next t) (hc : CacheCoherent s) :
    t.hazard = false ∧ CacheCoherent t := by
  obtain ⟨e, r, u, heff, rfl⟩ := exec_cases h
  exact ⟨rfl, heff.cacheCoherent hc⟩

/-! ### CRYPTO_INIT and CRYPTO_RESET (R305, R306) -/

/-- The digest of AUX_HASH is SHA-1's or longer (R211). -/
theorem length_auxHash_ge (c : Config) (m : Bytes) : 20 ≤ (auxHash c m).length := by
  rw [auxHash, length_hashWith]
  cases c.auxHash <;> decide

theorem length_ivStruct {c : Config} {ab : Bytes} (h : ab.length = 20) (x : Bytes) : (ivStruct c ab x).length = 20 := by
  have hmask := length_auxHash_ge c (norm32 x)
  rw [ivStruct, length_xorBytes, List.length_take, h]
  omega

theorem length_fakeSignature (c : Config) (iv : Bytes) : (fakeSignature c iv).length = 8 := by
  have hlen := length_auxHash_ge c iv
  rw [fakeSignature, List.length_take]
  omega

/-- The keyed state that CRYPTO_INIT enters with an IV struct (R305). -/
def keyedWith (iv : Bytes) (s : State) : State :=
  clearCache { s with keyed := true, iv := fixedBytes 20 iv, fakeSig := fixedBytes 8 (fakeSignature s.cfg iv) }

/-- CRYPTO_INIT with no host write into its regions: the three regions, then the lengths (R305, R334). -/
theorem exec_cryptoInit {s : State} (hclean : s.hazard = false) :
    let alpha := opndRegion s 0 1
    let beta := opndRegion s 2 3
    let shared := opndRegion s 4 5
    exec .cryptoInit s = .next
      (if s.cfg.bufSize < alpha.start + alpha.len ∨ s.cfg.bufSize < beta.start + beta.len ∨
          s.cfg.bufSize < shared.start + shared.len then raise .range s
       else if alpha.len + beta.len ≠ 20 then raise .arg s
       else
         complete []
           (keyedWith (ivStruct s.cfg (readRegion s alpha ++ readRegion s beta) (readRegion s shared)) s)) := by
  rw [exec, execCryptoInit, finish_of_no_hazard hclean]
  simp only [not_inRange_iff, ite_or]
  rfl

/-- Settles O52: the two checks, and the state that holds the IV struct and its signature. -/
theorem cryptoInitEntersKeyed : Obligations.CryptoInitEntersKeyed := by
  intro s hclean alpha beta shared mask
  have hexec := exec_cryptoInit hclean
  have hhost := commandsKeepHostSide _ _ _ hexec
  obtain ⟨-, -, htxctr, hrq, -⟩ := unitStateChangesOnlyByItsCommands _ _ _ hexec
  obtain ⟨hbuf, -⟩ := commandsWriteOnlyOutputRegions _ _ _ hexec
  refine ⟨_, hexec, hhost, htxctr nofun nofun, hrq nofun nofun nofun, fun a => hbuf a rfl, ?_⟩
  split
  case isTrue => exact ⟨completedWith_raise _ s, ⟨rfl, rfl, rfl⟩, rfl⟩
  split
  case isTrue => exact ⟨completedWith_raise _ s, ⟨rfl, rfl, rfl⟩, rfl⟩
  case isFalse hsum =>
    have hab : (readRegion s alpha ++ readRegion s beta).length = 20 := by
      rw [List.length_append, readRegion, readRegion, Memory.length_readBytes, Memory.length_readBytes]
      exact not_not.mp hsum
    have hiv := toList_fixedBytes (length_ivStruct (c := s.cfg) hab (readRegion s shared))
    refine ⟨completedWith_complete _ _, rfl, hiv, ?_, clearCache_invalid _⟩
    exact (toList_fixedBytes (length_fakeSignature _ _)).trans (congrArg (fakeSignature s.cfg) hiv.symm)

/-- Settles O53: the cleared state, of which only the crypto state and the cache are new. -/
theorem cryptoResetDestroysSecrets : Obligations.CryptoResetDestroysSecrets := fun s =>
  ⟨_, rfl, completedWith_complete _ _, commandsKeepHostSide .cryptoReset s _ rfl, rfl,
    fun _ hb => List.eq_of_mem_replicate (Vector.toList_replicate ▸ hb),
    fun _ hb => List.eq_of_mem_replicate (Vector.toList_replicate ▸ hb), clearCache_invalid _, rfl, rfl, fun _ => rfl⟩

/-! ### DERIVE (R285, R307) -/

theorem slice_append_slice {d : Bytes} {i n : Nat} (h : d.length = n) : slice d 0 i ++ slice d i n = d := by
  subst h
  rw [slice, slice, List.drop_zero, Nat.sub_zero, ← List.length_drop, List.take_length, List.take_append_drop]

/-- Key and nonce are the two halves of one digest (R285). -/
theorem deriveKN_append (iv : Bytes) (dir : Dir) (t : Nat) (gen : BitVec 32) :
    (deriveKN iv dir t gen).1 ++ (deriveKN iv dir t gen).2 =
      sha256 (dirByte dir :: BitVec.ofNat 8 t :: (beBytes 4 gen.toNat ++ iv)) :=
  slice_append_slice (length_sha256 _)

theorem not_ptypeLegal_iff (p : Nat) : (!ptypeLegal p) = true ↔ 8 < p := by
  rw [Bool.not_eq_true', ptypeLegal, decide_eq_false_iff_not, Nat.not_le]

/-- DERIVE with no host write into its region and a coherent cache (R307): whether the pair comes from the cache or not
(R287) shows in the cache alone. -/
theorem exec_deriveKey {s : State} (p : Nat) (dir : Dir) (hclean : s.hazard = false) (hc : CacheCoherent s) :
    let kn := deriveKN s.iv.toList dir p (s.argL.get 0)
    ∃ c, exec (.deriveKey p dir) s = .next
      (if 8 < p then raise .arg s
       else if s.cfg.bufSize < opnd s 1 + 32 then raise .range s
       else if s.keyed = false then raise .notKeyed s
       else complete [] (storeBytes (opnd s 1) (kn.1 ++ kn.2) { s with kcache := c })) := by
  obtain ⟨c, hstate, hfresh⟩ := deriveCached_cases dir p (s.argL.get 0) s
  refine ⟨c, ?_⟩
  rw [exec, execDeriveKey, finish_of_no_hazard hclean]
  simp only [not_ptypeLegal_iff, not_inRange_iff, Bool.not_eq_true' s.keyed]
  split
  case isTrue => rfl
  case isFalse hp => rw [hstate, (hfresh hc (Nat.not_lt.mp hp)).1]

/-- Settles O54: the checks in their order, and the digest stored where all of them pass. -/
theorem deriveWritesKeyAndNonce : Obligations.DeriveWritesKeyAndNonce := by
  intro p dir s hclean hc dst dirByte
  obtain ⟨c, hexec⟩ := exec_deriveKey p dir hclean hc
  obtain ⟨hhost, hunits⟩ := exec_frame_of_derives rfl hexec
  refine ⟨_, hexec, hhost, hunits, ?_⟩
  split
  case isTrue => exact ⟨completedWith_raise _ s, fun _ => rfl⟩
  split
  case isTrue => exact ⟨completedWith_raise _ s, fun _ => rfl⟩
  split
  case isTrue => exact ⟨completedWith_raise _ s, fun _ => rfl⟩
  case isFalse =>
    rw [deriveKN_append]
    exact ⟨completedWith_complete _ _, sameBufOutside_storeBytes (length_sha256 _) s,
      Memory.readBytes_writeBytes_of_length _ _ (length_sha256 _)⟩

/-! ### A frame's header, mode and keys (R281, R300, R301) -/

/-- The header of the frame that a command's first operand names (R281). -/
def frameHeader (dir : Dir) (s : State) : Bytes := s.buf.readBytes (opnd s 0 + 8) (headerLen dir)

/-- `type_flags` of that frame (R281). -/
def frameType (dir : Dir) (s : State) : Byte := headerType dir (frameHeader dir s)

/-- Where the body of that frame begins (R280). -/
def bodyStart (dir : Dir) (s : State) : Nat := opnd s 0 + 8 + headerLen dir

/-- The tag of a frame in fake-signature mode (R300). -/
def frameSignature (s : State) (tf : Byte) : Bytes :=
  if typeOf tf = 8 ∨ s.keyed = false then s.cfg.fixedSignature.toList else s.fakeSig.toList

/-- The keys of the frame by the phase, derived afresh (R301). -/
def frameKeys (dir : Dir) (s : State) : Bytes × Bytes :=
  let kn := deriveKN s.iv.toList dir (typeOf (frameType dir s)) (s.argL.get 2)
  if s.keyed then (packetKey kn.1 (headerId (frameHeader dir s)), kn.2)
  else (s.cfg.dummyKey.toList, s.cfg.dummyNonce.toList)

/-- The packet type is the low half of `type_flags` (R282). -/
theorem typeOf_eq (tf : Byte) : typeOf tf = tf.toNat % 16 := by
  rw [typeOf, BitVec.extractLsb'_toNat, Nat.shiftRight_zero]

theorem frameMode_badType {s : State} {tf : Byte} (h : 8 < typeOf tf) : frameMode s tf = .badType := by
  rw [frameMode, if_pos h]

theorem frameMode_signed {s : State} {tf : Byte} (ht : ¬8 < typeOf tf) (h : typeOf tf = 8 ∨ unencrypted tf = true) :
    frameMode s tf = .fake (frameSignature s tf) := by
  rw [frameMode, if_neg ht, frameSignature]
  by_cases h8 : typeOf tf = 8
  · rw [if_pos h8, if_pos (.inl h8)]
  · rw [if_neg h8, if_pos (h.resolve_left h8)]
    cases hk : s.keyed <;> simp [h8]

theorem frameMode_eax {s : State} {tf : Byte} (ht : ¬8 < typeOf tf) (h : ¬(typeOf tf = 8 ∨ unencrypted tf = true)) :
    frameMode s tf = .eax := by
  obtain ⟨h8, hflag⟩ := not_or.mp h
  rw [frameMode, if_neg ht, if_neg h8, if_neg hflag]

/-- With a coherent cache the keys of a frame are the fresh ones, and only the cache may change (R287, R301). -/
theorem keysFor_frame {dir : Dir} {s : State} (hc : CacheCoherent s) (hm : frameMode s (frameType dir s) = .eax) :
    ∃ c, keysFor dir (typeOf (frameType dir s)) (headerId (frameHeader dir s)) (s.argL.get 2) s =
      (frameKeys dir s, { s with kcache := c }) := by
  obtain ⟨c, hstate, hfresh, -⟩ :=
    keysFor_cases dir (typeOf (frameType dir s)) (headerId (frameHeader dir s)) (s.argL.get 2) s
  exact ⟨c, Prod.ext (hfresh hc (typeOf_le_of_eax hm)).1 hstate⟩

theorem length_frameKeys (dir : Dir) (s : State) : (frameKeys dir s).1.length = 16 := by
  simp only [frameKeys]
  split
  · exact length_packetKey (length_deriveKN ..).1 _
  · exact Vector.length_toList

/-! ### ENCRYPT (R310) -/

section
variable {dir : Dir} {s : State}

theorem exec_encrypt_range (hclean : s.hazard = false)
    (h : s.cfg.bufSize < opnd s 0 + (8 + headerLen dir + opnd s 1)) :
    exec (.encrypt dir) s = .next (raise .range s) := by
  rw [exec, execEncrypt, finish_of_no_hazard hclean, if_pos ((not_inRange_iff _ _).mpr h)]

theorem exec_encrypt_badType (hclean : s.hazard = false)
    (hin : ¬s.cfg.bufSize < opnd s 0 + (8 + headerLen dir + opnd s 1))
    (hm : frameMode s (frameType dir s) = .badType) : exec (.encrypt dir) s = .next (raise .arg s) := by
  rw [frameType, frameHeader] at hm
  rw [exec, execEncrypt, finish_of_no_hazard hclean, if_neg (mt (not_inRange_iff _ _).mp hin)]
  simp only [hm]

/-- A frame in fake-signature mode: the tag is stored, and that is all (R310). -/
theorem exec_encrypt_fake (hclean : s.hazard = false)
    (hin : ¬s.cfg.bufSize < opnd s 0 + (8 + headerLen dir + opnd s 1)) {tag : Bytes}
    (hm : frameMode s (frameType dir s) = .fake tag) :
    ∃ t, exec (.encrypt dir) s = .next t ∧ CompletedWith .ok [resWord (8 + headerLen dir + opnd s 1)] t ∧
      t.buf.readBytes (opnd s 0) 8 = tag ∧ SameBufOutside [{ start := opnd s 0, len := 8 }] s t := by
  have hlen := length_of_fake hm
  rw [frameType, frameHeader] at hm
  refine ⟨complete [resWord (8 + headerLen dir + opnd s 1)] (storeBytes (opnd s 0) tag s), ?_,
    completedWith_complete _ _, Memory.readBytes_writeBytes_of_length _ _ hlen, sameBufOutside_storeBytes hlen s⟩
  rw [exec, execEncrypt, finish_of_no_hazard hclean, if_neg (mt (not_inRange_iff _ _).mp hin)]
  simp only [hm]

/-- A frame in EAX mode: tag and body are stored, under the fresh keys whatever a coherent cache holds (R301, R310). -/
theorem exec_encrypt_eax (hclean : s.hazard = false) (hc : CacheCoherent s)
    (hin : ¬s.cfg.bufSize < opnd s 0 + (8 + headerLen dir + opnd s 1)) (hm : frameMode s (frameType dir s) = .eax) :
    let ct := eaxEnc (frameKeys dir s).1 (frameKeys dir s).2 (frameHeader dir s)
      (s.buf.readBytes (bodyStart dir s) (opnd s 1))
    ∃ t, exec (.encrypt dir) s = .next t ∧ CompletedWith .ok [resWord (8 + headerLen dir + opnd s 1)] t ∧
      t.buf.readBytes (opnd s 0) 8 = ct.2 ∧ t.buf.readBytes (bodyStart dir s) (opnd s 1) = ct.1 := by
  intro ct
  obtain ⟨c, hkeys⟩ := keysFor_frame hc hm
  obtain ⟨hbody, htag⟩ := length_eaxEnc (length_frameKeys dir s) (frameKeys dir s).2 (frameHeader dir s)
    (s.buf.readBytes (bodyStart dir s) (opnd s 1))
  rw [Memory.length_readBytes] at hbody
  have hbelow : opnd s 0 + 8 ≤ bodyStart dir s := Nat.le_add_right _ _
  refine ⟨complete [resWord (8 + headerLen dir + opnd s 1)]
    (storeBytes (bodyStart dir s) ct.1 (storeBytes (opnd s 0) ct.2 { s with kcache := c })), ?_,
    completedWith_complete _ _, ?_, Memory.readBytes_writeBytes_of_length _ _ hbody⟩
  · rw [frameType, frameHeader] at hm hkeys
    rw [exec, execEncrypt, finish_of_no_hazard hclean, if_neg (mt (not_inRange_iff _ _).mp hin)]
    simp only [hm, hkeys]
    rfl
  · exact (Memory.readBytes_writeBytes_below _ _ hbelow).trans (Memory.readBytes_writeBytes_of_length _ _ htag)

end

/-- ENCRYPT writes tag and body (R310, R362). -/
theorem exec_encrypt_sameBufOutside {dir : Dir} {s t : State} (h : exec (.encrypt dir) s = .next t) :
    SameBufOutside [{ start := opnd s 0, len := 8 }, { start := bodyStart dir s, len := opnd s 1 }] s t :=
  (commandsWriteOnlyOutputRegions _ s t h).2

/-- Settles O56: the range, and one case for each mode of the frame. -/
theorem encryptMakesFrame : Obligations.EncryptMakesFrame := by
  intro dir s hclean hc hl f b hdr tf ptype pid kn keys ct signature
  have htypeEq : typeOf (frameType dir s) = ptype := typeOf_eq _
  have hkeysEq : frameKeys dir s = keys := by
    rw [frameKeys, htypeEq]
    rfl
  by_cases hrange : s.cfg.bufSize < f + (8 + hl + b)
  · simp only [if_pos hrange]
    exact derives_raise rfl (exec_encrypt_range hclean hrange)
  simp only [if_neg hrange]
  by_cases htype : 8 < ptype
  · simp only [if_pos htype]
    exact derives_raise rfl (exec_encrypt_badType hclean hrange (frameMode_badType (htypeEq ▸ htype)))
  simp only [if_neg htype]
  rw [← htypeEq] at htype
  by_cases hsigned : ptype = 8 ∨ tf.getLsbD 7 = true
  · simp only [if_pos hsigned]
    rw [← htypeEq] at hsigned
    obtain ⟨t, hexec, hdone, htag, hout⟩ := exec_encrypt_fake hclean hrange (frameMode_signed htype hsigned)
    rw [frameSignature, htypeEq] at htag
    exact derives_frame rfl hexec ⟨hdone, htag, hout⟩
  · simp only [if_neg hsigned]
    rw [← htypeEq] at hsigned
    obtain ⟨t, hexec, hdone, htag, hbody⟩ := exec_encrypt_eax hclean hc hrange (frameMode_eax htype hsigned)
    rw [hkeysEq] at htag hbody
    exact derives_frame rfl hexec ⟨hdone, htag, hbody, exec_encrypt_sameBufOutside hexec⟩

/-! ### DECRYPT (R311) -/

section
variable {dir : Dir} {s : State}

theorem exec_decrypt_range (hclean : s.hazard = false) (h : s.cfg.bufSize < opnd s 0 + opnd s 1) :
    exec (.decrypt dir) s = .next (raise .range s) := by
  rw [exec, execDecrypt, finish_of_no_hazard hclean, if_pos ((not_inRange_iff _ _).mpr h)]

theorem exec_decrypt_format (hclean : s.hazard = false) (hin : ¬s.cfg.bufSize < opnd s 0 + opnd s 1)
    (h : opnd s 1 < 8 + headerLen dir) : exec (.decrypt dir) s = .next (raise .format s) := by
  rw [exec, execDecrypt, finish_of_no_hazard hclean, if_neg (mt (not_inRange_iff _ _).mp hin), if_pos h]

theorem exec_decrypt_badType (hclean : s.hazard = false) (hin : ¬s.cfg.bufSize < opnd s 0 + opnd s 1)
    (hlong : ¬opnd s 1 < 8 + headerLen dir) (hm : frameMode s (frameType dir s) = .badType) :
    exec (.decrypt dir) s = .next (raise .arg s) := by
  rw [frameType, frameHeader] at hm
  rw [exec, execDecrypt, finish_of_no_hazard hclean, if_neg (mt (not_inRange_iff _ _).mp hin), if_neg hlong]
  simp only [hm]

/-- The results of a DECRYPT that verifies its frame (R311). -/
def frameResults (dir : Dir) (s : State) : List Word :=
  decryptResults (opnd s 1 - 8 - headerLen dir) (frameHeader dir s) (frameType dir s)

theorem decryptResults_eq (n : Nat) (hdr : Bytes) (tf : Byte) :
    decryptResults n hdr tf = [resWord n, BitVec.ofNat 32 (headerId hdr).toNat, BitVec.ofNat 32 tf.toNat] := by
  rw [BitVec.ofNat_toNat, BitVec.ofNat_toNat, decryptResults]

/-- A frame in fake-signature mode: its tag is compared, and nothing is written (R311). -/
theorem exec_decrypt_fake (hclean : s.hazard = false) (hin : ¬s.cfg.bufSize < opnd s 0 + opnd s 1)
    (hlong : ¬opnd s 1 < 8 + headerLen dir) {tag : Bytes} (hm : frameMode s (frameType dir s) = .fake tag) :
    exec (.decrypt dir) s = .next
      (if s.buf.readBytes (opnd s 0) 8 = tag then complete (frameResults dir s) s else raise .auth s) := by
  rw [frameType, frameHeader] at hm
  rw [exec, execDecrypt, finish_of_no_hazard hclean, if_neg (mt (not_inRange_iff _ _).mp hin), if_neg hlong]
  simp only [hm]
  rfl

/-- A frame in EAX mode: what EAX decryption under the fresh keys says of it (R275, R301, R311). -/
theorem exec_decrypt_eax (hclean : s.hazard = false) (hc : CacheCoherent s)
    (hin : ¬s.cfg.bufSize < opnd s 0 + opnd s 1) (hlong : ¬opnd s 1 < 8 + headerLen dir)
    (hm : frameMode s (frameType dir s) = .eax) {o : Option Bytes}
    (hdec : eaxDec (frameKeys dir s).1 (frameKeys dir s).2 (frameHeader dir s)
      (s.buf.readBytes (bodyStart dir s) (opnd s 1 - 8 - headerLen dir)) (s.buf.readBytes (opnd s 0) 8) = o) :
    ∃ c, exec (.decrypt dir) s = .next
      (o.elim (raise .auth { s with kcache := c }) fun p =>
        complete (frameResults dir s) (storeBytes (bodyStart dir s) p { s with kcache := c })) := by
  obtain ⟨c, hkeys⟩ := keysFor_frame hc hm
  rw [frameType, frameHeader] at hm hkeys
  rw [frameHeader, bodyStart] at hdec
  refine ⟨c, ?_⟩
  rw [exec, execDecrypt, finish_of_no_hazard hclean, if_neg (mt (not_inRange_iff _ _).mp hin), if_neg hlong]
  simp only [hm, hkeys, hdec]
  cases o <;> rfl

/-- The plaintext that DECRYPT stores fills the body (R275). -/
theorem length_decrypted {p : Bytes} {n : Nat}
    (hdec : eaxDec (frameKeys dir s).1 (frameKeys dir s).2 (frameHeader dir s)
      (s.buf.readBytes (bodyStart dir s) n) (s.buf.readBytes (opnd s 0) 8) = some p) : p.length = n := by
  rw [length_eaxDec (length_frameKeys dir s) hdec, Memory.length_readBytes]

end

/-- Settles O57: the checks in their order, and one case for each mode of the frame. -/
theorem decryptVerifiesFrame : Obligations.DecryptVerifiesFrame := by
  intro dir s hclean hc hl f len tag hdr body tf ptype pid kn keys signature results
  have htypeEq : typeOf (frameType dir s) = ptype := typeOf_eq _
  have hkeysEq : frameKeys dir s = keys := by
    rw [frameKeys, htypeEq]
    rfl
  have hresults : frameResults dir s = results := decryptResults_eq ..
  by_cases hrange : s.cfg.bufSize < f + len
  · simp only [if_pos hrange]
    exact derives_raise rfl (exec_decrypt_range hclean hrange)
  simp only [if_neg hrange]
  by_cases hshort : len < 8 + hl
  · simp only [if_pos hshort]
    exact derives_raise rfl (exec_decrypt_format hclean hrange hshort)
  simp only [if_neg hshort]
  by_cases htype : 8 < ptype
  · simp only [if_pos htype]
    exact derives_raise rfl (exec_decrypt_badType hclean hrange hshort (frameMode_badType (htypeEq ▸ htype)))
  simp only [if_neg htype]
  rw [← htypeEq] at htype
  by_cases hsigned : ptype = 8 ∨ tf.getLsbD 7 = true
  · simp only [if_pos hsigned]
    rw [← htypeEq] at hsigned
    have hexec := exec_decrypt_fake hclean hrange hshort (frameMode_signed htype hsigned)
    rw [frameSignature, htypeEq, hresults] at hexec
    change exec (.decrypt dir) s = .next (if tag = signature then complete results s else raise .auth s) at hexec
    by_cases htag : tag = signature
    · simp only [if_pos htag] at hexec ⊢
      exact derives_frame rfl hexec ⟨completedWith_complete _ s, fun _ => rfl⟩
    · simp only [if_neg htag] at hexec ⊢
      exact derives_raise rfl hexec
  · simp only [if_neg hsigned]
    rw [← htypeEq] at hsigned
    have hmode : frameMode s (frameType dir s) = .eax := frameMode_eax htype hsigned
    cases hdec : eaxDec keys.1 keys.2 hdr body tag with
    | none =>
      obtain ⟨c, hexec⟩ := exec_decrypt_eax hclean hc hrange hshort hmode (hkeysEq ▸ hdec)
      exact derives_frame rfl hexec ⟨completedWith_raise _ _, fun _ => rfl⟩
    | some p =>
      rw [← hkeysEq] at hdec
      have hlen := length_decrypted hdec
      obtain ⟨c, hexec⟩ := exec_decrypt_eax hclean hc hrange hshort hmode hdec
      rw [hresults] at hexec
      exact derives_frame rfl hexec ⟨completedWith_complete _ _, Memory.readBytes_writeBytes_of_length _ _ hlen,
        sameBufOutside_storeBytes hlen s⟩

/-! ### The round trip (R315) -/

/-- Two states in which the same frame start, generation and header meet the same crypto state and parameters. -/
structure SameFrame (dir : Dir) (s u : State) : Prop where
  cfg : u.cfg = s.cfg
  crypto : SameCrypto s u
  start : u.argL.get 0 = s.argL.get 0
  gen : u.argL.get 2 = s.argL.get 2
  header : frameHeader dir u = frameHeader dir s

section
variable {dir : Dir} {s u : State}

theorem SameFrame.opnd_start (h : SameFrame dir s u) : opnd u 0 = opnd s 0 := congrArg BitVec.toNat h.start

theorem SameFrame.bodyStart_eq (h : SameFrame dir s u) : bodyStart dir u = bodyStart dir s := by
  rw [bodyStart, bodyStart, h.opnd_start]

/-- The mode of a frame is a matter of header, phase and signatures (R300). -/
theorem SameFrame.mode_eq (h : SameFrame dir s u) : frameMode u (frameType dir u) = frameMode s (frameType dir s) := by
  obtain ⟨hkeyed, -, hsig⟩ := h.crypto
  rw [frameType, frameType, h.header, frameMode, frameMode, h.cfg, hkeyed, hsig]

/-- The keys of a frame are a matter of header, phase, IV and generation (R301). -/
theorem SameFrame.keys_eq (h : SameFrame dir s u) : frameKeys dir u = frameKeys dir s := by
  obtain ⟨hkeyed, hiv, -⟩ := h.crypto
  rw [frameKeys, frameKeys, frameType, frameType, h.header, h.cfg, h.gen, hkeyed, hiv]

end

/-- ENCRYPT leaves the frame that DECRYPT reads: it writes no header and no crypto state (R310). -/
theorem exec_encrypt_sameFrame {dir : Dir} {s t u : State} (h : exec (.encrypt dir) s = .next t)
    (hu : u = { t with argL := u.argL }) (hstart : u.argL.get 0 = s.argL.get 0)
    (hgen : u.argL.get 2 = s.argL.get 2) : SameFrame dir s u := by
  obtain ⟨⟨hcfg, -⟩, ⟨hkeyed, hiv, hsig⟩, -, -⟩ := exec_frame_of_derives rfl h
  have hout := exec_encrypt_sameBufOutside h
  refine ⟨(congrArg State.cfg hu).trans hcfg, ⟨(congrArg State.keyed hu).trans hkeyed, (congrArg State.iv hu).trans hiv,
    (congrArg State.fakeSig hu).trans hsig⟩, hstart, hgen, ?_⟩
  rw [frameHeader, frameHeader, opnd, hstart, congrArg State.buf hu]
  refine hout.readBytes fun r hr => ?_
  obtain rfl | rfl : r = _ ∨ r = _ := by simpa using hr
  · exact .inr (Nat.le_refl _)
  · exact .inl (Nat.le_refl _)

/-- What an ENCRYPT that ended with OK left: the frame's length, and the tag and body of its mode (R310). -/
theorem exec_encrypt_ok {dir : Dir} {s t : State} (hclean : s.hazard = false) (hc : CacheCoherent s)
    (h : exec (.encrypt dir) s = .next t) (hok : t.err = .ok) :
    let ct := eaxEnc (frameKeys dir s).1 (frameKeys dir s).2 (frameHeader dir s)
      (s.buf.readBytes (bodyStart dir s) (opnd s 1))
    opnd s 0 + (8 + headerLen dir + opnd s 1) ≤ s.cfg.bufSize ∧
      t.res.get 0 = resWord (8 + headerLen dir + opnd s 1) ∧
      ((frameMode s (frameType dir s) = .fake (t.buf.readBytes (opnd s 0) 8) ∧
          SameBufOutside [{ start := opnd s 0, len := 8 }] s t) ∨
        (frameMode s (frameType dir s) = .eax ∧ t.buf.readBytes (opnd s 0) 8 = ct.2 ∧
          t.buf.readBytes (bodyStart dir s) (opnd s 1) = ct.1)) := by
  by_cases hin : s.cfg.bufSize < opnd s 0 + (8 + headerLen dir + opnd s 1)
  · cases h.symm.trans (exec_encrypt_range hclean hin)
    cases hok
  cases hm : frameMode s (frameType dir s) with
  | badType =>
    cases h.symm.trans (exec_encrypt_badType hclean hin hm)
    cases hok
  | fake tag =>
    obtain ⟨t', ht', ⟨-, -, -, hres⟩, htag, hout⟩ := exec_encrypt_fake hclean hin hm
    cases h.symm.trans ht'
    exact ⟨Nat.not_lt.mp hin, hres 0, .inl ⟨congrArg _ htag.symm, hout⟩⟩
  | eax =>
    obtain ⟨t', ht', ⟨-, -, -, hres⟩, htag, hbody⟩ := exec_encrypt_eax hclean hc hin hm
    cases h.symm.trans ht'
    exact ⟨Nat.not_lt.mp hin, hres 0, .inr ⟨rfl, htag, hbody⟩⟩

/-- DECRYPT returns the body length, which is ENCRYPT's operand (R311). -/
theorem frameResults_length {dir : Dir} {s u : State} (h : opnd u 1 = 8 + headerLen dir + opnd s 1) :
    resultAt (frameResults dir u) 0 = s.argL.get 1 := by
  have hbody : opnd u 1 - 8 - headerLen dir = opnd s 1 := by omega
  calc resultAt (frameResults dir u) 0 = resWord (opnd u 1 - 8 - headerLen dir) := rfl
    _ = BitVec.ofNat 32 (s.argL.get 1).toNat := by rw [hbody]; rfl
    _ = s.argL.get 1 := by rw [BitVec.ofNat_toNat, BitVec.setWidth_eq]

/-- Settles O58: DECRYPT meets the frame in its mode and under its keys. A signature is compared with itself; EAX
decryption undoes EAX encryption. -/
theorem decryptUndoesEncrypt : Obligations.DecryptUndoesEncrypt := by
  intro dir s t u hclean hc henc hok hu hstart hlen hgen hsize
  obtain ⟨hin, hres, hmade⟩ := exec_encrypt_ok hclean hc henc hok
  have hframe := exec_encrypt_sameFrame henc hu hstart hgen
  have hbuf : u.buf = t.buf := by rw [hu]
  obtain ⟨hclean', hc'⟩ : u.hazard = false ∧ CacheCoherent u := by
    rw [hu]
    exact exec_leaves_clean (t := t) henc hc
  have hlen' : opnd u 1 = 8 + headerLen dir + opnd s 1 := by
    rw [opnd, hlen, hres, resWord, BitVec.toNat_ofNat, Nat.mod_eq_of_lt (by omega)]
  have hin' : ¬u.cfg.bufSize < opnd u 0 + opnd u 1 := by
    rw [hframe.cfg, hframe.opnd_start, hlen']
    exact Nat.not_lt.mpr hin
  have hlong : ¬opnd u 1 < 8 + headerLen dir := by omega
  have hbodyLen : opnd u 1 - 8 - headerLen dir = opnd s 1 := by omega
  rcases hmade with ⟨hm, hout⟩ | ⟨hm, htag, hbody⟩
  · rw [← hframe.mode_eq, ← hbuf, ← hframe.opnd_start] at hm
    have hdec := exec_decrypt_fake hclean' hin' hlong hm
    rw [if_pos rfl] at hdec
    refine ⟨_, hdec, rfl, (resultRegs_get _ 0).trans (frameResults_length hlen'), ?_⟩
    refine (congrArg (Memory.readBytes · _ _) hbuf).trans (hout.readBytes fun r hr => ?_)
    obtain rfl := List.mem_singleton.mp hr
    exact .inr (Nat.le_refl _)
  · rw [← hframe.mode_eq] at hm
    have hplain : eaxDec (frameKeys dir u).1 (frameKeys dir u).2 (frameHeader dir u)
        (u.buf.readBytes (bodyStart dir u) (opnd u 1 - 8 - headerLen dir)) (u.buf.readBytes (opnd u 0) 8) =
          some (s.buf.readBytes (bodyStart dir s) (opnd s 1)) := by
      rw [hframe.keys_eq, hframe.header, hframe.bodyStart_eq, hframe.opnd_start, hbodyLen, hbuf, htag, hbody]
      exact eaxDec_eaxEnc (length_frameKeys dir s) _ _ _
    obtain ⟨c, hdec⟩ := exec_decrypt_eax hclean' hc' hin' hlong hm hplain
    refine ⟨_, hdec, rfl, (resultRegs_get _ 0).trans (frameResults_length hlen'), ?_⟩
    rw [← hframe.opnd_start]
    calc (u.buf.writeBytes (bodyStart dir u) (s.buf.readBytes (bodyStart dir s) (opnd s 1))).readBytes (opnd u 0 + 8)
          (headerLen dir + opnd s 1)
      _ = frameHeader dir u ++ s.buf.readBytes (bodyStart dir s) (opnd s 1) :=
        Memory.readBytes_writeBytes_behind _ _ _ (Memory.length_readBytes _ _ _)
      _ = s.buf.readBytes (opnd u 0 + 8) (headerLen dir + opnd s 1) := by
        rw [hframe.header, hframe.opnd_start, Memory.readBytes_add, frameHeader, bodyStart]

end Sys2Proof.Machine
end

section
/-! The idle step (O6), the interrupt (O15), and what an error leaves (O23). The interrupt is read off the settled
statements about completions, registers and resets; `ErrorEnd` says once how a command can end with an error. -/

namespace Sys2Proof.Machine

/-! ### The idle step -/

/-- Settles O6: with BUSY 0 the engine's turn passes, at the end of the events and at its own event. -/
theorem idleStepChangesNothing : Obligations.IdleStepChangesNothing := by
  intro s hidle
  have hbusy : ¬s.busy = true := Bool.eq_false_iff.mp hidle
  exact ⟨fun h => by rw [step_of_no_event h, if_neg hbusy], fun rest h => by rw [step_of_engine h, if_neg hbusy]⟩

/-! ### The interrupt (R340) -/

theorem SameHostSide.ie {s t : State} (h : SameHostSide s t) : t.ie = s.ie := by
  obtain ⟨-, hie, -⟩ := h
  exact hie

/-- A completion sets DONE, so IRQ is IE from then on (R121, R340). -/
theorem irq_completeWith (e : ErrCode) (r : Vector Word 8) (s : State) : irq (completeWith e r s) = s.ie :=
  Bool.and_true s.ie

theorem irq_of_done_false {s : State} (h : s.done = false) : irq s = false := by
  rw [irq, h, Bool.and_false]

theorem ResetValues.irq_eq {t : State} (h : ResetValues t) : irq t = false := by
  obtain ⟨-, -, hirq, -⟩ := h
  exact hirq

theorem CompletedBy.irq_eq {i : Instr} {s t : State} (h : CompletedBy i s t) : irq t = s.ie := by
  obtain ⟨e, r, u, heff, rfl⟩ := h
  rw [irq_completeWith, heff.sameHostSide.ie]

/-- The engine's step is a completion, of an illegal word too (R107, R121). -/
theorem engineStep_irq {s t : State} (h : engineStep s = .next t) : irq t = s.ie := by
  rcases engineStep_cases h with ⟨i, -, hby⟩ | ⟨-, rfl⟩
  · exact hby.irq_eq
  · exact irq_completeWith _ _ s

/-- A running command completes in this step where no event is left, and at the engine's event. -/
theorem step_irq_of_busy {s t : State} (hbusy : s.busy = true)
    (hev : s.events = [] ∨ ∃ rest, s.events = .engine :: rest) (h : step s = .next t) : irq t = s.ie := by
  obtain ⟨hnone, hengine⟩ := step_of_busy hbusy
  rcases hev with hev | ⟨rest, hev⟩
  · rw [hnone hev] at h
    exact engineStep_irq h
  · rw [hengine rest hev] at h
    exact engineStep_irq (s := { s with events := rest }) h

/-- Settles O15: DONE is set by every completion, and cleared by issue, by its write of 1 and by both resets. -/
theorem irqFollowsEnableAndDone : Obligations.IrqFollowsEnableAndDone := by
  refine ⟨fun _ => rfl, fun i s t h => (exec_cases h).irq_eq, fun s t => step_irq_of_busy, fun s t v rest h => ?_⟩
  obtain ⟨-, hstatus, -, hctrl⟩ := statusAndCtrlRegisters s rest
  obtain ⟨hissue, -, -⟩ := cmdWriteIssues
  obtain ⟨-, -, hpowerOn⟩ := powerOnResetValues
  refine ⟨fun hev hv => ?_, fun hev hv => ?_, fun hev hv => ?_, fun hev hidle => ?_, fun hev => ?_⟩
  · cases h.symm.trans (hstatus v hev)
    exact irq_of_done_false (if_pos hv)
  · cases h.symm.trans (hctrl v hv hev)
    rfl
  · obtain ⟨t', ht', hreset, -⟩ := softResetKeepsBuf s v rest hv hev
    cases h.symm.trans ht'
    exact hreset.irq_eq
  · obtain ⟨t', ht', -, -, -, hdone, -⟩ := hissue s v rest hidle hev
    cases h.symm.trans ht'
    exact irq_of_done_false hdone
  · obtain ⟨t', ht', hreset, -⟩ := hpowerOn s rest hev
    cases h.symm.trans ht'
    exact hreset.irq_eq

/-! ### Errors that draw no region (R330) -/

/-- The two commands after one of whose errors a region holds any value (R332). -/
def drawsOnError : Instr → Bool
  | .compress _ | .decompress => true
  | _ => false

/-- The command has completed normally, or has raised an error with nothing changed but the cache, which a DECRYPT
whose tag fails may have filled (R311, R330). -/
def OkOrRaised (s t : State) : Prop := t.err = .ok ∨ ∃ e c, t = raise e { s with kcache := c }

theorem OkOrRaised.completed {s u : State} (rs : List Word) : OkOrRaised s (complete rs u) := .inl rfl

theorem OkOrRaised.raised {s : State} (e : ErrCode) : OkOrRaised s (raise e s) := .inr ⟨e, s.kcache, rfl⟩

/-- A check that the rule makes first (R334). -/
theorem OkOrRaised.unless {s t : State} {e : ErrCode} {bad : Prop} [Decidable bad] (h : OkOrRaised s t) :
    OkOrRaised s (if bad then raise e s else t) := by
  split
  · exact .raised e
  · exact h

/-- The outcome is a next state in which the command has completed, or raised an error that draws nothing. -/
def EndsOkOrRaised (s : State) (o : Host.Outcome State Fault Refusal) : Prop := ∃ t, o = .next t ∧ OkOrRaised s t

theorem EndsOkOrRaised.next {s t : State} (h : OkOrRaised s t) : EndsOkOrRaised s (.next t) := ⟨t, rfl, h⟩

theorem EndsOkOrRaised.finish {s n : State} {i : Instr} (hclean : s.hazard = false) (h : OkOrRaised s n) :
    EndsOkOrRaised s (finish i s n) := ⟨n, finish_of_no_hazard hclean, h⟩

theorem execRqSet_okOrRaised (q : Nat) (s : State) : EndsOkOrRaised s (execRqSet q s) := by
  refine .next (.unless (.unless ?_))
  dsimp only
  split
  case h_1 => exact .raised _
  case h_2 => exact .raised _
  case h_3 => exact .unless (.completed _)

theorem execRqDequeue_okOrRaised (q : Nat) (s : State) : EndsOkOrRaised s (execRqDequeue q s) := by
  refine .next (.unless ?_)
  dsimp only
  split <;> exact .completed _

section
variable {s : State}

theorem accessors_okOrRaised (hclean : s.hazard = false) :
    EndsOkOrRaised s (exec .lzCsize s) ∧ EndsOkOrRaised s (exec .lzDsize s) := by
  cases hfields : headerFields s with
  | error e =>
    obtain ⟨hcsize, hdsize⟩ := exec_accessors_error hclean hfields
    exact ⟨⟨_, hcsize, .raised e⟩, _, hdsize, .raised e⟩
  | ok f =>
    obtain ⟨hcsize, hdsize⟩ := exec_accessors_ok hclean hfields
    exact ⟨⟨_, hcsize, .completed _⟩, _, hdsize, .completed _⟩

theorem execEncrypt_okOrRaised (hclean : s.hazard = false) (dir : Dir) : EndsOkOrRaised s (execEncrypt dir s) := by
  refine .finish hclean (.unless ?_)
  dsimp only
  split
  case h_1 => exact .raised _
  case h_2 => exact .completed _
  case h_3 => exact .completed _

/-- The tag is compared after the keys are derived, so the cache may be filled where it fails (R301, R311). -/
theorem execDecrypt_okOrRaised (hclean : s.hazard = false) (dir : Dir) : EndsOkOrRaised s (execDecrypt dir s) := by
  refine .finish hclean (.unless (.unless ?_))
  dsimp only
  split
  case h_1 => exact .raised _
  case h_2 =>
    split
    · exact .completed _
    · exact .raised _
  case h_3 =>
    split
    case h_1 =>
      obtain ⟨c, hstate, -⟩ := keysFor_cases dir _ _ _ s
      exact .inr ⟨.auth, c, congrArg (raise .auth) hstate⟩
    case h_2 => exact .completed _

/-- Of the commands that draw no region, each completes normally or raises with `BUF` as it was (R330). -/
theorem exec_okOrRaised {i : Instr} (hi : drawsOnError i = false) (hclean : s.hazard = false) :
    EndsOkOrRaised s (exec i s) := by
  obtain ⟨hcsize, hdsize⟩ := accessors_okOrRaised hclean
  cases i with
  | nop => exact .next (.completed _)
  | hash => exact .finish hclean (.unless (.unless (.completed _)))
  | powLevel => exact .finish hclean (.unless (.completed _))
  | powSearch => exact .finish hclean (.unless (.completed _))
  | compress => cases hi
  | decompress => cases hi
  | lzCsize => exact hcsize
  | lzDsize => exact hdsize
  | rqInit => exact .next (.unless (.unless (.completed _)))
  | rqSet q => exact execRqSet_okOrRaised q s
  | rqDequeue q => exact execRqDequeue_okOrRaised q s
  | rqIsSet => exact .next (.unless (.unless (.completed _)))
  | rqGen => exact .next (.unless (.unless (.completed _)))
  | rqStatus => exact .next (.unless (.completed _))
  | seqNext => exact .next (.unless (.completed _))
  | seqRead => exact .next (.unless (.completed _))
  | seqSet => exact .next (.unless (.unless (.completed _)))
  | seqDiff => exact .next (.unless (.completed _))
  | seqResolve => exact .next (.unless (.completed _))
  | cryptoInit => exact .finish hclean (.unless (.unless (.unless (.unless (.completed _)))))
  | cryptoReset => exact .next (.completed _)
  | deriveKey => exact .finish hclean (.unless (.unless (.unless (.completed _))))
  | encrypt dir => exact execEncrypt_okOrRaised hclean dir
  | decrypt dir => exact execDecrypt_okOrRaised hclean dir

end

/-! ### Every error (R330, R332) -/

/-- The last `RANGE` of a COMPRESS: every check passes, and the block is longer than its destination (R150, R332). -/
def TooLong (i : Instr) (s : State) : Prop :=
  let src := opndRegion s 0 1
  let dst := opndRegion s 2 3
  i = .compress 1 ∧ src.start + src.len ≤ s.cfg.bufSize ∧ dst.start + dst.len ≤ s.cfg.bufSize ∧
    regionsOverlap src dst = false ∧ dst.len < (lzCompress (readRegion s src)).length

/-- How a command ends with an error: `BUF` as it was, or one of the two draws of R332. -/
inductive ErrorEnd (s : State) : Instr → State → Prop
  | kept {i : Instr} (e : ErrCode) (c : Vector KEntry 18) (hfits : ¬TooLong i s)
      (hhead : i = .decompress → ∀ b f, decompressHead s ≠ .ok (b, f)) :
      ErrorEnd s i (raise e { s with kcache := c })
  | tooLong {i : Instr} (hlong : TooLong i s) : ErrorEnd s i (raise .range (drawRegion s (opndRegion s 2 3)))
  | undecodable {b : Bytes} {f : LzFields} {e : ErrCode} (hhead : decompressHead s = .ok (b, f))
      (he : e = .level ∨ e = .format) :
      ErrorEnd s .decompress (raise e (drawRegion s { start := opnd s 2, len := f.dlen }))

/-- An error of COMPRESS before its block is made. -/
theorem ErrorEnd.compress_kept {s : State} {level : Nat} (e : ErrCode) (hfits : ¬TooLong (.compress level) s) :
    ErrorEnd s (.compress level) (raise e s) :=
  .kept e s.kcache hfits nofun

section
variable {s t : State}

theorem execCompress_errorEnd {level : Nat} (hclean : s.hazard = false) (h : exec (.compress level) s = .next t)
    (herr : t.err ≠ .ok) : ErrorEnd s (.compress level) t := by
  cases h.symm.trans (exec_compress level hclean)
  split_ifs at herr ⊢ with hlevel hrange hoverlap hlen
  · refine .compress_kept _ fun ⟨hi, _⟩ => hlevel ?_
    cases hi
    rfl
  · exact .compress_kept _ fun ⟨_, hsrc, hdst, _⟩ => hrange.elim (Nat.not_lt.mpr hsrc) (Nat.not_lt.mpr hdst)
  · refine .compress_kept _ fun ⟨_, _, _, hapart, _⟩ => ?_
    rw [hoverlap] at hapart
    cases hapart
  · obtain ⟨hsrc, hdst⟩ := not_or.mp hrange
    exact .tooLong ⟨congrArg _ (not_not.mp hlevel), Nat.not_lt.mp hsrc, Nat.not_lt.mp hdst,
      Bool.eq_false_iff.mpr hoverlap, hlen⟩
  · exact absurd rfl herr

theorem execDecompress_errorEnd (hclean : s.hazard = false) (h : exec .decompress s = .next t) (herr : t.err ≠ .ok) :
    ErrorEnd s .decompress t := by
  cases hhead : decompressHead s with
  | error e =>
    cases h.symm.trans (exec_decompress_checked hclean hhead)
    refine .kept e s.kcache nofun fun _ b f hok => ?_
    rw [hhead] at hok
    cases hok
  | ok bf =>
    obtain ⟨b, f⟩ := bf
    cases hdec : lzDecode b f with
    | error e =>
      cases h.symm.trans (exec_decompress_undecodable hclean hhead hdec)
      exact .undecodable hhead (lzDecode_error hdec)
    | ok d =>
      cases h.symm.trans (exec_decompress_stores hclean hhead hdec)
      exact absurd rfl herr

/-- Every error of every command, the host not having written into its regions (R330, R332). -/
theorem exec_errorEnd {i : Instr} (hclean : s.hazard = false) (h : exec i s = .next t) (herr : t.err ≠ .ok) :
    ErrorEnd s i t := by
  cases hi : drawsOnError i with
  | true =>
    cases i with
    | compress level => exact execCompress_errorEnd hclean h herr
    | decompress => exact execDecompress_errorEnd hclean h herr
    | _ => cases hi
  | false =>
    obtain ⟨u, hu, hok | ⟨e, c, rfl⟩⟩ := exec_okOrRaised hi hclean
    · cases h.symm.trans hu
      exact absurd hok herr
    · cases h.symm.trans hu
      refine .kept e c (fun ⟨hcompress, _⟩ => ?_) fun hdecompress => ?_
      · rw [hcompress] at hi
        cases hi
      · rw [hdecompress] at hi
        cases hi

/-- An error leaves `RES` 0 and the unit state as it was, also where it draws a region (R330). -/
theorem ErrorEnd.completed {i : Instr} (h : ErrorEnd s i t) : CompletedWith t.err [] t ∧ SameUnits s t := by
  cases h <;> exact ⟨completedWith_raise _ _, ⟨rfl, rfl, rfl⟩, rfl, rfl⟩

end

/-- Settles O23: each way to end with an error falls under one of the three clauses on `BUF`. -/
theorem errorLeavesState : Obligations.ErrorLeavesState := by
  intro i s t hclean h herr src dst tooLong
  have hend := exec_errorEnd hclean h herr
  obtain ⟨hdone, hunits⟩ := hend.completed
  refine ⟨⟨hdone, commandsKeepHostSide i s t h, hunits⟩, (exec_cases h).irq_eq, ?_⟩
  cases hend with
  | kept e c hfits hhead =>
    exact ⟨fun hlong => absurd hlong hfits, fun b f hi hok => absurd hok (hhead hi b f), fun _ _ _ => rfl⟩
  | tooLong hlong =>
    obtain ⟨rfl, hrest⟩ := hlong
    exact ⟨fun _ => ⟨rfl, sameBufOutside_drawRegion dst s⟩, nofun, fun hfits => absurd ⟨rfl, hrest⟩ hfits⟩
  | undecodable hhead he =>
    refine ⟨fun ⟨hi, _⟩ => ?_, fun b f _ hok => ?_, fun _ hnone => absurd hhead (hnone rfl _ _)⟩
    · cases hi
    · cases hhead.symm.trans hok
      exact ⟨he, sameBufOutside_drawRegion _ s⟩

end Sys2Proof.Machine
end
